-- ==== Sys2Proof/Word.lean ====
section
/-! DEFINITION. The units of the block: the byte, the word of 16 bytes that every FIFO, pointer
step and DDR access moves (20_memory.md R73), and the register word of WIRE_WIDTH = 32 bits
(00_scope.md R6). -/

namespace Sys2Proof

/-- A byte: 8 bits (00_scope.md R8). -/
abbrev Byte := BitVec 8

/-- A register word of WIRE_WIDTH = 32 bits (00_scope.md R6, 92_eei_decisions.md D5). -/
abbrev Wire := BitVec 32

/-- A word of the data path: WORD_BYTES = 16 bytes, byte j being the j-th in transfer order
(20_memory.md R73). -/
structure Word where
  bytes : List Byte
  len : bytes.length = 16
deriving DecidableEq, Repr

/-- The word whose byte j is `f j`. -/
def Word.ofFn (f : Nat → Byte) : Word :=
  ⟨(List.range 16).map f, by simp⟩

end Sys2Proof
end

