-- ==== Sys2Proof/Machine/Bytes.lean ====
section
/-! DEFINITION. Byte order (20_memory.md R73, R74): 16-bit codes as two bytes, low byte first; byte
blocks as words of 16 bytes in transfer order. -/

namespace Sys2Proof.Machine

/-- `u16(lo, hi) = lo + (hi << 8)` (00_scope.md R8). -/
def u16 (lo hi : Byte) : Nat := lo.toNat + (hi.toNat <<< 8)

/-- `v & 0xFF`. -/
def lowByte (v : Nat) : Byte := BitVec.ofNat 8 (v &&& 0xFF)

/-- `v >> 8`, a byte for a code in 0..65535. -/
def highByte (v : Nat) : Byte := BitVec.ofNat 8 (v >>> 8)

/-- The two bytes of a code in stream order (20_memory.md R74). -/
def codeBytes (v : Nat) : List Byte := [lowByte v, highByte v]

/-- Word i of a byte block: `W[i] = b[16i .. 16i+15]` (20_memory.md R73). -/
def blockWord (b : List Byte) (i : Nat) : Word := Word.ofFn fun j => b.getD (16 * i + j) 0#8

/-- The words of a byte block, in order. -/
def wordsOf (b : List Byte) : List Word := (List.range (b.length / 16)).map (blockWord b)

/-- The bytes of words, in order: `b[16i+j] = W[i][j]` (20_memory.md R73). -/
def bytesOf (ws : List Word) : List Byte := ws.flatMap Word.bytes

/-- The code in 16-bit slot s of a word: bytes 2s (low) and 2s + 1 (20_memory.md R74). -/
def slotCode (w : Word) (s : Nat) : Nat :=
  u16 (w.bytes.getD (2 * s) 0#8) (w.bytes.getD (2 * s + 1) 0#8)

end Sys2Proof.Machine
end

