-- ==== Sys2Proof/Config.lean ====
section
/-! DEFINITION. The named things of the block, the configuration record CFG (00_scope.md R6), and the
free values: every value the spec calls a draw (00_scope.md R10, R13) is an opaque constant here,
applied to the counter State.draws. -/

namespace Sys2Proof

/-- The six ControlState flags (10_state.md R22); the first four are the enables. -/
inductive Flag where
  | dacWrite | dacRead | adcWrite | adcTransfer | adcDebug | adcsConnected
deriving DecidableEq, Repr

/-- The five one-shot bits of TRIG (10_state.md R34). -/
inductive Trig where
  | rstDacIn | rstDacOut | rstAdcIn | rstAdcOut | rstPtr
deriving DecidableEq, Repr

/-- The four FIFOs (10_state.md R36). -/
inductive Fifo where
  | dacIn | dacOut | adcIn | adcOut
deriving DecidableEq, Repr

/-- The four address pointers (10_state.md R37). -/
inductive Ptr where
  | dacWr | dacRd | adcWr | adcRd
deriving DecidableEq, Repr

/-- The five endpoints: three registers and two bulk endpoints (20_memory.md R70). -/
inductive Endpoint where
  | ctrl | trig | status | pipeIn | pipeOut
deriving DecidableEq, Repr

/-- The two regions of the DDR buffer (20_memory.md R70). -/
inductive Region where
  | dac | adc
deriving DecidableEq, Repr

/-- The closed set of dialects (30_encoding.md R124). -/
inductive Dialect where
  | legacy | full
deriving DecidableEq, Repr

/-- The six steps the hardware and the device loop take on their own (42_datapath.md). -/
inductive HwStep where
  | dacFill | dacPlay | adcStore | adcFetch | dacSink | adcSource
deriving DecidableEq, Repr

/-- One value for each flag. -/
structure PerFlag (α : Type) where
  dacWrite : α
  dacRead : α
  adcWrite : α
  adcTransfer : α
  adcDebug : α
  adcsConnected : α
deriving DecidableEq, Repr

/-- One value for each trigger bit. -/
structure PerTrig (α : Type) where
  rstDacIn : α
  rstDacOut : α
  rstAdcIn : α
  rstAdcOut : α
  rstPtr : α
deriving DecidableEq, Repr

/-- One value for each FIFO. -/
structure PerFifo (α : Type) where
  dacIn : α
  dacOut : α
  adcIn : α
  adcOut : α
deriving DecidableEq, Repr

/-- One value for each pointer. -/
structure PerPtr (α : Type) where
  dacWr : α
  dacRd : α
  adcWr : α
  adcRd : α
deriving DecidableEq, Repr

/-- One value for each endpoint. -/
structure PerEndpoint (α : Type) where
  ctrl : α
  trig : α
  status : α
  pipeIn : α
  pipeOut : α
deriving DecidableEq, Repr

def Flag.all : List Flag := [.dacWrite, .dacRead, .adcWrite, .adcTransfer, .adcDebug, .adcsConnected]
def Trig.all : List Trig := [.rstDacIn, .rstDacOut, .rstAdcIn, .rstAdcOut, .rstPtr]
def Fifo.all : List Fifo := [.dacIn, .dacOut, .adcIn, .adcOut]

def PerFlag.get {α : Type} (p : PerFlag α) : Flag → α
  | .dacWrite => p.dacWrite
  | .dacRead => p.dacRead
  | .adcWrite => p.adcWrite
  | .adcTransfer => p.adcTransfer
  | .adcDebug => p.adcDebug
  | .adcsConnected => p.adcsConnected

def PerFlag.set {α : Type} (p : PerFlag α) (f : Flag) (v : α) : PerFlag α :=
  match f with
  | .dacWrite => { p with dacWrite := v }
  | .dacRead => { p with dacRead := v }
  | .adcWrite => { p with adcWrite := v }
  | .adcTransfer => { p with adcTransfer := v }
  | .adcDebug => { p with adcDebug := v }
  | .adcsConnected => { p with adcsConnected := v }

def PerEndpoint.get {α : Type} (p : PerEndpoint α) : Endpoint → α
  | .ctrl => p.ctrl
  | .trig => p.trig
  | .status => p.status
  | .pipeIn => p.pipeIn
  | .pipeOut => p.pipeOut

def PerTrig.get {α : Type} (p : PerTrig α) : Trig → α
  | .rstDacIn => p.rstDacIn
  | .rstDacOut => p.rstDacOut
  | .rstAdcIn => p.rstAdcIn
  | .rstAdcOut => p.rstAdcOut
  | .rstPtr => p.rstPtr

def PerFifo.get {α : Type} (p : PerFifo α) : Fifo → α
  | .dacIn => p.dacIn
  | .dacOut => p.dacOut
  | .adcIn => p.adcIn
  | .adcOut => p.adcOut

def PerFifo.set {α : Type} (p : PerFifo α) (q : Fifo) (v : α) : PerFifo α :=
  match q with
  | .dacIn => { p with dacIn := v }
  | .dacOut => { p with dacOut := v }
  | .adcIn => { p with adcIn := v }
  | .adcOut => { p with adcOut := v }

def PerPtr.get {α : Type} (p : PerPtr α) : Ptr → α
  | .dacWr => p.dacWr
  | .dacRd => p.dacRd
  | .adcWr => p.adcWr
  | .adcRd => p.adcRd

def PerPtr.set {α : Type} (p : PerPtr α) (q : Ptr) (v : α) : PerPtr α :=
  match q with
  | .dacWr => { p with dacWr := v }
  | .dacRd => { p with dacRd := v }
  | .adcWr => { p with adcWr := v }
  | .adcRd => { p with adcRd := v }

/-- A name of a sub-channel source or key (45_field_decode.md R231): a byte string. -/
abbrev Name := List Byte

/-- Where a whole-sample field stands: logical channel and phase (45_field_decode.md R231). -/
structure FieldPos where
  ch : Nat
  ph : Nat
deriving DecidableEq, Repr

/-- A sequence counter: channel, phase in the group of ten, position of its lowest bit (R231, R234). -/
structure SeqField where
  ch : Nat
  ph : Nat
  sh : Nat
deriving DecidableEq, Repr

/-- A constant check: channel, phase, mask and expected value (R231, R236). -/
structure ConstField where
  ch : Nat
  ph : Nat
  mask : Nat
  expected : Nat
deriving DecidableEq, Repr

/-- A sub-channel: source and key, channel, group size and phase (R231, R241). -/
structure SubField where
  source : Name
  key : Name
  ch : Nat
  g : Nat
  ph : Nat
deriving DecidableEq, Repr

/-- The layout record of the second decode stage (45_field_decode.md R231). -/
structure Layout where
  ts0 : FieldPos
  ts1 : FieldPos
  ts2 : FieldPos
  seq0 : SeqField
  seq1 : SeqField
  const0 : ConstField
  const1 : ConstField
  const2 : ConstField
  const3 : ConstField
  sub : List SubField
deriving DecidableEq, Repr

/-- The configuration record CFG (00_scope.md R6). WORD_BYTES = 16 and WIRE_WIDTH = 32 are fixed there
and are the types Word and Wire. `addr` holds CTRL_ADDR, TRIG_ADDR, STATUS_ADDR, PIPE_IN_ADDR and
PIPE_OUT_ADDR, which no operation reads: "A model names endpoints symbolically and never computes with
their addresses" (20_memory.md R70; log entry 13). `aDrain` is no field of R6: it carries the named
assumption A_DRAIN (40_transactions.md R150), so that a claim that needs it has it as a premise
(log entry 10). -/
structure Cfg where
  addr : PerEndpoint Nat
  sampleSize : Nat
  pos : PerFlag Nat
  defaults : PerFlag Bool
  tpos : PerTrig Nat
  emptyPos : PerFifo Nat
  fullPos : PerFifo Nat
  countLo : Nat
  countWidth : Nat
  countFifo : Fifo
  fifoDepth : PerFifo Nat
  adcBufWords : Nat
  stripeSlot : List Nat
  permLegacy : List Nat
  permFull : List Nat
  layoutA : Layout
  layoutB : Layout
  vBoundary : Nat
  hasAdcDebug : Bool
  writeBlockSize : Nat
  transportErrorCodes : List Int
  aDrain : Bool
deriving DecidableEq, Repr

/-- One sub-channel of a decode result: source, key and its codes (30_encoding.md R128). -/
structure SubChannel where
  source : Name
  key : Name
  codes : List Nat
deriving DecidableEq, Repr, Inhabited

/-- The decoder's result (30_encoding.md R128), with two error flags (90_conflicts.md C2). -/
structure DecodedChannelSet where
  chan : List (List Nat)
  timestamp : List Nat
  sub : List SubChannel
  seq : List (List Nat)
  dataIntegrityError : Bool
  timingSkipError : Bool
deriving DecidableEq, Repr, Inhabited

/-! Free values (00_scope.md R13: "A model must not replace a draw by a fixed value"). None has a body;
each is applied to the draw counter of the state, so nothing constrains any of them. Log entry 3. -/

/-- Byte number n of draw k. -/
opaque Config.freeByte (k n : Nat) : Byte
/-- Number n of draw k. -/
opaque Config.freeNat (k n : Nat) : Nat
/-- Bit n of draw k. -/
opaque Config.freeBool (k n : Nat) : Bool
/-- A register word. -/
opaque Config.freeWire (k : Nat) : Wire
/-- A byte block of any length. -/
opaque Config.freeBytes (k : Nat) : List Byte
/-- Channels of codes of any number and length. -/
opaque Config.freeChannels (k : Nat) : List (List Nat)
/-- A decode result. -/
opaque Config.freeDecoded (k : Nat) : DecodedChannelSet
/-- The hardware and device-loop steps that run in one gap between two host transactions
(00_scope.md R12, 20_memory.md R82): any number, in any order. Log entry 5. -/
opaque Config.freeSchedule (k : Nat) : List HwStep

end Sys2Proof
end

