-- ==== Sys2Proof/Syntax.lean ====
section
/-! DEFINITION. The operations of the block as one inductive: one constructor for each row of
spec/opcode_table.json (30_encoding.md R126), and one for the form-T transactions that are no row, "one
pulse on every TRIG bit set in mask" (R104). -/

namespace Sys2Proof

/-- The argument of `reset_fifo` (41_controller_ops.md R171): one FIFO, `all`, or a name that is
neither (given by a code of 5 or more), which the operation answers with ConfigurationError. -/
inductive FifoArg where
  | one (q : Fifo)
  | all
  | unknown (code : Nat)
deriving DecidableEq, Repr

/-- The dialect tag a decoder is constructed with (44_deswizzle.md R210): one of the closed set, or a
tag outside it (a code of 2 or more). -/
inductive DialectTag where
  | known (d : Dialect)
  | unknown (code : Nat)
deriving DecidableEq, Repr

/-- The producer version a decoder is constructed with (45_field_decode.md R244): a version, or a
value that is not a version. -/
inductive VersionArg where
  | version (v : Nat)
  | notAVersion
deriving DecidableEq, Repr

/-- The operations. -/
inductive Instr where
  -- class TXN, form W: SET_BIT(f) (40_transactions.md R141)
  | setBitDacWrite
  | setBitDacRead
  | setBitAdcWrite
  | setBitAdcTransfer
  | setBitAdcDebug
  | setBitAdcsConnected
  -- CLEAR_BIT(f) (R142)
  | clearBitDacWrite
  | clearBitDacRead
  | clearBitAdcWrite
  | clearBitAdcTransfer
  | clearBitAdcDebug
  | clearBitAdcsConnected
  -- MASKED_WRITE (R143), ATOMIC_WRITE (R144), and the one ATOMIC_WRITE the controller issues
  | maskedWrite (mask value : Wire)
  | atomicWrite (fields : List Flag) (values : List Bool)
  | atomicWriteStream
  -- form T: TRIGGER(t) (R145)
  | triggerRstDacIn
  | triggerRstDacOut
  | triggerRstAdcIn
  | triggerRstAdcOut
  | triggerRstPtr
  -- form T with any mask (30_encoding.md R104): one pulse on every TRIG bit set in it
  | triggerMask (mask : Wire)
  -- form R (R146), the bulk transfers (R147, R152)
  | wireRead
  | pipeWrite (data : List Byte) (bs : Nat)
  | pipeRead (n bs : Nat)
  -- class OP: the Buffer Controller (41_controller_ops.md)
  | writeSetup
  | writeChannels (buffers : List (List Nat)) (start : Bool)
  | writeBuf (frame : List Byte) (start : Bool)
  | writeFinish
  | repeatSetup
  | setAdcDebug
  | clearAdcDebug
  | fifoStatus
  | resetFifo (name : FifoArg)
  | resetPointers
  | readBlock (n bs : Nat)
  -- class HW: the steps of the data mover and the device loop (42_datapath.md)
  | dacFill
  | dacPlay
  | adcStore
  | adcFetch
  | dacSink
  | adcSource
  -- class FN: the codec (43_striping.md, 44_deswizzle.md, 45_field_decode.md)
  | stripe (buffers : List (List Nat))
  | destripe (frame : List Byte)
  | deswizzleLegacy (d : List Byte)
  | deswizzleFull (d : List Byte)
  | swizzle (dialect : Dialect) (chan : List (List Nat))
  | decodeFields (chan : List (List Nat)) (layout : Layout)
  | decode (tag : DialectTag) (version : VersionArg) (d : List Byte)
deriving DecidableEq, Repr

end Sys2Proof
end

