-- ==== Sys2Proof/Machine/Operands.lean ====
section
/-! DEFINITION. The operand forms: CTRL and TRIG masks of named fields (30_encoding.md R105 to R109),
the field and value lists of ATOMIC_WRITE, block sizes and lengths of bulk transfers, frame sizes, and
the transactions an operation expands into (R127). -/

namespace Sys2Proof.Machine

/-- The word with only bit `p` set. -/
def bitMask (p : Nat) : Wire := 1#32 <<< p

/-- `mask(f)`: the word with only bit CFG.POS[f] set (40_transactions.md). -/
def maskOf (c : Cfg) (f : Flag) : Wire := bitMask (c.pos.get f)

/-- The union of `mask(f)` over a list of fields (40_transactions.md R144). -/
def maskOfList (c : Cfg) (fs : List Flag) : Wire := fs.foldl (fun m f => m ||| maskOf c f) 0#32

/-- The union of the masks of all six fields: the positions inside the block (30_encoding.md R107). -/
def fieldsMask (c : Cfg) : Wire := maskOfList c Flag.all

/-- The pulse mask of a trigger bit, CFG.TPOS[t] (30_encoding.md R108). -/
def pulseMask (c : Cfg) (t : Trig) : Wire := bitMask (c.tpos.get t)

/-- The union of the five pulse masks: the trigger positions (30_encoding.md R108; "all FIFOs" is 0x0F
under CFG_REF, R109). -/
def trigsMask (c : Cfg) : Wire := Trig.all.foldl (fun m t => m ||| pulseMask c t) 0#32

/-- The TRIG bits set in a pulse mask (30_encoding.md R104). -/
def trigsOf (c : Cfg) (mask : Wire) : List Trig :=
  Trig.all.filter fun t => mask.getLsbD (c.tpos.get t)

/-- T3 = {AdcWrite, DacRead, AdcTransfer} (40_transactions.md). -/
def t3 : List Flag := [.adcWrite, .dacRead, .adcTransfer]

/-- The fields of an ATOMIC_WRITE whose bit is 1. -/
def assertedFields : List Flag → List Bool → List Flag
  | f :: fs, b :: bs => if b then f :: assertedFields fs bs else assertedFields fs bs
  | _, _ => []

/-- The value word of an ATOMIC_WRITE: the union of `mask(f)` over the fields whose bit is 1 (R144). -/
def valueOfList (c : Cfg) (fs : List Flag) (bs : List Bool) : Wire :=
  maskOfList c (assertedFields fs bs)

/-- The argument check of ATOMIC_WRITE (R144): lists of one length, no field twice. -/
def atomicArgsOk (fs : List Flag) (bs : List Bool) : Bool :=
  fs.length == bs.length && decide fs.Nodup

/-- The power-of-two block sizes of [16, 16384] (20_memory.md R77). -/
def blockSizes : List Nat := [16, 32, 64, 128, 256, 512, 1024, 2048, 4096, 8192, 16384]

/-- The check of a bulk transfer's length and block size (40_transactions.md R148, R151). -/
def transferOk (n bs : Nat) : Bool := n % 16 == 0 && blockSizes.contains bs

/-- FRAME_BYTES = SAMPLE_SIZE × NUM_CHANNELS × 2 (00_scope.md R5). -/
def frameBytes (c : Cfg) : Nat := c.sampleSize * 8 * 2

/-- The argument check of `write_channels` (41_controller_ops.md R163). -/
def buffersOk (c : Cfg) (bufs : List (List Nat)) : Bool :=
  bufs.length == 8 && bufs.all fun b => b.length == c.sampleSize && b.all fun v => v ≤ 65535

/-- The number of words of a DDR region (20_memory.md R70). -/
def regionWords (c : Cfg) : Region → Nat
  | .dac => c.sampleSize
  | .adc => c.adcBufWords

/-- The region a pointer moves in (10_state.md R37). -/
def ptrRegion : Ptr → Region
  | .dacWr | .dacRd => .dac
  | .adcWr | .adcRd => .adc

/-- The FIFO reset bit of a FIFO (30_encoding.md R108). -/
def rstOf : Fifo → Trig
  | .dacIn => .rstDacIn
  | .dacOut => .rstDacOut
  | .adcIn => .rstAdcIn
  | .adcOut => .rstAdcOut

/-- A register transaction of an operation's expansion (30_encoding.md R127): a form-W write of named
fields, or a trigger pulse. -/
inductive Txn where
  | set (f : Flag)
  | clear (f : Flag)
  | atomic (fields : List Flag) (values : List Bool)
  | pulse (t : Trig)
deriving DecidableEq, Repr

/-- `reset_fifo(all)` (41_controller_ops.md R171). -/
def resetAllTxns : List Txn :=
  [.pulse .rstDacIn, .pulse .rstDacOut, .pulse .rstAdcIn, .pulse .rstAdcOut]

/-- `reset_pointers()` (R172). -/
def resetPointersTxns : List Txn := [.pulse .rstPtr]

/-- `write_finish()` (R166). -/
def writeFinishTxns : List Txn := [.atomic [.adcWrite, .dacRead, .adcTransfer] [true, true, true]]

/-- `write_setup()` (R160). -/
def writeSetupTxns : List Txn :=
  [.clear .dacRead, .clear .adcWrite, .clear .adcTransfer] ++ resetAllTxns ++ resetPointersTxns

/-- `repeat_setup()` (R167). -/
def repeatSetupTxns : List Txn :=
  [.clear .adcTransfer, .clear .adcWrite, .clear .dacRead] ++ resetAllTxns ++ resetPointersTxns
    ++ writeFinishTxns

/-- What `write_buf` issues before its bulk transfer (R164). -/
def writeBufPrelude : List Txn := [.clear .dacRead, .pulse .rstDacIn, .set .dacWrite]

/-- The option of `write_buf` (R164). -/
def writeBufStart : List Txn := [.set .dacRead, .set .adcTransfer]

end Sys2Proof.Machine
end

