-- ==== Sys2Proof/WellFormed.lean ====
section
/-! DEFINITION. Which terms of the syntax are instructions: operand ranges of the call record, of a
layout record (45_field_decode.md R231) and of the configuration record (00_scope.md R6). -/

namespace Sys2Proof

/-- A number that one 32-bit word of a call record holds. -/
def fits (n : Nat) : Bool := n < 4294967296

/-- A list of codes as a call record holds it. -/
def codesFit (l : List Nat) : Bool := fits l.length && l.all fits

/-- A list of channels or buffers as a call record holds it. -/
def channelsFit (l : List (List Nat)) : Bool := fits l.length && l.all codesFit

/-- Operand ranges of the fields of a layout record (45_field_decode.md R231). -/
def FieldPos.wf (f : FieldPos) : Bool := f.ch < 8 && f.ph < 5

def SeqField.wf (f : SeqField) : Bool := f.ch < 8 && f.ph < 10 && f.sh < 12

def ConstField.wf (f : ConstField) : Bool :=
  f.ch < 8 && f.ph < 10 && f.mask < 65536 && f.expected < 65536

def SubField.wf (f : SubField) : Bool :=
  f.ch < 8 && [1, 5, 10].contains f.g && f.ph < f.g && fits f.source.length && fits f.key.length

/-- A layout record: every field in its range (R231). -/
def Layout.wf (l : Layout) : Bool :=
  l.ts0.wf && l.ts1.wf && l.ts2.wf && l.seq0.wf && l.seq1.wf && l.const0.wf && l.const1.wf &&
    l.const2.wf && l.const3.wf && fits l.sub.length && l.sub.all SubField.wf

/-- "Drawn at modulo-5 strides from two channels": at most two distinct values of `ts[k].ch` (R231). -/
def Layout.twoChannels (l : Layout) : Bool :=
  l.ts0.ch == l.ts1.ch || l.ts0.ch == l.ts2.ch || l.ts1.ch == l.ts2.ch

/-- How many of the three timestamp sub-fields of two layouts differ. -/
def Layout.tsDiffs (a b : Layout) : Nat :=
  (if a.ts0 = b.ts0 then 0 else 1) + (if a.ts1 = b.ts1 then 0 else 1)
    + (if a.ts2 = b.ts2 then 0 else 1)

/-- The source name "ADS" of 45_field_decode.md R242, as bytes. -/
def adsName : Name := [0x41#8, 0x44#8, 0x53#8]

/-- The entries at which two sub-channel lists differ. -/
def subDiffs : List SubField → List SubField → List (SubField × SubField)
  | a :: as, b :: bs => if a = b then subDiffs as bs else (a, b) :: subDiffs as bs
  | _, _ => []

/-- LAYOUT_A and LAYOUT_B "are equal except that for exactly one k the pair ts[k] differs, and exactly
one entry of sub whose source is ADS differs" (45_field_decode.md R242). -/
def Layout.versionsOf (a b : Layout) : Bool :=
  a.tsDiffs b == 1 && a.seq0 == b.seq0 && a.seq1 == b.seq1 && a.const0 == b.const0 &&
    a.const1 == b.const1 && a.const2 == b.const2 && a.const3 == b.const3 &&
    a.sub.length == b.sub.length && (subDiffs a.sub b.sub).length == 1 &&
    (subDiffs a.sub b.sub).all fun p =>
      p.1.source == adsName && p.2.source == adsName && p.1.key == p.2.key

/-- The bit positions STATUS gives a meaning to (30_encoding.md R110). -/
def Cfg.statusPositions (c : Cfg) : List Nat :=
  Fifo.all.map c.emptyPos.get ++ Fifo.all.map c.fullPos.get ++ List.range' c.countLo c.countWidth

/-- The constraints 00_scope.md R6 (and R231, R242, R47) puts on CFG. A claim about the instrument is
stated for every CFG that meets them (R7). -/
structure Cfg.Valid (c : Cfg) : Prop where
  sampleSize_pos : 0 < c.sampleSize
  adcBufWords_pos : 0 < c.adcBufWords
  fifoDepth_pos : ∀ q, 0 < c.fifoDepth.get q
  pos_lt : ∀ f, c.pos.get f < 32
  pos_inj : ∀ f g, c.pos.get f = c.pos.get g → f = g
  tpos_lt : ∀ t, c.tpos.get t < 32
  tpos_inj : ∀ t u, c.tpos.get t = c.tpos.get u → t = u
  status_lt : ∀ p ∈ c.statusPositions, p < 32
  status_nodup : c.statusPositions.Nodup
  count_fits : c.fifoDepth.get c.countFifo < 2 ^ c.countWidth
  stripe_perm : c.stripeSlot.Perm (List.range 8)
  legacy_perm : c.permLegacy.Perm (List.range 4)
  full_perm : c.permFull.Perm (List.range 8)
  defaults_excl : ¬ (c.defaults.dacWrite = true ∧ c.defaults.dacRead = true)
  block_ok : c.writeBlockSize ∈ Machine.blockSizes
  codes_neg : ∀ e ∈ c.transportErrorCodes, e < 0
  layoutA_wf : c.layoutA.wf = true
  layoutB_wf : c.layoutB.wf = true
  layoutA_two : c.layoutA.twoChannels = true
  layoutB_two : c.layoutB.twoChannels = true
  layout_versions : c.layoutA.versionsOf c.layoutB = true

/-- The operands of a well-formed instruction are those a call record can hold. -/
def FifoArg.wf : FifoArg → Bool
  | .one _ => true
  | .all => true
  | .unknown code => 5 ≤ code && fits code

def DialectTag.wf : DialectTag → Bool
  | .known _ => true
  | .unknown code => 2 ≤ code && fits code

def VersionArg.wf : VersionArg → Bool
  | .version v => fits v
  | .notAVersion => true

/-- Well-formed instructions. Only ranges of the record are checked here: an argument the spec answers
with ConfigurationError is well-formed. -/
def Instr.wf : Instr → Bool
  | .setBitDacWrite => true
  | .setBitDacRead => true
  | .setBitAdcWrite => true
  | .setBitAdcTransfer => true
  | .setBitAdcDebug => true
  | .setBitAdcsConnected => true
  | .clearBitDacWrite => true
  | .clearBitDacRead => true
  | .clearBitAdcWrite => true
  | .clearBitAdcTransfer => true
  | .clearBitAdcDebug => true
  | .clearBitAdcsConnected => true
  | .maskedWrite _ _ => true
  | .atomicWrite fields values => fits fields.length && fits values.length
  | .atomicWriteStream => true
  | .triggerRstDacIn => true
  | .triggerRstDacOut => true
  | .triggerRstAdcIn => true
  | .triggerRstAdcOut => true
  | .triggerRstPtr => true
  | .triggerMask _ => true
  | .wireRead => true
  | .pipeWrite data bs => fits data.length && fits bs
  | .pipeRead n bs => fits n && fits bs
  | .writeSetup => true
  | .writeChannels buffers _ => channelsFit buffers
  | .writeBuf frame _ => fits frame.length
  | .writeFinish => true
  | .repeatSetup => true
  | .setAdcDebug => true
  | .clearAdcDebug => true
  | .fifoStatus => true
  | .resetFifo name => name.wf
  | .resetPointers => true
  | .readBlock n bs => fits n && fits bs
  | .dacFill => true
  | .dacPlay => true
  | .adcStore => true
  | .adcFetch => true
  | .dacSink => true
  | .adcSource => true
  | .stripe buffers => channelsFit buffers
  | .destripe frame => fits frame.length
  | .deswizzleLegacy d => fits d.length
  | .deswizzleFull d => fits d.length
  | .swizzle _ chan => channelsFit chan
  | .decodeFields chan layout => channelsFit chan && layout.wf
  | .decode tag version d => tag.wf && version.wf && fits d.length

end Sys2Proof
end

