-- ==== Sys2Proof/Machine/Configs.lean ====
section
/-! DEFINITION. The configuration CFG_TEST (00_scope.md R7): the reference positions and tables of
30_encoding.md R106, R109, R112, R117, R122 and the synthetic layouts of 45_field_decode.md R246.
"Neither configuration is the hardware's" (R7). Log entry 2. -/

namespace Sys2Proof

/-- Names of the synthetic layouts: ADC, DAC (ADS is `adsName`), and keys. -/
def adcName : Name := [0x41#8, 0x44#8, 0x43#8]
def dacName : Name := [0x44#8, 0x41#8, 0x43#8]
def keyA : Name := [0x41#8]
def keyB : Name := [0x42#8]
/-- The key written as the decimal digit `n` below 10. -/
def digitKey (n : Nat) : Name := [BitVec.ofNat 8 (0x30 + n)]

/-- LAYOUT_TEST_A with the two places at which LAYOUT_TEST_B differs left open (R246). -/
def Layout.testWith (ts1 : FieldPos) (adsB : Nat) : Layout :=
  { ts0 := ⟨6, 0⟩
    ts1 := ts1
    ts2 := ⟨7, 0⟩
    seq0 := ⟨7, 4, 0⟩
    seq1 := ⟨7, 9, 8⟩
    const0 := ⟨6, 2, 0xFFFF, 0xAA55⟩
    const1 := ⟨6, 7, 0xFFFF, 0x55AA⟩
    const2 := ⟨7, 2, 0xFF00, 0x2800⟩
    const3 := ⟨7, 7, 0x00FF, 0x00AB⟩
    sub :=
      [⟨adcName, digitKey 0, 0, 1, 0⟩, ⟨adcName, digitKey 1, 1, 1, 0⟩,
       ⟨adcName, digitKey 2, 2, 1, 0⟩, ⟨adcName, digitKey 3, 3, 1, 0⟩,
       ⟨dacName, digitKey 0, 4, 5, 0⟩, ⟨dacName, digitKey 1, 4, 5, 1⟩,
       ⟨adsName, keyA, 5, 5, 0⟩, ⟨adsName, keyB, 5, 5, adsB⟩] }

/-- LAYOUT_TEST_A (R246). -/
def Layout.testA : Layout := Layout.testWith ⟨6, 1⟩ 1
/-- LAYOUT_TEST_B (R246). -/
def Layout.testB : Layout := Layout.testWith ⟨7, 1⟩ 2

/-- CFG_TEST (R7). TRANSPORT_ERROR_CODES has no value in the spec; {-1} is the code vector V-O7 of
95_test_vectors.md uses. DESIGN CHOICE, log entry 2. The vectors are under assumption A_DRAIN. "CFG_REF
gives no addresses" (20_memory.md R72): those here are placeholders (DESIGN CHOICE, log entry 13). -/
def Cfg.test : Cfg :=
  { addr := ⟨0, 1, 2, 3, 4⟩
    sampleSize := 4
    pos := ⟨0, 1, 2, 3, 4, 5⟩
    defaults := ⟨false, false, false, false, false, false⟩
    tpos := ⟨0, 1, 2, 3, 4⟩
    emptyPos := ⟨0, 1, 2, 3⟩
    fullPos := ⟨4, 5, 6, 7⟩
    countLo := 8
    countWidth := 16
    countFifo := .adcOut
    fifoDepth := ⟨8, 8, 8, 8⟩
    adcBufWords := 16
    stripeSlot := [6, 7, 4, 5, 2, 3, 0, 1]
    permLegacy := [2, 3, 0, 1]
    permFull := [6, 7, 4, 5, 2, 3, 0, 1]
    layoutA := Layout.testA
    layoutB := Layout.testB
    vBoundary := 1
    hasAdcDebug := true
    writeBlockSize := 16
    transportErrorCodes := [-1]
    aDrain := true }

end Sys2Proof
end

