-- ==== Sys2Proof/Decode.lean ====
section
/-! DEFINITION. Call records: their decoder, total on any bytes and rejecting by name, and the encoder.

The spec gives the transactions of an operation (30_encoding.md R104, R127) and, under CFG_REF, the
mask and value words of form W and the pulse word of form T (opcode_table.json); it gives no wire-level
format. The byte layout of a record is the model's: DESIGN CHOICE, log entry 1. A record is three
32-bit words, low byte first, then a payload:

    word 0    word 1                  word 2   payload
    value     mask xor value          0        form W: SET_BIT, CLEAR_BIT, the stream ATOMIC_WRITE, or
                                               a MASKED_WRITE that is none of these
    pulses    0                       1        form T: TRIGGER, or any other pulse mask
    0         0                       2        form R: WIRE_READ
    length    block size              3        form PI: PIPE_WRITE, its bytes
    length    block size              4        form PO: PIPE_READ
    operands                          5 ...    the other rows of the table, one number each

Word 0 of form W is the value because that is what the table's `match` numbers from bit 0. -/

namespace Sys2Proof

/-- Why bytes are no call record. -/
inductive DecodeError where
  /-- The bytes end inside a record. -/
  | truncated
  /-- Word 2 is the number of no row. -/
  | unknownTag (tag : Nat)
  /-- A word that must be zero is not, or a flag word is neither 0 nor 1. -/
  | reservedOperand
  /-- A code that names no CTRL field, dialect or kind of version. -/
  | unknownCode (code : Nat)
  /-- A layout record with a field outside its range (45_field_decode.md R231). -/
  | badLayout
deriving DecidableEq, Repr

/-! ### Encoding -/

/-- A 32-bit word, low byte first. -/
def encWord (n : Nat) : List Byte :=
  [BitVec.ofNat 8 n, BitVec.ofNat 8 (n / 256), BitVec.ofNat 8 (n / 65536),
   BitVec.ofNat 8 (n / 16777216)]

def encWords (l : List Nat) : List Byte := l.flatMap encWord

/-- A list of codes with its length. -/
def encCodes (l : List Nat) : List Byte := encWord l.length ++ encWords l

def encBytes (l : List Byte) : List Byte := encWord l.length ++ l

def encBool (b : Bool) : Nat := if b then 1 else 0

def flagCode : Flag → Nat
  | .dacWrite => 0
  | .dacRead => 1
  | .adcWrite => 2
  | .adcTransfer => 3
  | .adcDebug => 4
  | .adcsConnected => 5

def fifoArgCode : FifoArg → Nat
  | .one .dacIn => 0
  | .one .dacOut => 1
  | .one .adcIn => 2
  | .one .adcOut => 3
  | .all => 4
  | .unknown code => code

def dialectCode : Dialect → Nat
  | .legacy => 0
  | .full => 1

def dialectTagCode : DialectTag → Nat
  | .known d => dialectCode d
  | .unknown code => code

def encVersion : VersionArg → List Byte
  | .version v => encWord 0 ++ encWord v
  | .notAVersion => encWord 1 ++ encWord 0

def encFieldPos (f : FieldPos) : List Byte := encWord f.ch ++ encWord f.ph

def encSeqField (f : SeqField) : List Byte := encWord f.ch ++ encWord f.ph ++ encWord f.sh

def encConstField (f : ConstField) : List Byte :=
  encWord f.ch ++ encWord f.ph ++ encWord f.mask ++ encWord f.expected

def encSubField (f : SubField) : List Byte :=
  encBytes f.source ++ encBytes f.key ++ encWord f.ch ++ encWord f.g ++ encWord f.ph

def encLayout (l : Layout) : List Byte :=
  encFieldPos l.ts0 ++ encFieldPos l.ts1 ++ encFieldPos l.ts2 ++ encSeqField l.seq0 ++
    encSeqField l.seq1 ++ encConstField l.const0 ++ encConstField l.const1 ++
    encConstField l.const2 ++ encConstField l.const3 ++ encWord l.sub.length ++
    l.sub.flatMap encSubField

/-- The three words every record begins with. -/
def header (w0 w1 tag : Nat) : List Byte := encWord w0 ++ encWord w1 ++ encWord tag

/-- The record of a form-W transaction W(mask, value) (30_encoding.md R104). -/
def encW (mask value : Wire) : List Byte := header value.toNat (mask ^^^ value).toNat 0

/-- The record of a call. -/
def encode (c : Cfg) : Instr → List Byte
  | .setBitDacWrite => encW (Machine.maskOf c .dacWrite) (Machine.maskOf c .dacWrite)
  | .setBitDacRead => encW (Machine.maskOf c .dacRead) (Machine.maskOf c .dacRead)
  | .setBitAdcWrite => encW (Machine.maskOf c .adcWrite) (Machine.maskOf c .adcWrite)
  | .setBitAdcTransfer => encW (Machine.maskOf c .adcTransfer) (Machine.maskOf c .adcTransfer)
  | .setBitAdcDebug => encW (Machine.maskOf c .adcDebug) (Machine.maskOf c .adcDebug)
  | .setBitAdcsConnected =>
      encW (Machine.maskOf c .adcsConnected) (Machine.maskOf c .adcsConnected)
  | .clearBitDacWrite => encW (Machine.maskOf c .dacWrite) 0#32
  | .clearBitDacRead => encW (Machine.maskOf c .dacRead) 0#32
  | .clearBitAdcWrite => encW (Machine.maskOf c .adcWrite) 0#32
  | .clearBitAdcTransfer => encW (Machine.maskOf c .adcTransfer) 0#32
  | .clearBitAdcDebug => encW (Machine.maskOf c .adcDebug) 0#32
  | .clearBitAdcsConnected => encW (Machine.maskOf c .adcsConnected) 0#32
  | .atomicWriteStream => encW (Machine.maskOfList c Machine.t3) (Machine.maskOfList c Machine.t3)
  | .triggerRstDacIn => header (Machine.pulseMask c .rstDacIn).toNat 0 1
  | .triggerRstDacOut => header (Machine.pulseMask c .rstDacOut).toNat 0 1
  | .triggerRstAdcIn => header (Machine.pulseMask c .rstAdcIn).toNat 0 1
  | .triggerRstAdcOut => header (Machine.pulseMask c .rstAdcOut).toNat 0 1
  | .triggerRstPtr => header (Machine.pulseMask c .rstPtr).toNat 0 1
  | .triggerMask mask => header mask.toNat 0 31
  | .wireRead => header 0 0 2
  | .pipeWrite data bs => header data.length bs 3 ++ data
  | .pipeRead n bs => header n bs 4
  | .maskedWrite mask value => header value.toNat (mask ^^^ value).toNat 5
  | .atomicWrite fields values =>
      header fields.length values.length 6 ++ encWords (fields.map flagCode)
        ++ encWords (values.map encBool)
  | .writeSetup => header 0 0 7
  | .writeChannels buffers start =>
      header buffers.length (encBool start) 8 ++ buffers.flatMap encCodes
  | .writeBuf frame start => header frame.length (encBool start) 9 ++ frame
  | .writeFinish => header 0 0 10
  | .repeatSetup => header 0 0 11
  | .setAdcDebug => header 0 0 12
  | .clearAdcDebug => header 0 0 13
  | .fifoStatus => header 0 0 14
  | .resetFifo name => header (fifoArgCode name) 0 15
  | .resetPointers => header 0 0 16
  | .readBlock n bs => header n bs 17
  | .dacFill => header 0 0 18
  | .dacPlay => header 0 0 19
  | .adcStore => header 0 0 20
  | .adcFetch => header 0 0 21
  | .dacSink => header 0 0 22
  | .adcSource => header 0 0 23
  | .stripe buffers => header buffers.length 0 24 ++ buffers.flatMap encCodes
  | .destripe frame => header frame.length 0 25 ++ frame
  | .deswizzleLegacy d => header d.length 0 26 ++ d
  | .deswizzleFull d => header d.length 0 27 ++ d
  | .swizzle dialect chan =>
      header chan.length (dialectCode dialect) 28 ++ chan.flatMap encCodes
  | .decodeFields chan layout =>
      header chan.length 0 29 ++ chan.flatMap encCodes ++ encLayout layout
  | .decode tag version d =>
      header d.length (dialectTagCode tag) 30 ++ encVersion version ++ d

/-! ### Decoding -/

/-- A word of four bytes, low byte first. -/
def takeWord : List Byte → Except DecodeError (Nat × List Byte)
  | b0 :: b1 :: b2 :: b3 :: r =>
      .ok (b0.toNat + 256 * b1.toNat + 65536 * b2.toNat + 16777216 * b3.toNat, r)
  | _ => .error .truncated

def takeBytes (n : Nat) (l : List Byte) : Except DecodeError (List Byte × List Byte) :=
  if l.length < n then .error .truncated else .ok (l.take n, l.drop n)

/-- `n` things, one after the other. -/
def takeMany {α : Type} (one : List Byte → Except DecodeError (α × List Byte)) :
    Nat → List Byte → Except DecodeError (List α × List Byte)
  | 0, l => .ok ([], l)
  | n + 1, l => do
      let (x, l) ← one l
      let (xs, l) ← takeMany one n l
      .ok (x :: xs, l)

def takeCodes (l : List Byte) : Except DecodeError (List Nat × List Byte) := do
  let (n, l) ← takeWord l
  takeMany takeWord n l

def takeName (l : List Byte) : Except DecodeError (Name × List Byte) := do
  let (n, l) ← takeWord l
  takeBytes n l

def takeBool (l : List Byte) : Except DecodeError (Bool × List Byte) := do
  let (n, l) ← takeWord l
  match n with
  | 0 => .ok (false, l)
  | 1 => .ok (true, l)
  | _ => .error .reservedOperand

def takeFlag (l : List Byte) : Except DecodeError (Flag × List Byte) := do
  let (n, l) ← takeWord l
  match n with
  | 0 => .ok (.dacWrite, l)
  | 1 => .ok (.dacRead, l)
  | 2 => .ok (.adcWrite, l)
  | 3 => .ok (.adcTransfer, l)
  | 4 => .ok (.adcDebug, l)
  | 5 => .ok (.adcsConnected, l)
  | _ => .error (.unknownCode n)

def takeVersion (l : List Byte) : Except DecodeError (VersionArg × List Byte) := do
  let (k, l) ← takeWord l
  let (v, l) ← takeWord l
  match k, v with
  | 0, v => .ok (.version v, l)
  | 1, 0 => .ok (.notAVersion, l)
  | _, _ => .error (.unknownCode k)

def takeFieldPos (l : List Byte) : Except DecodeError (FieldPos × List Byte) := do
  let (ch, l) ← takeWord l
  let (ph, l) ← takeWord l
  .ok (⟨ch, ph⟩, l)

def takeSeqField (l : List Byte) : Except DecodeError (SeqField × List Byte) := do
  let (ch, l) ← takeWord l
  let (ph, l) ← takeWord l
  let (sh, l) ← takeWord l
  .ok (⟨ch, ph, sh⟩, l)

def takeConstField (l : List Byte) : Except DecodeError (ConstField × List Byte) := do
  let (ch, l) ← takeWord l
  let (ph, l) ← takeWord l
  let (mask, l) ← takeWord l
  let (expected, l) ← takeWord l
  .ok (⟨ch, ph, mask, expected⟩, l)

def takeSubField (l : List Byte) : Except DecodeError (SubField × List Byte) := do
  let (source, l) ← takeName l
  let (key, l) ← takeName l
  let (ch, l) ← takeWord l
  let (g, l) ← takeWord l
  let (ph, l) ← takeWord l
  .ok (⟨source, key, ch, g, ph⟩, l)

def takeLayout (l : List Byte) : Except DecodeError (Layout × List Byte) := do
  let (ts0, l) ← takeFieldPos l
  let (ts1, l) ← takeFieldPos l
  let (ts2, l) ← takeFieldPos l
  let (seq0, l) ← takeSeqField l
  let (seq1, l) ← takeSeqField l
  let (const0, l) ← takeConstField l
  let (const1, l) ← takeConstField l
  let (const2, l) ← takeConstField l
  let (const3, l) ← takeConstField l
  let (n, l) ← takeWord l
  let (sub, l) ← takeMany takeSubField n l
  let layout : Layout := ⟨ts0, ts1, ts2, seq0, seq1, const0, const1, const2, const3, sub⟩
  if layout.wf then .ok (layout, l) else .error .badLayout

/-- SET_BIT(f) as a row of the table (40_transactions.md R141). -/
def setBitInstr : Flag → Instr
  | .dacWrite => .setBitDacWrite
  | .dacRead => .setBitDacRead
  | .adcWrite => .setBitAdcWrite
  | .adcTransfer => .setBitAdcTransfer
  | .adcDebug => .setBitAdcDebug
  | .adcsConnected => .setBitAdcsConnected

/-- CLEAR_BIT(f) as a row of the table (R142). -/
def clearBitInstr : Flag → Instr
  | .dacWrite => .clearBitDacWrite
  | .dacRead => .clearBitDacRead
  | .adcWrite => .clearBitAdcWrite
  | .adcTransfer => .clearBitAdcTransfer
  | .adcDebug => .clearBitAdcDebug
  | .adcsConnected => .clearBitAdcsConnected

/-- TRIGGER(t) as a row of the table (R145). -/
def triggerInstr : Trig → Instr
  | .rstDacIn => .triggerRstDacIn
  | .rstDacOut => .triggerRstDacOut
  | .rstAdcIn => .triggerRstAdcIn
  | .rstAdcOut => .triggerRstAdcOut
  | .rstPtr => .triggerRstPtr

/-- The row of the table a form-W transaction is, by its mask and value (opcode_table.json; R141 to
R144); MASKED_WRITE where it is no other row. -/
def decodeW (c : Cfg) (mask value : Wire) : Instr :=
  match Flag.all.find? (fun f => mask == Machine.maskOf c f && value == mask) with
  | some f => setBitInstr f
  | none =>
    match Flag.all.find? (fun f => mask == Machine.maskOf c f && value == 0#32) with
    | some f => clearBitInstr f
    | none =>
      if mask = Machine.maskOfList c Machine.t3 ∧ value = mask then .atomicWriteStream
      else .maskedWrite mask value

/-- The row of the table a form-T transaction is, by its pulse mask; the form with its mask where it is
no row (30_encoding.md R104). -/
def decodeT (c : Cfg) (mask : Wire) : Instr :=
  match Trig.all.find? (fun t => mask == Machine.pulseMask c t) with
  | some t => triggerInstr t
  | none => .triggerMask mask

def fifoArgOf (n : Nat) : FifoArg :=
  match n with
  | 0 => .one .dacIn
  | 1 => .one .dacOut
  | 2 => .one .adcIn
  | 3 => .one .adcOut
  | 4 => .all
  | _ => .unknown n

def dialectTagOf (n : Nat) : DialectTag :=
  match n with
  | 0 => .known .legacy
  | 1 => .known .full
  | _ => .unknown n

/-- A record without operands: words 0 and 1 are zero. -/
def bare (i : Instr) (w0 w1 : Nat) (l : List Byte) : Except DecodeError (Instr × List Byte) :=
  if w0 = 0 ∧ w1 = 0 then .ok (i, l) else .error .reservedOperand

/-- A record whose payload is word 0 bytes and whose word 1 is zero. -/
def withBytes (mk : List Byte → Instr) (w0 w1 : Nat) (l : List Byte) :
    Except DecodeError (Instr × List Byte) := do
  let (d, l) ← takeBytes w0 l
  if w1 = 0 then .ok (mk d, l) else .error .reservedOperand

/-- The record after its header. -/
def decodeBody (c : Cfg) (w0 w1 tag : Nat) (l : List Byte) :
    Except DecodeError (Instr × List Byte) :=
  match tag with
  | 0 => .ok (decodeW c (BitVec.ofNat 32 w1 ^^^ BitVec.ofNat 32 w0) (BitVec.ofNat 32 w0), l)
  | 1 => if w1 = 0 then .ok (decodeT c (BitVec.ofNat 32 w0), l) else .error .reservedOperand
  | 2 => bare .wireRead w0 w1 l
  | 3 => do let (d, l) ← takeBytes w0 l; .ok (.pipeWrite d w1, l)
  | 4 => .ok (.pipeRead w0 w1, l)
  | 5 => .ok (.maskedWrite (BitVec.ofNat 32 w1 ^^^ BitVec.ofNat 32 w0) (BitVec.ofNat 32 w0), l)
  | 6 => do
      let (fields, l) ← takeMany takeFlag w0 l
      let (values, l) ← takeMany takeBool w1 l
      .ok (.atomicWrite fields values, l)
  | 7 => bare .writeSetup w0 w1 l
  | 8 => do
      let (buffers, l) ← takeMany takeCodes w0 l
      match w1 with
      | 0 => .ok (.writeChannels buffers false, l)
      | 1 => .ok (.writeChannels buffers true, l)
      | _ => .error .reservedOperand
  | 9 => do
      let (frame, l) ← takeBytes w0 l
      match w1 with
      | 0 => .ok (.writeBuf frame false, l)
      | 1 => .ok (.writeBuf frame true, l)
      | _ => .error .reservedOperand
  | 10 => bare .writeFinish w0 w1 l
  | 11 => bare .repeatSetup w0 w1 l
  | 12 => bare .setAdcDebug w0 w1 l
  | 13 => bare .clearAdcDebug w0 w1 l
  | 14 => bare .fifoStatus w0 w1 l
  | 15 => if w1 = 0 then .ok (.resetFifo (fifoArgOf w0), l) else .error .reservedOperand
  | 16 => bare .resetPointers w0 w1 l
  | 17 => .ok (.readBlock w0 w1, l)
  | 18 => bare .dacFill w0 w1 l
  | 19 => bare .dacPlay w0 w1 l
  | 20 => bare .adcStore w0 w1 l
  | 21 => bare .adcFetch w0 w1 l
  | 22 => bare .dacSink w0 w1 l
  | 23 => bare .adcSource w0 w1 l
  | 24 => do
      let (buffers, l) ← takeMany takeCodes w0 l
      if w1 = 0 then .ok (.stripe buffers, l) else .error .reservedOperand
  | 25 => withBytes .destripe w0 w1 l
  | 26 => withBytes .deswizzleLegacy w0 w1 l
  | 27 => withBytes .deswizzleFull w0 w1 l
  | 28 => do
      let (chan, l) ← takeMany takeCodes w0 l
      match w1 with
      | 0 => .ok (.swizzle .legacy chan, l)
      | 1 => .ok (.swizzle .full chan, l)
      | _ => .error (.unknownCode w1)
  | 29 => do
      let (chan, l) ← takeMany takeCodes w0 l
      let (layout, l) ← takeLayout l
      if w1 = 0 then .ok (.decodeFields chan layout, l) else .error .reservedOperand
  | 30 => do
      let (version, l) ← takeVersion l
      let (d, l) ← takeBytes w0 l
      .ok (.decode (dialectTagOf w1) version d, l)
  | 31 => if w1 = 0 then .ok (.triggerMask (BitVec.ofNat 32 w0), l) else .error .reservedOperand
  | _ => .error (.unknownTag tag)

/-- The first call of a record stream, and the bytes after it. -/
def decode (c : Cfg) (l : List Byte) : Except DecodeError (Instr × List Byte) := do
  let (w0, l) ← takeWord l
  let (w1, l) ← takeWord l
  let (tag, l) ← takeWord l
  decodeBody c w0 w1 tag l

/-- `n` bytes of a number, low byte first. -/
def bytesOfNat : Nat → Nat → List Byte
  | 0, _ => []
  | n + 1, w => BitVec.ofNat 8 w :: bytesOfNat n (w / 256)

/-- The record whose bits are `w` and zero above: the table numbers the value word of form W (or the
pulse word of form T) from bit 0, and a record of form W is three words. -/
def tableRecord (nbits w : Nat) : List Byte := bytesOfNat (max 12 ((nbits + 7) / 8)) w

/-- The instruction the decoder reads from a table word, under the table's own layout (CFG_REF). -/
def decodeTableWord (nbits w : Nat) : Option Instr :=
  match decode Cfg.test (tableRecord nbits w) with
  | .ok (i, _) => some i
  | .error _ => none

end Sys2Proof
end

