-- ==== Sys2Proof/Machine/State.lean ====
section
/-! DEFINITION. The state of the block: the tuple of 10_state.md, and four fields of the model's own
(INVENTORY.md, State): the configuration, the calls not yet issued, what the last call returned, and
the counter of the draws. -/

namespace Sys2Proof.Machine

/-- The error kinds in scope (60_exceptions.md R260, R266): two are raised, two are flags of a decode
result. They have no numeric codes; TransportError carries the transport's return value (R262). -/
inductive ErrorKind where
  | configurationError
  | transportError (o : Int)
  | dataIntegrityError
  | timingSkipError
deriving DecidableEq, Repr

/-- What `fifo_status` decodes from one STATUS word (41_controller_ops.md R170). -/
structure FifoStatus where
  empty : PerFifo Bool
  full : PerFifo Bool
  count : Nat
deriving DecidableEq, Repr

/-- What the last call handed its caller (60_exceptions.md R260, R269). Log entry 7. -/
inductive Result where
  /-- No call has returned since reset. -/
  | none
  /-- The call completed and returns no value. -/
  | done
  /-- The word of WIRE_READ (40_transactions.md R146). -/
  | word (w : Wire)
  /-- The integer of PIPE_WRITE (R147). -/
  | count (o : Int)
  /-- The pair of PIPE_READ (R152). -/
  | read (o : Int) (block : List Byte)
  /-- The decoded status (41_controller_ops.md R170). -/
  | status (st : FifoStatus)
  /-- A byte block: of `read_block`, `stripe`, `swizzle`. -/
  | bytes (b : List Byte)
  /-- Buffers or logical channels: of `destripe`, `deswizzle_legacy`, `deswizzle_full`. -/
  | channels (ch : List (List Nat))
  /-- A decode result (30_encoding.md R128). -/
  | decoded (d : DecodedChannelSet)
  /-- An error raised (60_exceptions.md R260). -/
  | error (e : ErrorKind)
deriving DecidableEq, Repr

/-- Why the machine stops. The spec stops it nowhere: its `fault` is the sticky mark State.fault (R272),
after which the machine goes on. -/
inductive Fault where
  /-- A word access to the DDR at a word address its region does not have (20_memory.md R70). Raised by
  DAC_FILL, DAC_PLAY, ADC_STORE, ADC_FETCH and the bulk write where a pointer stands outside its region,
  which no state of the spec has (10_state.md R37). Safe: the model stops. -/
  | ddrAddress (r : Region) (a : Nat)
deriving DecidableEq, Repr

/-- Why a call has no meaning. -/
inductive Refusal where
  /-- An instruction the model gives no meaning yet; raised by exec's refused arms alone. Safe. -/
  | notModelled (mnemonic : String)
  /-- A form-W transaction whose mask has a bit outside the six field positions (40_transactions.md
  R154: "the model gives it no meaning and changes no state"). Raised by MASKED_WRITE. Safe. -/
  | maskOutsideFields (mask : Wire)
  /-- A form-W transaction whose value has a bit outside its mask (R154). Raised by MASKED_WRITE.
  Safe. -/
  | valueOutsideMask (mask value : Wire)
  /-- A form-T transaction whose mask has a bit outside the five trigger positions (R154: "refused
  likewise"). Raised by the form-T meaning of any mask. Safe. -/
  | pulseOutsideTriggers (mask : Wire)
  /-- The bytes of State.program are no call record: none of the five forms of transaction and no
  operation of 30_encoding.md R104 and R126, so no call that the host could issue. Raised by step.
  Safe. -/
  | badRecord (e : DecodeError)
deriving DecidableEq, Repr

/-- The state (10_state.md), then the model's own fields. -/
structure State where
  /-- ControlState (R22). -/
  ctrl : PerFlag Bool
  /-- The contents of the four FIFOs, oldest word first (R36). -/
  fifo : PerFifo (List Word)
  /-- The four word pointers (R37). -/
  ptr : PerPtr Nat
  /-- Words stored in the ADC region and not yet fetched (R37). -/
  adcFill : Nat
  /-- The DAC region (R38): the bytes something has written, byte j of word k at address 16k + j. An
  unlisted word is UNWRITTEN. -/
  ddrDac : List Host.Cell
  /-- The ADC region (R39), the same way. -/
  ddrAdc : List Host.Cell
  /-- The words delivered to the DACs, oldest first (R43). -/
  dacOut : List Word
  /-- A captured word was lost (R44). -/
  adcOverrun : Bool
  /-- DacWrite and DacRead were asserted together (60_exceptions.md R272). -/
  fault : Bool
  /-- The configuration record CFG (00_scope.md R6); the model's own field. -/
  cfg : Cfg
  /-- The call records not yet issued (log entry 1); the model's own field. -/
  program : List Byte
  /-- What the last call returned (log entry 7); the model's own field. -/
  result : Result
  /-- How many draws were made (log entry 3); the model's own field. -/
  draws : Nat
deriving DecidableEq, Repr

/-- The state after reset under a configuration (10_state.md R47). -/
def State.resetWith (c : Cfg) : State :=
  { ctrl := c.defaults
    fifo := ⟨[], [], [], []⟩
    ptr := ⟨0, 0, 0, 0⟩
    adcFill := 0
    ddrDac := []
    ddrAdc := []
    dacOut := []
    adcOverrun := false
    fault := false
    cfg := c
    program := []
    result := .none
    draws := 0 }

/-- The state after reset under CFG_TEST (00_scope.md R7). DESIGN CHOICE, log entry 2. -/
def State.reset : State := State.resetWith Cfg.test

/-! One updater for each field. -/

def State.setCtrl (s : State) (v : PerFlag Bool) : State := { s with ctrl := v }
def State.setFifos (s : State) (v : PerFifo (List Word)) : State := { s with fifo := v }
def State.setPtrs (s : State) (v : PerPtr Nat) : State := { s with ptr := v }
def State.setAdcFill (s : State) (v : Nat) : State := { s with adcFill := v }
def State.setDdrDac (s : State) (v : List Host.Cell) : State := { s with ddrDac := v }
def State.setDdrAdc (s : State) (v : List Host.Cell) : State := { s with ddrAdc := v }
def State.setDacOut (s : State) (v : List Word) : State := { s with dacOut := v }
def State.setAdcOverrun (s : State) (v : Bool) : State := { s with adcOverrun := v }
def State.setFault (s : State) (v : Bool) : State := { s with fault := v }
def State.setProgram (s : State) (v : List Byte) : State := { s with program := v }
def State.setResult (s : State) (v : Result) : State := { s with result := v }
def State.setDraws (s : State) (v : Nat) : State := { s with draws := v }

end Sys2Proof.Machine
end

