-- ==== Sys2Proof/Machine/Memory.lean ====
section
/-! DEFINITION. The DDR regions as lists of cells in one canonical form, and the word accesses MemRead
and MemWrite (00_scope.md R10, 20_memory.md R70, R73). An unlisted byte is one nothing has written. -/

namespace Sys2Proof.Machine

/-- The canonical form: addresses strictly rising. An unlisted address reads as no value, which no
entry equals. -/
abbrev Memory.wf (m : List Host.Cell) : Prop := (m.map Prod.fst).Pairwise (· < ·)

/-- Every address is one of a region of `words` words. -/
abbrev Memory.within (words : Nat) (m : List Host.Cell) : Prop := ∀ x ∈ m, x.1 < 16 * words

/-- The byte at a byte address of a region, if something has written it. -/
def Memory.readByte : List Host.Cell → Nat → Option Byte
  | [], _ => none
  | (k, b) :: m, a => if k = a then some b else Memory.readByte m a

def Memory.writeByte : List Host.Cell → Nat → Byte → List Host.Cell
  | [], a, b => [(a, b)]
  | (k, c) :: m, a, b =>
    if a < k then (a, b) :: (k, c) :: m
    else if a = k then (a, b) :: m
    else (k, c) :: Memory.writeByte m a b

def Memory.writeBytes (m : List Host.Cell) : Nat → List Byte → List Host.Cell
  | _, [] => m
  | a, b :: bs => Memory.writeBytes (Memory.writeByte m a b) (a + 1) bs

/-- Every byte of word `k` has been written. -/
def Memory.written (m : List Host.Cell) (k : Nat) : Bool :=
  (List.range 16).all fun j => (Memory.readByte m (16 * k + j)).isSome

/-- MemRead of one word at word address `k`; none where the word is UNWRITTEN (10_state.md R38). -/
def Memory.readWord (m : List Host.Cell) (k : Nat) : Option Word :=
  if Memory.written m k then
    some (Word.ofFn fun j => (Memory.readByte m (16 * k + j)).getD 0#8)
  else none

/-- MemWrite of one word at word address `k`. -/
def Memory.writeWord (m : List Host.Cell) (k : Nat) (w : Word) : List Host.Cell :=
  Memory.writeBytes m (16 * k) w.bytes

/-- The cells of word `k` holding the bytes `f` gives its byte addresses. -/
def Memory.wordCells (f : Nat → Byte) (k : Nat) : List Host.Cell :=
  (List.range 16).map fun j => (16 * k + j, f (16 * k + j))

/-- A region of `words` words in which word `k` is listed where `keep k` says so. -/
def Memory.region (keep : Nat → Bool) (f : Nat → Byte) (words : Nat) : List Host.Cell :=
  (List.range words).flatMap fun k => if keep k then Memory.wordCells f k else []

end Sys2Proof.Machine
end

