-- ==== Sys2Proof/Machine/Ops.lean ====
section
/-! DEFINITION. The named operations over the state: returning to the caller and raising an error,
draws and havocs, FIFOs and pointers, the six steps of the data path, their interleaving, and the reset
logic. -/

namespace Sys2Proof.Machine

/-! ### Returning and raising (60_exceptions.md R260, R269) -/

/-- The operation ends and hands its caller `r`. -/
def finish (r : Result) (s : State) : State := s.setResult r

/-- `raise E(info)`: the operation ends and hands its caller the error kind. "Nothing is saved anywhere,
no mode changes, no vector is fetched; control returns to the caller" (R269). There is no return
operation; recovery is `write_setup` or `repeat_setup` (R270). -/
def raiseError (e : ErrorKind) (s : State) : State := s.setResult (.error e)

/-! ### Draws and havocs (00_scope.md R10, R13) -/

/-- One draw is used up. -/
def takeDraw (s : State) : State := s.setDraws (s.draws + 1)

/-- A drawn word: number i of draw k. -/
def freeWord (k i : Nat) : Word := Word.ofFn fun j => Config.freeByte k (16 * i + j)

/-- A drawn FIFO content of at most `depth` words. -/
def freeFifo (k depth : Nat) : List Word :=
  (List.range (Config.freeNat k 0 % (depth + 1))).map (freeWord k)

/-- The content of FIFO q becomes `ws`. -/
def setFifo (q : Fifo) (ws : List Word) (s : State) : State := s.setFifos (s.fifo.set q ws)

/-- Pointer p becomes `v`. -/
def setPtr (p : Ptr) (v : Nat) (s : State) : State := s.setPtrs (s.ptr.set p v)

/-- `havoc fifo[q]`, within its depth. -/
def havocFifo (q : Fifo) (s : State) : State :=
  setFifo q (freeFifo s.draws (s.cfg.fifoDepth.get q)) (takeDraw s)

/-- `havoc ptr[p]`, inside its region. -/
def havocPtr (p : Ptr) (s : State) : State :=
  setPtr p (Config.freeNat s.draws 0 % regionWords s.cfg (ptrRegion p)) (takeDraw s)

/-- `havoc adc_fill`, at most ADC_BUF_WORDS. -/
def havocFill (s : State) : State :=
  (takeDraw s).setAdcFill (Config.freeNat s.draws 0 % (s.cfg.adcBufWords + 1))

/-- `havoc ddr_dac`: each word any word, or UNWRITTEN. -/
def havocDac (s : State) : State :=
  (takeDraw s).setDdrDac
    (Memory.region (Config.freeBool s.draws) (Config.freeByte s.draws) s.cfg.sampleSize)

/-- `havoc ddr_adc`: each word any word. -/
def havocAdc (s : State) : State :=
  (takeDraw s).setDdrAdc
    (Memory.region (fun _ => true) (Config.freeByte s.draws) s.cfg.adcBufWords)

/-- `adc_overrun <- draw` (70_reset_and_hazards.md R303). -/
def havocOverrun (s : State) : State := (takeDraw s).setAdcOverrun (Config.freeBool s.draws 0)

/-! ### FIFOs and pointers (10_state.md R36, R37) -/

/-- FIFO q holds fewer words than its depth: it is not full. -/
def hasRoom (s : State) (q : Fifo) : Bool := (s.fifo.get q).length < s.cfg.fifoDepth.get q

/-- `push(q, w)` (00_scope.md R10). -/
def push (q : Fifo) (w : Word) (s : State) : State := setFifo q (s.fifo.get q ++ [w]) s

/-- The pointer moves on by one word and wraps at the end of its region (10_state.md R37). -/
def advance (p : Ptr) (s : State) : State :=
  setPtr p ((s.ptr.get p + 1) % regionWords s.cfg (ptrRegion p)) s

/-- The pointer stands inside its region (10_state.md R37). -/
def ptrOk (s : State) (p : Ptr) : Bool := s.ptr.get p < regionWords s.cfg (ptrRegion p)

/-- A word goes to the DAC region at ptr[DacWr], which moves on (42_datapath.md R180). -/
def storeDac (w : Word) (s : State) : State :=
  advance .dacWr (s.setDdrDac (Memory.writeWord s.ddrDac s.ptr.dacWr w))

/-- A word goes to the ADC region at ptr[AdcWr], which moves on (R182). -/
def storeAdc (w : Word) (s : State) : State :=
  advance .adcWr (s.setDdrAdc (Memory.writeWord s.ddrAdc s.ptr.adcWr w))

/-! ### The steps of the data path (42_datapath.md R180 to R185) -/

/-- Enabling conditions: "the step may run at any instant at which the condition holds, and only then". -/
def hwEnabled (s : State) : HwStep → Bool
  | .dacFill => s.ctrl.dacWrite && !s.fifo.dacIn.isEmpty
  | .dacPlay => s.ctrl.dacRead && hasRoom s .dacOut
  | .adcStore => s.ctrl.adcWrite && !s.fifo.adcIn.isEmpty && decide (s.adcFill < s.cfg.adcBufWords)
  | .adcFetch => s.ctrl.adcTransfer && decide (0 < s.adcFill) && hasRoom s .adcOut
  | .dacSink => !s.fifo.dacOut.isEmpty
  | .adcSource => s.ctrl.adcWrite

/-- The pointer a step accesses the DDR through. -/
def hwPtr : HwStep → Option Ptr
  | .dacFill => some .dacWr
  | .dacPlay => some .dacRd
  | .adcStore => some .adcWr
  | .adcFetch => some .adcRd
  | .dacSink => none
  | .adcSource => none

/-- The word address a step would access exists. -/
def hwAddressOk (s : State) (h : HwStep) : Bool :=
  match hwPtr h with
  | some p => ptrOk s p
  | none => true

/-- DAC_FILL (R180). -/
def dacFillEffect (s : State) : State :=
  match s.fifo.dacIn with
  | [] => s
  | w :: ws => storeDac w (setFifo .dacIn ws s)

/-- DAC_PLAY (R181): an UNWRITTEN word plays a draw; `ddr_dac` does not change. -/
def dacPlayEffect (s : State) : State :=
  advance .dacRd
    (push .dacOut ((Memory.readWord s.ddrDac s.ptr.dacRd).getD (freeWord s.draws 0)) (takeDraw s))

/-- ADC_STORE (R182). -/
def adcStoreEffect (s : State) : State :=
  match s.fifo.adcIn with
  | [] => s
  | w :: ws => (storeAdc w (setFifo .adcIn ws s)).setAdcFill (s.adcFill + 1)

/-- ADC_FETCH (R183); a word nothing has written since reset is a draw (10_state.md R47). -/
def adcFetchEffect (s : State) : State :=
  (advance .adcRd
    (push .adcOut ((Memory.readWord s.ddrAdc s.ptr.adcRd).getD (freeWord s.draws 0))
      (takeDraw s))).setAdcFill (s.adcFill - 1)

/-- DAC_SINK (R184). -/
def dacSinkEffect (s : State) : State :=
  match s.fifo.dacOut with
  | [] => s
  | w :: ws => (setFifo .dacOut ws s).setDacOut (s.dacOut ++ [w])

/-- ADC_SOURCE (R185): the word is a draw; a full FIFO loses it and `adc_overrun` is set. -/
def adcSourceEffect (s : State) : State :=
  if hasRoom s .adcIn then push .adcIn (freeWord s.draws 0) (takeDraw s)
  else (takeDraw s).setAdcOverrun true

def hwEffect : HwStep → State → State
  | .dacFill => dacFillEffect
  | .dacPlay => dacPlayEffect
  | .adcStore => adcStoreEffect
  | .adcFetch => adcFetchEffect
  | .dacSink => dacSinkEffect
  | .adcSource => adcSourceEffect

/-- A step where it is enabled; a step that is not enabled does not run (93_implementation_defined.md,
`stuck`: "the step is not enabled and the machine waits"). Log entry 6. -/
def hwStep (h : HwStep) (s : State) : State :=
  if hwEnabled s h && hwAddressOk s h then hwEffect h s else s

/-- Steps one after the other. -/
def runSteps (hs : List HwStep) (s : State) : State := hs.foldl (fun s h => hwStep h s) s

/-- A gap between two host transactions: "any enabled step may run any number of times in any order"
(00_scope.md R12, 20_memory.md R82). Log entry 5. -/
def runHw (s : State) : State := runSteps (Config.freeSchedule s.draws) (takeDraw s)

/-- A gap inside a bulk write: every step but DAC_FILL, which the bulk write's own rule summarises
(40_transactions.md R149). -/
def runOthers (s : State) : State :=
  runSteps ((Config.freeSchedule s.draws).filter (· ≠ .dacFill)) (takeDraw s)

/-! ### Reset logic (42_datapath.md R186, R187; 70_reset_and_hazards.md R303) -/

/-- FIFO reset (R186). -/
def fifoReset (q : Fifo) (s : State) : State :=
  if q = .adcIn then (setFifo q [] s).setAdcOverrun false else setFifo q [] s

/-- Pointer reset (R187). -/
def pointerReset (s : State) : State := (s.setPtrs ⟨0, 0, 0, 0⟩).setAdcFill 0

/-- Some of the four enables is asserted (10_state.md R22). -/
def anyEnable (c : PerFlag Bool) : Bool := c.dacWrite || c.dacRead || c.adcWrite || c.adcTransfer

/-- A pointer reset pulse while an enable is asserted (R303). -/
def pointerHavoc (s : State) : State :=
  let s1 := havocFill (havocPtr .adcRd (havocPtr .adcWr (havocPtr .dacRd (havocPtr .dacWr s))))
  let s2 := if s.ctrl.dacWrite then havocDac s1 else s1
  if s.ctrl.adcWrite then havocAdc s2 else s2

/-- One pulse of a TRIG bit (40_transactions.md R145): the reset, or, while the gating enable is
asserted, the havoc of R303. -/
def pulse (t : Trig) (s : State) : State :=
  match t with
  | .rstDacIn =>
    if s.ctrl.dacWrite then havocDac (havocPtr .dacWr (havocFifo .dacIn s)) else fifoReset .dacIn s
  | .rstDacOut =>
    if s.ctrl.dacRead then havocPtr .dacRd (havocFifo .dacOut s) else fifoReset .dacOut s
  | .rstAdcIn =>
    if s.ctrl.adcWrite then havocOverrun (havocFifo .adcIn s) else fifoReset .adcIn s
  | .rstAdcOut =>
    if s.ctrl.adcTransfer then havocFill (havocPtr .adcRd (havocFifo .adcOut s))
    else fifoReset .adcOut s
  | .rstPtr => if anyEnable s.ctrl then pointerHavoc s else pointerReset s

/-- "One pulse on every TRIG bit set in mask" (30_encoding.md R104), at one instant: no step runs between
them. Their gating flags do not change, and where two act on one component both havoc it, so the order
is none. -/
def pulseAll (ts : List Trig) (s : State) : State := ts.foldl (fun s t => pulse t s) s

end Sys2Proof.Machine
end

