-- ==== Sys2Proof/Machine/Flags.lean ====
section
/-! DEFINITION. The control flags and what is computed from them and from the FIFOs: a form-W
transaction with its checks (40_transactions.md R153, R154), the STATUS word and its decoding
(30_encoding.md R110, R111), and the phase label (10_state.md R40). -/

namespace Sys2Proof.Machine

/-! ### CTRL -/

/-- The CTRL word the flags stand for: each at its position, nothing elsewhere (10_state.md R33). -/
def ctrlWord (c : Cfg) (f : PerFlag Bool) : Wire := maskOfList c (Flag.all.filter f.get)

/-- The flag is a field of this hardware: AdcDebug "exists only when CFG.HAS_ADC_DEBUG is true"
(10_state.md R31). Log entry 12. -/
def flagPresent (c : Cfg) (f : Flag) : Bool := f != .adcDebug || c.hasAdcDebug

/-- Flag f after W(mask, value): `(old & ~mask) | value` at its position (40_transactions.md R153). -/
def flagAfter (c : Cfg) (mask value : Wire) (old : PerFlag Bool) (f : Flag) : Bool :=
  if mask.getLsbD (c.pos.get f) && flagPresent c f then value.getLsbD (c.pos.get f) else old.get f

def ctrlAfter (c : Cfg) (mask value : Wire) (old : PerFlag Bool) : PerFlag Bool :=
  { dacWrite := flagAfter c mask value old .dacWrite
    dacRead := flagAfter c mask value old .dacRead
    adcWrite := flagAfter c mask value old .adcWrite
    adcTransfer := flagAfter c mask value old .adcTransfer
    adcDebug := flagAfter c mask value old .adcDebug
    adcsConnected := flagAfter c mask value old .adcsConnected }

/-- T3 is all asserted. -/
def allT3 (c : PerFlag Bool) : Bool := c.adcWrite && c.dacRead && c.adcTransfer

/-- Some flag of T3 is asserted. -/
def anyT3 (c : PerFlag Bool) : Bool := c.adcWrite || c.dacRead || c.adcTransfer

/-- The capture and playback positions are lost (70_reset_and_hazards.md R302). -/
def havocPositions (s : State) : State :=
  havocAdc (havocFifo .adcOut (havocFifo .adcIn (havocFifo .dacOut
    (havocFill (havocPtr .adcRd (havocPtr .adcWr (havocPtr .dacRd s)))))))

/-- Steps 3 and 4 of R153, `old` being the flags before the transaction. -/
def ctrlChecks (old : PerFlag Bool) (s : State) : State :=
  let s1 := if s.ctrl.dacWrite && s.ctrl.dacRead then s.setFault true else s
  if allT3 s.ctrl && !allT3 old && anyT3 old then havocPositions s1 else s1

/-- A form-W transaction that is not refused: steps 2 to 4 of R153. -/
def writeCtrl (mask value : Wire) (s : State) : State :=
  ctrlChecks s.ctrl (s.setCtrl (ctrlAfter s.cfg mask value s.ctrl))

/-- A form-W transaction with any mask and value: refused by R154, or written. -/
def formW (mask value : Wire) (s : State) : Host.Outcome State Fault Refusal :=
  if mask &&& ~~~ fieldsMask s.cfg ≠ 0#32 then .refused (.maskOutsideFields mask)
  else if value &&& ~~~ mask ≠ 0#32 then .refused (.valueOutsideMask mask value)
  else .next (finish .done (writeCtrl mask value s))

/-- SET_BIT(f): form W with mask = value = mask(f) (R141). -/
def setBit (f : Flag) (s : State) : State := writeCtrl (maskOf s.cfg f) (maskOf s.cfg f) s

/-- CLEAR_BIT(f): form W with mask = mask(f), value = 0 (R142). -/
def clearBit (f : Flag) (s : State) : State := writeCtrl (maskOf s.cfg f) 0#32 s

/-- ATOMIC_WRITE: form W with the union masks (R144). -/
def atomicWrite (fs : List Flag) (bs : List Bool) (s : State) : State :=
  writeCtrl (maskOfList s.cfg fs) (valueOfList s.cfg fs bs) s

/-- One register transaction of an expansion. -/
def runTxn : Txn → State → State
  | .set f => setBit f
  | .clear f => clearBit f
  | .atomic fs bs => atomicWrite fs bs
  | .pulse t => pulse t

/-- The transactions of an operation in order, "each complete before the next" (41_controller_ops.md
R161), with a gap between each two (20_memory.md R82). -/
def issue : List Txn → State → State
  | [], s => s
  | t :: ts, s => ts.foldl (fun s t => runTxn t (runHw s)) (runTxn t s)

/-! ### STATUS -/

def isEmpty (s : State) (q : Fifo) : Bool := (s.fifo.get q).length == 0
def isFull (s : State) (q : Fifo) : Bool := (s.fifo.get q).length == s.cfg.fifoDepth.get q

/-- The bit at position p where b holds. -/
def bitIf (b : Bool) (p : Nat) : Wire := if b then bitMask p else 0#32

/-- The union of words. -/
def orAll (l : List Wire) : Wire := l.foldl (· ||| ·) 0#32

/-- The bits of STATUS the spec gives a meaning to (30_encoding.md R110). -/
def statusKnown (c : Cfg) : Wire := orAll (c.statusPositions.map bitMask)

/-- The eight flags and the count, at their positions (R110). -/
def statusFields (s : State) : Wire :=
  orAll (Fifo.all.map fun q => bitIf (isEmpty s q) (s.cfg.emptyPos.get q))
    ||| orAll (Fifo.all.map fun q => bitIf (isFull s q) (s.cfg.fullPos.get q))
    ||| (BitVec.ofNat 32 ((s.fifo.get s.cfg.countFifo).length % 2 ^ s.cfg.countWidth)
          <<< s.cfg.countLo)

/-- The word of WIRE_READ: the fields, and a draw in every other bit (40_transactions.md R146). -/
def statusWord (s : State) : Wire :=
  (statusFields s &&& statusKnown s.cfg) ||| (Config.freeWire s.draws &&& ~~~ statusKnown s.cfg)

/-- STATUS decode (30_encoding.md R111). -/
def decodeStatus (c : Cfg) (w : Wire) : FifoStatus :=
  let e := fun q => w.getLsbD (c.emptyPos.get q)
  let f := fun q => w.getLsbD (c.fullPos.get q)
  { empty := ⟨e .dacIn, e .dacOut, e .adcIn, e .adcOut⟩
    full := ⟨f .dacIn, f .dacOut, f .adcIn, f .adcOut⟩
    count := (w.toNat >>> c.countLo) % 2 ^ c.countWidth }

/-! ### The phase label -/

/-- The labels of 10_state.md R40. -/
inductive Phase where
  | idle | writing | draining | playing | streaming | other
deriving DecidableEq, Repr

/-- "All four FIFOs empty and all four ptr = 0 and adc_fill = 0" (R40). -/
def drained (s : State) : Bool :=
  Fifo.all.all (isEmpty s) && s.ptr == ⟨0, 0, 0, 0⟩ && s.adcFill == 0

/-- The label of a state (R40). -/
def phase (s : State) : Phase :=
  let c := s.ctrl
  if c.dacWrite && !c.dacRead then .writing
  else if !c.dacWrite && c.dacRead && c.adcWrite && c.adcTransfer then .streaming
  else if !c.dacWrite && c.dacRead && c.adcWrite && !c.adcTransfer then .playing
  else if !anyEnable c && drained s then .draining
  else if !anyEnable c then .idle
  else .other

end Sys2Proof.Machine
end

