-- ==== Sys2Proof/Machine/Transfer.lean ====
section
/-! DEFINITION. The two bulk transfers after their checks (40_transactions.md R149, R150, R152): the
outcome is a draw, restricted by what the hardware can accept; a short or failed transfer havocs the
path. -/

namespace Sys2Proof.Machine

/-- The draw asks for the complete outcome. -/
def wantsComplete (s : State) : Bool := Config.freeBool s.draws 0

/-- An outcome that is not complete: a count in 0..n-1, or one of TRANSPORT_ERROR_CODES (R149, R152).
For n > 0. -/
def shortOutcome (c : Cfg) (k n : Nat) : Int :=
  if Config.freeBool k 1 && !c.transportErrorCodes.isEmpty then
    c.transportErrorCodes.getD (Config.freeNat k 2 % c.transportErrorCodes.length) (-1)
  else (Config.freeNat k 1 % n : Nat)

/-- A complete bulk write is allowed (R149). -/
def writeAllowed (n : Nat) (s : State) : Bool :=
  s.ctrl.dacWrite || decide (s.fifo.dacIn.length + n / 16 ≤ s.cfg.fifoDepth.dacIn)

/-- Words to the DAC region in order, the other paths' steps running between them (R149). -/
def storeAll (ws : List Word) (s : State) : State :=
  ws.foldl (fun s w => storeDac w (runOthers s)) s

/-- Words into FIFO DacIn in order, the other paths' steps running between them (R149). -/
def pushAll (ws : List Word) (s : State) : State :=
  ws.foldl (fun s w => push .dacIn w (runOthers s)) s

/-- How many words of a complete bulk write still stand in FIFO DacIn when it returns: none under
assumption A_DRAIN (R150), otherwise a free number within the depth of the FIFO. Log entry 10. -/
def stranded (s : State) (words : Nat) : Nat :=
  if s.cfg.aDrain then 0
  else Config.freeNat s.draws 0 % (min s.cfg.fifoDepth.dacIn words + 1)

/-- A complete bulk write of the words `ws` (R149): with DacWrite asserted, the words of FIFO DacIn and
then `ws` go to the DAC region, but for those stranded; otherwise `ws` is appended to the FIFO. -/
def completeWrite (ws : List Word) (s : State) : State :=
  if s.ctrl.dacWrite then
    let all := s.fifo.dacIn ++ ws
    let n := all.length - stranded s all.length
    runOthers (setFifo .dacIn (all.drop n) (storeAll (all.take n) (setFifo .dacIn [] s)))
  else runOthers (pushAll ws s)

/-- How many of `n` words a transfer that ends early moved: "the transfer moved an unknown part of the
data" (60_exceptions.md R269). A free number up to `n`, tied to no outcome. DESIGN CHOICE, log
entry 18. -/
def movedWords (n : Nat) (s : State) : Nat := Config.freeNat s.draws 0 % (n + 1)

/-- The state after a short or failed bulk write of the words `ws` (R149): with DacWrite asserted an
unknown part of the words of FIFO DacIn and then of `ws` reached the DAC region, the other paths' steps
running between the word moves; then the havoc. With DacWrite clear the words moved stood in FIFO DacIn,
which no other step reads, so one gap stands for all. Log entry 18. -/
def failedWrite (ws : List Word) (s : State) : State :=
  let all := s.fifo.dacIn ++ ws
  let moved := if s.ctrl.dacWrite then storeAll (all.take (movedWords all.length s)) (takeDraw s)
    else takeDraw s
  havocDac (havocPtr .dacWr (havocFifo .dacIn (runOthers moved)))

/-- PIPE_WRITE of checked data: the return value and the state (R147, R149); no byte moves where there
is none (R148). -/
def pipeWrite (data : List Byte) (s : State) : Int × State :=
  if data.length = 0 then (0, s)
  else if wantsComplete s && writeAllowed data.length s then
    (data.length, completeWrite (wordsOf data) (takeDraw s))
  else (shortOutcome s.cfg s.draws data.length, failedWrite (wordsOf data) (takeDraw s))

/-- `m` takes from FIFO AdcOut, any enabled step running before each; none where a take finds the FIFO
empty (R152). -/
def takes : Nat → State → Option (List Word × State)
  | 0, s => some ([], s)
  | m + 1, s =>
    match (runHw s).fifo.adcOut with
    | [] => none
    | w :: ws =>
      match takes m (setFifo .adcOut ws (runHw s)) with
      | some (r, t) => some (w :: r, t)
      | none => none

/-- `m` takes of a bulk read that ends early, any enabled step running before each: "Each take is
pop(AdcOut)" (R152); where the FIFO is empty there is nothing to take yet. -/
def partialTakes : Nat → State → State
  | 0, s => s
  | m + 1, s => partialTakes m (setFifo .adcOut ((runHw s).fifo.adcOut.drop 1) (runHw s))

/-- The state after a short or failed bulk read of `m` words (R152): an unknown part of them was taken,
any enabled steps running before, between and after the takes; then the havoc. Log entry 18. -/
def failedRead (m : Nat) (s : State) : State :=
  havocFill (havocPtr .adcRd (havocFifo .adcOut
    (runHw (partialTakes (movedWords m s) (takeDraw s)))))

/-- PIPE_READ of a checked count: the return value, the bytes and the state (R152). -/
def pipeRead (n : Nat) (s : State) : Int × List Byte × State :=
  if n = 0 then (0, [], s)
  else
    match (if wantsComplete s then takes (n / 16) (takeDraw s) else none) with
    | some (ws, t) => (n, bytesOf ws, t)
    | none =>
      (shortOutcome s.cfg s.draws n, Config.freeBytes s.draws, failedRead (n / 16) (takeDraw s))

/-- A bulk write that stores words in the DDR (R149) needs its pointer inside the DAC region
(20_memory.md R70); `writing` says that DacWrite is asserted during the transfer. -/
def guardDacWr (data : List Byte) (writing : Bool) (s : State)
    (o : Host.Outcome State Fault Refusal) : Host.Outcome State Fault Refusal :=
  if data.isEmpty || !writing || ptrOk s .dacWr then o
  else .fault (.ddrAddress .dac s.ptr.dacWr)

end Sys2Proof.Machine
end

