-- ==== Sys2Proof/Machine/CodecOps.lean ====
section
/-! DEFINITION. The pure functions of the codec (43_striping.md, 44_deswizzle.md, 45_field_decode.md).
Striping and swizzling are one interleave of n channels by a slot map, destriping and deswizzling its
inverse. Codes are naturals: nothing overflows, nothing is signed (45_field_decode.md R247). -/

namespace Sys2Proof.Machine

/-! ### First stage -/

/-- The code of channel j at index k. -/
def codeAt (chans : List (List Nat)) (j k : Nat) : Nat := (chans.getD j []).getD k 0

/-- The common length of channels: that of the first. -/
def channelLength (chans : List (List Nat)) : Nat := (chans.getD 0 []).length

/-- `n` channels of one length, every code in 0..65535: the domain of `stripe`, `swizzle` and
`decode_fields` (43_striping.md R200, 44_deswizzle.md R214, 45_field_decode.md R230). -/
def channelsOk (n : Nat) (chans : List (List Nat)) : Bool :=
  chans.length == n && chans.all fun c => c.length == channelLength chans && c.all fun v => v ≤ 65535

/-- Record k of an interleave: slot i holds code k of the channel j with `p[j] = i`. -/
def interleaveRecord (n : Nat) (p : List Nat) (chans : List (List Nat)) (k : Nat) : List Byte :=
  (List.range n).flatMap fun i => codeBytes (codeAt chans (p.idxOf i) k)

/-- `n` channels interleaved, channel j to slot `p[j]` of every record (43_striping.md R200,
44_deswizzle.md R214). -/
def interleave (n : Nat) (p : List Nat) (chans : List (List Nat)) : List Byte :=
  (List.range (channelLength chans)).flatMap (interleaveRecord n p chans)

/-- Raw channel i, sample k, of a block of records of n slots: `u16(d[2nk + 2i], d[2nk + 2i + 1])`
(30_encoding.md R119, R120). -/
def rawCode (n : Nat) (d : List Byte) (i k : Nat) : Nat :=
  u16 (d.getD (2 * n * k + 2 * i) 0#8) (d.getD (2 * n * k + 2 * i + 1) 0#8)

/-- The channels of a block: channel j takes slot `p[j]` of every complete record; the rest of the block
is ignored (44_deswizzle.md R211 to R213, 43_striping.md R201). -/
def gather (n : Nat) (p : List Nat) (d : List Byte) : List (List Nat) :=
  (List.range n).map fun j =>
    (List.range (d.length / (2 * n))).map fun k => rawCode n d (p.getD j 0) k

/-- `stripe(buffers)` (R200). -/
def stripe (c : Cfg) (buffers : List (List Nat)) : List Byte := interleave 8 c.stripeSlot buffers

/-- `destripe(frame)` (R201). -/
def destripe (c : Cfg) (frame : List Byte) : List (List Nat) := gather 8 c.stripeSlot frame

/-- The code channel `ch` of the instrument receives from a played word (42_datapath.md R190). -/
def dacCode (c : Cfg) (ch : Nat) (w : Word) : Nat := slotCode w (c.stripeSlot.getD ch 0)

/-- Channels of a dialect, and its permutation (30_encoding.md R121). -/
def dialectChannels : Dialect → Nat
  | .legacy => 4
  | .full => 8

def dialectPerm (c : Cfg) : Dialect → List Nat
  | .legacy => c.permLegacy
  | .full => c.permFull

/-- `deswizzle_legacy(d)` and `deswizzle_full(d)` (R211, R212). -/
def deswizzle (c : Cfg) (dialect : Dialect) (d : List Byte) : List (List Nat) :=
  gather (dialectChannels dialect) (dialectPerm c dialect) d

/-- `swizzle(dialect, chan)` (R214). -/
def swizzle (c : Cfg) (dialect : Dialect) (chan : List (List Nat)) : List Byte :=
  interleave (dialectChannels dialect) (dialectPerm c dialect) chan

/-! ### Second stage (45_field_decode.md) -/

/-- `timestamps(chan, L, C)` (R232). -/
def timestamps (chan : List (List Nat)) (l : Layout) (c : Nat) : List Nat :=
  (List.range c).map fun i =>
    codeAt chan l.ts0.ch (5 * i + l.ts0.ph) + (codeAt chan l.ts1.ch (5 * i + l.ts1.ph) <<< 16)
      + (codeAt chan l.ts2.ch (5 * i + l.ts2.ph) <<< 32)

/-- One counter over M groups of ten (R234). -/
def counter (chan : List (List Nat)) (f : SeqField) (m : Nat) : List Nat :=
  (List.range m).map fun i => (codeAt chan f.ch (10 * i + f.ph) >>> f.sh) &&& 0x1F

/-- `counters(chan, L, M)` (R234). -/
def counters (chan : List (List Nat)) (l : Layout) (m : Nat) : List (List Nat) :=
  [counter chan l.seq0 m, counter chan l.seq1 m]

/-- The four constant-check fields of a layout (R236). -/
def layoutConsts (l : Layout) : List ConstField := [l.const0, l.const1, l.const2, l.const3]

/-- A constant check of group i differs from its expected value (R236). -/
def constMismatch (chan : List (List Nat)) (f : ConstField) (i : Nat) : Bool :=
  (codeAt chan f.ch (10 * i + f.ph) &&& f.mask) != f.expected

/-- `integrity(chan, L, M)`, the DataIntegrityError flag (R238). -/
def integrity (chan : List (List Nat)) (l : Layout) (m : Nat) : Bool :=
  (layoutConsts l).any fun f => (List.range m).any (constMismatch chan f)

/-- Differences of consecutive timestamps, in the integers (R239). -/
def deltas : List Nat → List Int
  | a :: b :: ts => ((b : Int) - (a : Int)) :: deltas (b :: ts)
  | _ => []

/-- `timing_skip(timestamp)`, the TimingSkipError flag (R240): two of the deltas differ. -/
def timingSkip (ts : List Nat) : Bool :=
  (deltas ts).any fun a => (deltas ts).any fun b => a != b

/-- A dictionary entry replaces the one of the same source and key: "the later wins" (R241). -/
def putSub (e : SubChannel) : List SubChannel → List SubChannel
  | [] => [e]
  | x :: xs => if x.source = e.source ∧ x.key = e.key then e :: xs else x :: putSub e xs

/-- One sub-channel: `[ chan[ch][g*t + ph] for t in 0 .. (K div g) - 1 ]` (R241). -/
def subCodes (chan : List (List Nat)) (k : Nat) (f : SubField) : List Nat :=
  (List.range (k / f.g)).map fun t => codeAt chan f.ch (f.g * t + f.ph)

/-- `subchannels(chan, L, K)` (R241). -/
def subchannels (chan : List (List Nat)) (l : Layout) (k : Nat) : List SubChannel :=
  l.sub.foldl (fun d f => putSub ⟨f.source, f.key, subCodes chan k f⟩ d) []

/-- `sub[source][key]` of a decode result. -/
def subOf (d : DecodedChannelSet) (source key : Name) : Option (List Nat) :=
  (d.sub.find? fun e => e.source == source && e.key == key).map SubChannel.codes

/-- `decode_fields(chan, L)` (R230), on eight channels of one length. -/
def decodeFields (chan : List (List Nat)) (l : Layout) : DecodedChannelSet :=
  let k := channelLength chan
  let ts := timestamps chan l (k / 5)
  { chan := chan
    timestamp := ts
    sub := subchannels chan l k
    seq := counters chan l (k / 10)
    dataIntegrityError := integrity chan l (k / 10)
    timingSkipError := timingSkip ts }

/-- `layout_of_version(v)` (R244). -/
def layoutOfVersion (c : Cfg) (v : Nat) : Layout := if v < c.vBoundary then c.layoutA else c.layoutB

/-- A decoder's selectors once constructed: the dialect, and a version for Full (44_deswizzle.md R210). -/
inductive Decoder where
  | legacy
  | full (v : Nat)
deriving DecidableEq, Repr

/-- Construction of a decoder (R210, 45_field_decode.md R244): none is ConfigurationError. -/
def construct : DialectTag → VersionArg → Option Decoder
  | .known .legacy, _ => some .legacy
  | .known .full, .version v => some (.full v)
  | .known .full, .notAVersion => none
  | .unknown _, _ => none

/-- `decode(d)` of a constructed decoder (44_deswizzle.md R216). -/
def decodeBlock (c : Cfg) : Decoder → List Byte → DecodedChannelSet
  | .legacy, d =>
    { chan := deswizzle c .legacy d
      timestamp := []
      sub := []
      seq := [[], []]
      dataIntegrityError := false
      timingSkipError := false }
  | .full v, d => decodeFields (deswizzle c .full d) (layoutOfVersion c v)

/-- The error kinds a decode result carries as flags (60_exceptions.md R260). -/
def decodeFlags (d : DecodedChannelSet) : List ErrorKind :=
  (if d.dataIntegrityError then [.dataIntegrityError] else [])
    ++ (if d.timingSkipError then [.timingSkipError] else [])

end Sys2Proof.Machine
end

