-- ==== Sys2Proof/Machine/Codec.lean ====
section
/-! DEFINITION. Class FN: the seven codec functions as instructions. Each only hands its caller a value.
Outside a function's domain the spec states no value: the value is a free one (log entry 8). -/

namespace Sys2Proof.Machine

/-- `stripe(buffers)` (43_striping.md R200), on eight buffers of one length (41_controller_ops.md R163). -/
def execStripe (buffers : List (List Nat)) (s : State) : Host.Outcome State Fault Refusal :=
  if channelsOk 8 buffers then .next (finish (.bytes (stripe s.cfg buffers)) s)
  else .next (finish (.bytes (Config.freeBytes s.draws)) (takeDraw s))

/-- `destripe(frame)` (R201): "a length that is not a multiple of 16 is outside its domain". -/
def execDestripe (frame : List Byte) (s : State) : Host.Outcome State Fault Refusal :=
  if frame.length % 16 = 0 then .next (finish (.channels (destripe s.cfg frame)) s)
  else .next (finish (.channels (Config.freeChannels s.draws)) (takeDraw s))

/-- `deswizzle_legacy(d)` (44_deswizzle.md R211), on any bytes. -/
def execDeswizzleLegacy (d : List Byte) (s : State) : Host.Outcome State Fault Refusal :=
  .next (finish (.channels (deswizzle s.cfg .legacy d)) s)

/-- `deswizzle_full(d)` (R212), on any bytes. -/
def execDeswizzleFull (d : List Byte) (s : State) : Host.Outcome State Fault Refusal :=
  .next (finish (.channels (deswizzle s.cfg .full d)) s)

/-- `swizzle(dialect, chan)` (R214): "channels of unequal length are outside its domain". -/
def execSwizzle (dialect : Dialect) (chan : List (List Nat)) (s : State) :
    Host.Outcome State Fault Refusal :=
  if channelsOk (dialectChannels dialect) chan then
    .next (finish (.bytes (swizzle s.cfg dialect chan)) s)
  else .next (finish (.bytes (Config.freeBytes s.draws)) (takeDraw s))

/-- `decode_fields(chan, L)` (45_field_decode.md R230), on eight channels of one length. -/
def execDecodeFields (chan : List (List Nat)) (layout : Layout) (s : State) :
    Host.Outcome State Fault Refusal :=
  if channelsOk 8 chan then .next (finish (.decoded (decodeFields chan layout)) s)
  else .next (finish (.decoded (Config.freeDecoded s.draws)) (takeDraw s))

/-- `decode(d)` (44_deswizzle.md R210, R216): ConfigurationError at construction, no error after it. -/
def execDecode (tag : DialectTag) (version : VersionArg) (d : List Byte) (s : State) :
    Host.Outcome State Fault Refusal :=
  match construct tag version with
  | some dec => .next (finish (.decoded (decodeBlock s.cfg dec d)) s)
  | none => .next (raiseError .configurationError s)

end Sys2Proof.Machine
end

