-- ==== Sys2Proof/Machine/Controller.lean ====
section
/-! DEFINITION. Class OP: the eleven operations of the Buffer Controller (41_controller_ops.md). Each is
its expansion (30_encoding.md R127), the hardware's steps running in the gaps. -/

namespace Sys2Proof.Machine

/-- `write_setup()` (R160). -/
def execWriteSetup (s : State) : Host.Outcome State Fault Refusal :=
  .next (finish .done (issue writeSetupTxns s))

/-- `write_buf` after its checks (R164, R165): the prelude, the transfer, DacWrite cleared on both paths,
then the option or TransportError. -/
def writeBufBody (frame : List Byte) (start : Bool) (s : State) : State :=
  let t := pipeWrite frame (runHw (issue writeBufPrelude s))
  let u := clearBit .dacWrite (runHw t.2)
  if t.1 = frame.length then
    finish .done (if start then issue writeBufStart (runHw u) else u)
  else raiseError (.transportError t.1) u

/-- `write_buf` (R164): every ConfigurationError before the first transaction (R162). -/
def writeBuf (frame : List Byte) (start : Bool) (s : State) : Host.Outcome State Fault Refusal :=
  if frame.length = frameBytes s.cfg ∧ transferOk frame.length s.cfg.writeBlockSize = true then
    guardDacWr frame true s (.next (writeBufBody frame start s))
  else .next (raiseError .configurationError s)

/-- `write_buf(frame, start)` (R164). -/
def execWriteBuf (frame : List Byte) (start : Bool) (s : State) :
    Host.Outcome State Fault Refusal :=
  writeBuf frame start s

/-- `write_channels(buffers, start)` (R163). -/
def execWriteChannels (buffers : List (List Nat)) (start : Bool) (s : State) :
    Host.Outcome State Fault Refusal :=
  if buffersOk s.cfg buffers then writeBuf (stripe s.cfg buffers) start s
  else .next (raiseError .configurationError s)

/-- `write_finish()` (R166). -/
def execWriteFinish (s : State) : Host.Outcome State Fault Refusal :=
  .next (finish .done (issue writeFinishTxns s))

/-- `repeat_setup()` (R167). -/
def execRepeatSetup (s : State) : Host.Outcome State Fault Refusal :=
  .next (finish .done (issue repeatSetupTxns s))

/-- `set_adc_debug()` (R168): nothing where the feature is absent. -/
def execSetAdcDebug (s : State) : Host.Outcome State Fault Refusal :=
  .next (finish .done (if s.cfg.hasAdcDebug then setBit .adcDebug s else s))

/-- `clear_adc_debug()` (R169). -/
def execClearAdcDebug (s : State) : Host.Outcome State Fault Refusal :=
  .next (finish .done (if s.cfg.hasAdcDebug then clearBit .adcDebug s else s))

/-- `fifo_status()` (R170). -/
def execFifoStatus (s : State) : Host.Outcome State Fault Refusal :=
  .next (finish (.status (decodeStatus s.cfg (statusWord s))) (takeDraw s))

/-- `reset_fifo(name)` (R171): ConfigurationError for an unknown name. -/
def execResetFifo (name : FifoArg) (s : State) : Host.Outcome State Fault Refusal :=
  match name with
  | .one q => .next (finish .done (issue [.pulse (rstOf q)] s))
  | .all => .next (finish .done (issue resetAllTxns s))
  | .unknown _ => .next (raiseError .configurationError s)

/-- `reset_pointers()` (R172). -/
def execResetPointers (s : State) : Host.Outcome State Fault Refusal :=
  .next (finish .done (issue resetPointersTxns s))

/-- `read_block(n, bs)` (R173): a short outcome is TransportError, never a partial block. -/
def execReadBlock (n bs : Nat) (s : State) : Host.Outcome State Fault Refusal :=
  if transferOk n bs then
    if (pipeRead n s).1 = n then
      .next (finish (.bytes (pipeRead n s).2.1) (pipeRead n s).2.2)
    else .next (raiseError (.transportError (pipeRead n s).1) (pipeRead n s).2.2)
  else .next (raiseError .configurationError s)

end Sys2Proof.Machine
end

