-- ==== Sys2Proof/Machine/DataPath.lean ====
section
/-! DEFINITION. Class HW: the six steps of the data mover and the device loop (42_datapath.md) as
instructions: the agents' own turns between two host calls (00_scope.md R11, R12). -/

namespace Sys2Proof.Machine

/-- A step's turn: the step where it is enabled, otherwise nothing; a fault where it would access a DDR
word that does not exist. -/
def hwTurn (h : HwStep) (s : State) : Host.Outcome State Fault Refusal :=
  match hwPtr h with
  | some p =>
    if hwEnabled s h && !ptrOk s p then .fault (.ddrAddress (ptrRegion p) (s.ptr.get p))
    else .next (hwStep h s)
  | none => .next (hwStep h s)

/-- DAC_FILL (R180). -/
def execDacFill (s : State) : Host.Outcome State Fault Refusal := hwTurn .dacFill s
/-- DAC_PLAY (R181). -/
def execDacPlay (s : State) : Host.Outcome State Fault Refusal := hwTurn .dacPlay s
/-- ADC_STORE (R182). -/
def execAdcStore (s : State) : Host.Outcome State Fault Refusal := hwTurn .adcStore s
/-- ADC_FETCH (R183). -/
def execAdcFetch (s : State) : Host.Outcome State Fault Refusal := hwTurn .adcFetch s
/-- DAC_SINK (R184). -/
def execDacSink (s : State) : Host.Outcome State Fault Refusal := hwTurn .dacSink s
/-- ADC_SOURCE (R185). -/
def execAdcSource (s : State) : Host.Outcome State Fault Refusal := hwTurn .adcSource s

end Sys2Proof.Machine
end

