-- ==== Sys2Proof/Machine/Transaction.lean ====
section
/-! DEFINITION. Class TXN: the eight primitives through which the host touches the block
(40_transactions.md). -/

namespace Sys2Proof.Machine

/-- SET_BIT(DacWrite) (R141). -/
def execSetBitDacWrite (s : State) : Host.Outcome State Fault Refusal :=
  .next (finish .done (setBit .dacWrite s))
/-- SET_BIT(DacRead) (R141). -/
def execSetBitDacRead (s : State) : Host.Outcome State Fault Refusal :=
  .next (finish .done (setBit .dacRead s))
/-- SET_BIT(AdcWrite) (R141). -/
def execSetBitAdcWrite (s : State) : Host.Outcome State Fault Refusal :=
  .next (finish .done (setBit .adcWrite s))
/-- SET_BIT(AdcTransfer) (R141). -/
def execSetBitAdcTransfer (s : State) : Host.Outcome State Fault Refusal :=
  .next (finish .done (setBit .adcTransfer s))
/-- SET_BIT(AdcDebug) (R141). -/
def execSetBitAdcDebug (s : State) : Host.Outcome State Fault Refusal :=
  .next (finish .done (setBit .adcDebug s))
/-- SET_BIT(AdcsConnected) (R141). -/
def execSetBitAdcsConnected (s : State) : Host.Outcome State Fault Refusal :=
  .next (finish .done (setBit .adcsConnected s))

/-- CLEAR_BIT(DacWrite) (R142). -/
def execClearBitDacWrite (s : State) : Host.Outcome State Fault Refusal :=
  .next (finish .done (clearBit .dacWrite s))
/-- CLEAR_BIT(DacRead) (R142). -/
def execClearBitDacRead (s : State) : Host.Outcome State Fault Refusal :=
  .next (finish .done (clearBit .dacRead s))
/-- CLEAR_BIT(AdcWrite) (R142). -/
def execClearBitAdcWrite (s : State) : Host.Outcome State Fault Refusal :=
  .next (finish .done (clearBit .adcWrite s))
/-- CLEAR_BIT(AdcTransfer) (R142). -/
def execClearBitAdcTransfer (s : State) : Host.Outcome State Fault Refusal :=
  .next (finish .done (clearBit .adcTransfer s))
/-- CLEAR_BIT(AdcDebug) (R142). -/
def execClearBitAdcDebug (s : State) : Host.Outcome State Fault Refusal :=
  .next (finish .done (clearBit .adcDebug s))
/-- CLEAR_BIT(AdcsConnected) (R142). -/
def execClearBitAdcsConnected (s : State) : Host.Outcome State Fault Refusal :=
  .next (finish .done (clearBit .adcsConnected s))

/-- MASKED_WRITE(mask, value) (R143), refused by R154 outside the six fields or the mask. -/
def execMaskedWrite (mask value : Wire) (s : State) : Host.Outcome State Fault Refusal :=
  formW mask value s

/-- ATOMIC_WRITE(fields, values) (R144): ConfigurationError for lists of different length or a repeated
field. -/
def execAtomicWrite (fields : List Flag) (values : List Bool) (s : State) :
    Host.Outcome State Fault Refusal :=
  if atomicArgsOk fields values then .next (finish .done (atomicWrite fields values s))
  else .next (raiseError .configurationError s)

/-- ATOMIC_WRITE([AdcWrite, DacRead, AdcTransfer], [1, 1, 1]) (R144). -/
def execAtomicWriteStream (s : State) : Host.Outcome State Fault Refusal :=
  .next (finish .done (atomicWrite t3 [true, true, true] s))

/-- TRIGGER(RstDacIn) (R145). -/
def execTriggerRstDacIn (s : State) : Host.Outcome State Fault Refusal :=
  .next (finish .done (pulse .rstDacIn s))
/-- TRIGGER(RstDacOut) (R145). -/
def execTriggerRstDacOut (s : State) : Host.Outcome State Fault Refusal :=
  .next (finish .done (pulse .rstDacOut s))
/-- TRIGGER(RstAdcIn) (R145). -/
def execTriggerRstAdcIn (s : State) : Host.Outcome State Fault Refusal :=
  .next (finish .done (pulse .rstAdcIn s))
/-- TRIGGER(RstAdcOut) (R145). -/
def execTriggerRstAdcOut (s : State) : Host.Outcome State Fault Refusal :=
  .next (finish .done (pulse .rstAdcOut s))
/-- TRIGGER(RstPtr) (R145). -/
def execTriggerRstPtr (s : State) : Host.Outcome State Fault Refusal :=
  .next (finish .done (pulse .rstPtr s))

/-- Form T with any mask (30_encoding.md R104): one pulse on every TRIG bit set in it, refused by R154
where a bit is outside the five. -/
def execTriggerMask (mask : Wire) (s : State) : Host.Outcome State Fault Refusal :=
  if mask &&& ~~~ trigsMask s.cfg ≠ 0#32 then .refused (.pulseOutsideTriggers mask)
  else .next (finish .done (pulseAll (trigsOf s.cfg mask) s))

/-- WIRE_READ() (R146): the word, and no change of the block's state. -/
def execWireRead (s : State) : Host.Outcome State Fault Refusal :=
  .next (finish (.word (statusWord s)) (takeDraw s))

/-- PIPE_WRITE(data, bs) (R147): the check of R148, then the effect of R149. -/
def execPipeWrite (data : List Byte) (bs : Nat) (s : State) : Host.Outcome State Fault Refusal :=
  if transferOk data.length bs then
    guardDacWr data s.ctrl.dacWrite s
      (.next (finish (.count (pipeWrite data s).1) (pipeWrite data s).2))
  else .next (raiseError .configurationError s)

/-- PIPE_READ(n, bs): the check of R151, then the effect of R152. -/
def execPipeRead (n bs : Nat) (s : State) : Host.Outcome State Fault Refusal :=
  if transferOk n bs then
    .next (finish (.read (pipeRead n s).1 (pipeRead n s).2.1) (pipeRead n s).2.2)
  else .next (raiseError .configurationError s)

end Sys2Proof.Machine
end

