-- ==== Sys2Proof/Machine/Dispatch.lean ====
section
/-! DEFINITION. Which meaning each instruction has: one arm per row of spec/opcode_table.json. -/

namespace Sys2Proof.Machine

def exec (i : Instr) (s : State) : Host.Outcome State Fault Refusal :=
  match i with
  | .setBitDacWrite => Sys2Proof.Machine.execSetBitDacWrite s
  | .setBitDacRead => Sys2Proof.Machine.execSetBitDacRead s
  | .setBitAdcWrite => Sys2Proof.Machine.execSetBitAdcWrite s
  | .setBitAdcTransfer => Sys2Proof.Machine.execSetBitAdcTransfer s
  | .setBitAdcDebug => Sys2Proof.Machine.execSetBitAdcDebug s
  | .setBitAdcsConnected => Sys2Proof.Machine.execSetBitAdcsConnected s
  | .clearBitDacWrite => Sys2Proof.Machine.execClearBitDacWrite s
  | .clearBitDacRead => Sys2Proof.Machine.execClearBitDacRead s
  | .clearBitAdcWrite => Sys2Proof.Machine.execClearBitAdcWrite s
  | .clearBitAdcTransfer => Sys2Proof.Machine.execClearBitAdcTransfer s
  | .clearBitAdcDebug => Sys2Proof.Machine.execClearBitAdcDebug s
  | .clearBitAdcsConnected => Sys2Proof.Machine.execClearBitAdcsConnected s
  | .maskedWrite mask value => Sys2Proof.Machine.execMaskedWrite mask value s
  | .atomicWrite fields values => Sys2Proof.Machine.execAtomicWrite fields values s
  | .atomicWriteStream => Sys2Proof.Machine.execAtomicWriteStream s
  | .triggerRstDacIn => Sys2Proof.Machine.execTriggerRstDacIn s
  | .triggerRstDacOut => Sys2Proof.Machine.execTriggerRstDacOut s
  | .triggerRstAdcIn => Sys2Proof.Machine.execTriggerRstAdcIn s
  | .triggerRstAdcOut => Sys2Proof.Machine.execTriggerRstAdcOut s
  | .triggerRstPtr => Sys2Proof.Machine.execTriggerRstPtr s
  | .triggerMask mask => Sys2Proof.Machine.execTriggerMask mask s
  | .wireRead => Sys2Proof.Machine.execWireRead s
  | .pipeWrite data bs => Sys2Proof.Machine.execPipeWrite data bs s
  | .pipeRead n bs => Sys2Proof.Machine.execPipeRead n bs s
  | .writeSetup => Sys2Proof.Machine.execWriteSetup s
  | .writeChannels buffers start => Sys2Proof.Machine.execWriteChannels buffers start s
  | .writeBuf frame start => Sys2Proof.Machine.execWriteBuf frame start s
  | .writeFinish => Sys2Proof.Machine.execWriteFinish s
  | .repeatSetup => Sys2Proof.Machine.execRepeatSetup s
  | .setAdcDebug => Sys2Proof.Machine.execSetAdcDebug s
  | .clearAdcDebug => Sys2Proof.Machine.execClearAdcDebug s
  | .fifoStatus => Sys2Proof.Machine.execFifoStatus s
  | .resetFifo name => Sys2Proof.Machine.execResetFifo name s
  | .resetPointers => Sys2Proof.Machine.execResetPointers s
  | .readBlock n bs => Sys2Proof.Machine.execReadBlock n bs s
  | .dacFill => Sys2Proof.Machine.execDacFill s
  | .dacPlay => Sys2Proof.Machine.execDacPlay s
  | .adcStore => Sys2Proof.Machine.execAdcStore s
  | .adcFetch => Sys2Proof.Machine.execAdcFetch s
  | .dacSink => Sys2Proof.Machine.execDacSink s
  | .adcSource => Sys2Proof.Machine.execAdcSource s
  | .stripe buffers => Sys2Proof.Machine.execStripe buffers s
  | .destripe frame => Sys2Proof.Machine.execDestripe frame s
  | .deswizzleLegacy d => Sys2Proof.Machine.execDeswizzleLegacy d s
  | .deswizzleFull d => Sys2Proof.Machine.execDeswizzleFull d s
  | .swizzle dialect chan => Sys2Proof.Machine.execSwizzle dialect chan s
  | .decodeFields chan layout => Sys2Proof.Machine.execDecodeFields chan layout s
  | .decode tag version d => Sys2Proof.Machine.execDecode tag version d s

end Sys2Proof.Machine
end

