-- ==== Sys2Proof/Machine/Fetch.lean ====
section
/-! DEFINITION. Taking the next call record. The block "has no program counter and fetches no
instructions" (10_state.md R21); the records of State.program stand for the calls its single host
issues, and the turns the other agents take, in the order they happen (00_scope.md R11, R12). -/

namespace Sys2Proof.Machine

/-- The next call, and the state with its record gone. -/
def fetch (s : State) : Except DecodeError (Instr × State) :=
  match decode s.cfg s.program with
  | .ok (i, rest) => .ok (i, s.setProgram rest)
  | .error e => .error e

/-- The program that consists of one table word's record. -/
def placeRecord (s : State) (nbits w : Nat) : State := s.setProgram (tableRecord nbits w)

end Sys2Proof.Machine
end

