-- ==== Sys2Proof/Machine/Step.lean ====
section
/-! DEFINITION. One step of the machine: the next call record runs; with no record left nobody acts and
nothing changes. -/

namespace Sys2Proof.Machine

/-- One step. -/
def step (s : State) : Host.Outcome State Fault Refusal :=
  if s.program = [] then .next s
  else
    match fetch s with
    | .ok (i, t) => exec i t
    | .error e => .refused (.badRecord e)

/-- The host places one call: the record whose bits are `w`. It stands for the load of a program from
outside (log entry 1). -/
def State.withFetchWord (s : State) (nbits w : Nat) : State := placeRecord s nbits w

end Sys2Proof.Machine
end

