-- ==== Sys2Proof/Safety.lean ====
section
/-! DEFINITION. What claims speak of: the states of the spec among the values of State, the protocol
invariant, and which calls are documented operations. -/

namespace Sys2Proof.Machine

/-- The state is one of 10_state.md's tuple under its configuration: FIFO contents within their depths
(R36), pointers inside their regions and `adc_fill` within the ADC region (R37), and DDR regions of the
sizes R38 and R39 give, in canonical form. -/
structure State.Typed (s : State) : Prop where
  fifo_le : ∀ q, (s.fifo.get q).length ≤ s.cfg.fifoDepth.get q
  ptr_lt : ∀ p, s.ptr.get p < regionWords s.cfg (ptrRegion p)
  fill_le : s.adcFill ≤ s.cfg.adcBufWords
  dac_wf : Memory.wf s.ddrDac
  dac_within : Memory.within s.cfg.sampleSize s.ddrDac
  adc_wf : Memory.wf s.ddrAdc
  adc_within : Memory.within s.cfg.adcBufWords s.ddrAdc

/-- Invariant I-EXCL as the model keeps it (10_state.md R24, 60_exceptions.md R272): where DacWrite and
DacRead are both asserted, the mark `fault` is set. -/
def State.Excl (s : State) : Prop :=
  s.ctrl.dacWrite = true → s.ctrl.dacRead = true → s.fault = true

/-- What a good state is: a state of the spec under a valid configuration, keeping I-EXCL. -/
structure State.Good (s : State) : Prop where
  valid : s.cfg.Valid
  typed : s.Typed
  excl : s.Excl

/-- The calls a run made of the documented operations consists of: class OP (30_encoding.md R126), the
codec, and the turns of the other agents. The primitives of class TXN are not among them. -/
def documented : Instr → Bool
  | .writeSetup | .writeChannels _ _ | .writeBuf _ _ | .writeFinish | .repeatSetup | .setAdcDebug
  | .clearAdcDebug | .fifoStatus | .resetFifo _ | .resetPointers | .readBlock _ _ => true
  | .dacFill | .dacPlay | .adcStore | .adcFetch | .dacSink | .adcSource => true
  | .stripe _ | .destripe _ | .deswizzleLegacy _ | .deswizzleFull _ | .swizzle _ _
  | .decodeFields _ _ | .decode _ _ _ => true
  | .setBitDacWrite | .setBitDacRead | .setBitAdcWrite | .setBitAdcTransfer | .setBitAdcDebug
  | .setBitAdcsConnected | .clearBitDacWrite | .clearBitDacRead | .clearBitAdcWrite
  | .clearBitAdcTransfer | .clearBitAdcDebug | .clearBitAdcsConnected | .maskedWrite _ _
  | .atomicWrite _ _ | .atomicWriteStream | .triggerRstDacIn | .triggerRstDacOut | .triggerRstAdcIn
  | .triggerRstAdcOut | .triggerRstPtr | .triggerMask _ | .wireRead | .pipeWrite _ _ | .pipeRead _ _ => false

/-- The turns of the data mover and the device loop. -/
def isHwTurn : Instr → Bool
  | .dacFill | .dacPlay | .adcStore | .adcFetch | .dacSink | .adcSource => true
  | _ => false

/-! ### What claims about a call's result say -/

/-- The turn of a step, as an instruction. -/
def hwInstr : HwStep → Instr
  | .dacFill => .dacFill
  | .dacPlay => .dacPlay
  | .adcStore => .adcStore
  | .adcFetch => .adcFetch
  | .dacSink => .dacSink
  | .adcSource => .adcSource

/-- Calls and turns one after the other, each issued after the one before has returned
(00_scope.md R12). -/
def runCalls : List Instr → State → Host.Outcome State Fault Refusal
  | [], s => .next s
  | i :: is, s =>
    match exec i s with
    | .next t => runCalls is t
    | .fault f => .fault f
    | .refused r => .refused r

/-- The codec functions (30_encoding.md R126, class FN). -/
def isCodec : Instr → Bool
  | .stripe _ | .destripe _ | .deswizzleLegacy _ | .deswizzleFull _ | .swizzle _ _
  | .decodeFields _ _ | .decode _ _ _ => true
  | _ => false

/-- The calls that name control flags: the form-W transactions and the operations that expand into
them (30_encoding.md R126, R127). -/
def namesFlags : Instr → Bool
  | .setBitDacWrite | .setBitDacRead | .setBitAdcWrite | .setBitAdcTransfer | .setBitAdcDebug
  | .setBitAdcsConnected | .clearBitDacWrite | .clearBitDacRead | .clearBitAdcWrite
  | .clearBitAdcTransfer | .clearBitAdcDebug | .clearBitAdcsConnected | .maskedWrite _ _
  | .atomicWrite _ _ | .atomicWriteStream => true
  | .writeSetup | .writeChannels _ _ | .writeBuf _ _ | .writeFinish | .repeatSetup | .setAdcDebug
  | .clearAdcDebug => true
  | _ => false

/-- The calls that pulse RstAdcIn (30_encoding.md R104, R127). -/
def pulsesAdcIn (c : Cfg) : Instr → Bool
  | .triggerMask mask => mask.getLsbD (c.tpos.get .rstAdcIn)
  | .triggerRstAdcIn | .resetFifo (.one .adcIn) | .resetFifo .all | .writeSetup | .repeatSetup => true
  | _ => false

/-- The enable that gates the path a FIFO reset acts on (70_reset_and_hazards.md R303). -/
def gate : Fifo → Flag
  | .dacIn => .dacWrite
  | .dacOut => .dacRead
  | .adcIn => .adcWrite
  | .adcOut => .adcTransfer

/-- A transaction enters the state with AdcWrite, DacRead and AdcTransfer all asserted from one with
some but not all of them (40_transactions.md R153 step 4). -/
def nonAtomicEntry (old new : PerFlag Bool) : Bool :=
  (new.adcWrite && new.dacRead && new.adcTransfer)
    && !(old.adcWrite && old.dacRead && old.adcTransfer)
    && (old.adcWrite || old.dacRead || old.adcTransfer)

/-- `t` is `s` but for the capture and playback positions, each of which is some value of its type
(70_reset_and_hazards.md R302). -/
def PositionsLost (s t : State) : Prop :=
  ∃ (rd wr ard fill : Nat) (dout ain aout : List Word) (m : List Host.Cell) (d : Nat),
    t = { s with
      ptr := { s.ptr with dacRd := rd, adcWr := wr, adcRd := ard }
      adcFill := fill
      fifo := { s.fifo with dacOut := dout, adcIn := ain, adcOut := aout }
      ddrAdc := m
      draws := d } ∧
    rd < s.cfg.sampleSize ∧ wr < s.cfg.adcBufWords ∧ ard < s.cfg.adcBufWords ∧
    fill ≤ s.cfg.adcBufWords ∧ dout.length ≤ s.cfg.fifoDepth.dacOut ∧
    ain.length ≤ s.cfg.fifoDepth.adcIn ∧ aout.length ≤ s.cfg.fifoDepth.adcOut ∧
    Memory.wf m ∧ Memory.within s.cfg.adcBufWords m

/-- `t` is what a form-W transaction that leaves the flags `new` makes of `s`: steps 2 to 4 of
40_transactions.md R153. -/
def FlagsWritten (s : State) (new : PerFlag Bool) (t : State) : Prop :=
  if nonAtomicEntry s.ctrl new then
    PositionsLost
      { s with ctrl := new, fault := s.fault || (new.dacWrite && new.dacRead), result := .done } t
  else
    t = { s with ctrl := new, fault := s.fault || (new.dacWrite && new.dacRead), result := .done }

/-- The configuration, the calls still to come, the flags and the mark are as before. -/
structure ControlKept (s t : State) : Prop where
  ctrl : t.ctrl = s.ctrl
  fault : t.fault = s.fault
  cfg : t.cfg = s.cfg
  program : t.program = s.program

/-- With DacWrite clear nothing of the write path changes (10_state.md R27). -/
def WriteStopped (s t : State) : Prop :=
  s.ctrl.dacWrite = false →
    t.fifo.dacIn = s.fifo.dacIn ∧ t.ptr.dacWr = s.ptr.dacWr ∧ t.ddrDac = s.ddrDac

/-- With DacRead clear the only thing that moves on the playback path is DAC_SINK: what was played,
followed by FIFO DacOut, stays the same (R28, 42_datapath.md R184). -/
def PlayStopped (s t : State) : Prop :=
  s.ctrl.dacRead = false →
    t.ptr.dacRd = s.ptr.dacRd ∧ t.dacOut ++ t.fifo.dacOut = s.dacOut ++ s.fifo.dacOut

/-- With AdcWrite clear nothing is captured (R29). -/
def CaptureStopped (s t : State) : Prop :=
  s.ctrl.adcWrite = false →
    t.fifo.adcIn = s.fifo.adcIn ∧ t.ptr.adcWr = s.ptr.adcWr ∧ t.ddrAdc = s.ddrAdc ∧
      t.adcOverrun = s.adcOverrun

/-- With AdcTransfer clear nothing leaves the ADC region (R30), and with AdcWrite clear too `adc_fill`
stands. -/
def TransferStopped (s t : State) : Prop :=
  s.ctrl.adcTransfer = false →
    t.fifo.adcOut = s.fifo.adcOut ∧ t.ptr.adcRd = s.ptr.adcRd ∧
      (s.ctrl.adcWrite = false → t.adcFill = s.adcFill)

/-- What a bulk transfer of `n` bytes may return (40_transactions.md R149, R152). -/
def OutcomeOf (c : Cfg) (n : Nat) (o : Int) : Prop :=
  o = n ∨ (0 ≤ o ∧ o < n) ∨ o ∈ c.transportErrorCodes

/-- The words `ws` written in order at consecutive word addresses modulo `size` from `p` on: the last
word written at an address stands there, and every byte of no such word is as before (20_memory.md
R75, 40_transactions.md R149). -/
def WordsStored (size p : Nat) (ws : List Word) (before after : List Host.Cell) : Prop :=
  (∀ (i : Nat) (h : i < ws.length),
    (∀ j, i < j → j < ws.length → (p + j) % size ≠ (p + i) % size) →
      Memory.readWord after ((p + i) % size) = some ws[i]) ∧
  ∀ a, (∀ i, i < ws.length → a / 16 ≠ (p + i) % size) →
    Memory.readByte after a = Memory.readByte before a

/-- The words captured and not yet read, oldest first: FIFO AdcOut, the `adc_fill` words of the ADC
region from ptr[AdcRd] on, FIFO AdcIn (20_memory.md R75). -/
def State.captured (s : State) : List (Option Word) :=
  s.fifo.adcOut.map some
    ++ (List.range s.adcFill).map
        (fun i => Memory.readWord s.ddrAdc ((s.ptr.adcRd + i) % s.cfg.adcBufWords))
    ++ s.fifo.adcIn.map some

/-- The capture pointers stand `adc_fill` words apart, and those words have been written: what the
steps keep from a drained state on. -/
structure State.Linked (s : State) : Prop where
  apart : s.ptr.adcWr = (s.ptr.adcRd + s.adcFill) % s.cfg.adcBufWords
  written : ∀ i, i < s.adcFill →
    (Memory.readWord s.ddrAdc ((s.ptr.adcRd + i) % s.cfg.adcBufWords)).isSome = true

end Sys2Proof.Machine
end

