-- ==== Sys2Proof/Certificates/Slice0/Obligations.lean ====
section
/-! DEFINITION. The statements for the provers, from the numbered rules of spec/. Each docstring names
the rule or the section it rests on; a clause that rests on a choice of the model names its log entry.
A free value stands under an existential: every statement holds for every value of it. -/

open Sys2Proof Sys2Proof.Machine

/-! ### Encoding -/

/-- The words opcode_table.json gives its rows under CFG_REF read as those rows (30_encoding.md R106,
R109), and a few records written out in bytes; the record form is log entry 1. -/
def Obligations.TableWords : Prop :=
  decodeTableWord 8 0x01 = some .setBitDacWrite ∧
  decodeTableWord 8 0x02 = some .setBitDacRead ∧
  decodeTableWord 8 0x20 = some .setBitAdcsConnected ∧
  decodeTableWord 8 0x0E = some .atomicWriteStream ∧
  decode Cfg.test [0x00#8, 0, 0, 0, 0x02#8, 0, 0, 0, 0, 0, 0, 0] = .ok (.clearBitDacRead, []) ∧
  decode Cfg.test [0x10#8, 0, 0, 0, 0, 0, 0, 0, 0x01#8, 0, 0, 0] = .ok (.triggerRstPtr, []) ∧
  decode Cfg.test [0x0F#8, 0, 0, 0, 0, 0, 0, 0, 0x01#8, 0, 0, 0] = .ok (.triggerMask 0x0F#32, []) ∧
  decode Cfg.test [0x20#8, 0, 0, 0, 0x10#8, 0, 0, 0, 0x04#8, 0, 0, 0] = .ok (.pipeRead 32 16, [])

/-- Decode of encode, for every instruction and every operand a record can hold (log entry 1). -/
def Obligations.DecodeEncode : Prop :=
  ∀ (c : Cfg) (i : Instr) (r : List Byte), c.Valid → i.wf = true →
    decode c (encode c i ++ r) = .ok (i, r)

/-- What the decoder accepts is a well-formed instruction, and it reads a record off the front of its
input (log entry 1). -/
def Obligations.DecodedIsWellFormed : Prop :=
  ∀ (c : Cfg) (l r : List Byte) (i : Instr), decode c l = .ok (i, r) →
    i.wf = true ∧ ∃ p, p ≠ [] ∧ l = p ++ r

/-- A form-W transaction means the same whichever row of the table its mask and value are
(40_transactions.md R141, R142, R144: each row is form W with its mask and value). -/
def Obligations.FormWRowsAgree : Prop :=
  ∀ (s : State) (mask value : Wire), s.cfg.Valid →
    exec (decodeW s.cfg mask value) s = exec (.maskedWrite mask value) s

/-! ### The step -/

/-- When the program starts with the record of a call, the step is that call, on the state with the
record gone; nothing else surrounds it. With no record left nothing changes, and bytes that are no
record are refused (log entry 1). -/
def Obligations.StepRunsTheDecodedCall : Prop :=
  (∀ (s : State) (i : Instr) (r : List Byte), decode s.cfg s.program = .ok (i, r) →
    step s = exec i { s with program := r }) ∧
  (∀ s : State, s.program = [] → step s = .next s) ∧
  ∀ (s : State) (e : DecodeError), s.program ≠ [] → decode s.cfg s.program = .error e →
    step s = .refused (.badRecord e)

/-! ### Reset -/

/-- The reset values (10_state.md R47) under every valid configuration: the flags at their defaults,
FIFOs empty, pointers and `adc_fill` zero, every word of the DAC region UNWRITTEN, history and marks
clear, STATUS all empty, none full, count zero. Of the ADC region, whose content the rule leaves open,
nothing is said. -/
def Obligations.ResetValues : Prop :=
  ∀ c : Cfg, c.Valid →
    let s := State.resetWith c
    s.cfg = c ∧ s.ctrl = c.defaults ∧ (∀ q, s.fifo.get q = []) ∧ (∀ p, s.ptr.get p = 0) ∧
    s.adcFill = 0 ∧ (∀ k, Memory.readWord s.ddrDac k = none) ∧
    s.dacOut = [] ∧ s.adcOverrun = false ∧ s.fault = false ∧
    ∃ d, exec .fifoStatus s = .next { s with
      result := .status ⟨⟨true, true, true, true⟩, ⟨false, false, false, false⟩, 0⟩, draws := d }

/-- The reset state is a state of the spec keeping I-EXCL, its data path is drained, and with no enable
asserted by default its label is Draining (10_state.md R40, R47; 70_reset_and_hazards.md R290). That
`State.reset` is the reset state under CFG_TEST is the model's choice (log entry 2). -/
def Obligations.ResetIsGood : Prop :=
  State.reset = State.resetWith Cfg.test ∧ State.reset.Good ∧
  ∀ c : Cfg, c.Valid →
    (State.resetWith c).Good ∧ (State.resetWith c).Linked ∧ drained (State.resetWith c) = true ∧
    (anyEnable c.defaults = false → phase (State.resetWith c) = .draining)

/-! ### Rules of the whole machine -/

/-- From every good state a step leads to a good state: FIFOs within their depths, pointers inside their
regions, `adc_fill` within the ADC region, both regions in canonical form, the mark set where DacWrite
and DacRead are both asserted, the configuration valid. -/
def Obligations.StepKeepsGood : Prop :=
  ∀ s t : State, s.Good → step s = .next t → t.Good

/-- No call changes the configuration, the calls still to come or the words already played; the mark
`fault` stays set (60_exceptions.md R272: "cleared only by reset"). -/
def Obligations.EveryCallKeeps : Prop :=
  ∀ (i : Instr) (s t : State), exec i s = .next t →
    t.cfg = s.cfg ∧ t.program = s.program ∧ (s.fault = true → t.fault = true) ∧
      ∃ ws, t.dacOut = s.dacOut ++ ws

/-- Flags change only in the host's calls that name flags: no turn of the hardware, no pulse, no read,
no transfer and no codec function writes one (10_state.md R26). -/
def Obligations.FlagsChangeOnlyWhereNamed : Prop :=
  ∀ (i : Instr) (s t : State), namesFlags i = false → exec i s = .next t →
    t.ctrl = s.ctrl ∧ t.fault = s.fault

/-- Runs made of the documented operations: where DacWrite is clear before a call it is clear after it,
and the mark `fault` is never set (41_controller_ops.md R175). -/
def Obligations.DocumentedCallsKeepDacWriteClear : Prop :=
  ∀ (is : List Instr) (s t : State), s.cfg.Valid → s.ctrl.dacWrite = false →
    (∀ i ∈ is, documented i = true) → runCalls is s = .next t →
      t.ctrl.dacWrite = false ∧ t.fault = s.fault

/-- Only the four form-W primitives change AdcsConnected (10_state.md R32). -/
def Obligations.AdcsConnectedWrittenByPrimitivesOnly : Prop :=
  ∀ (i : Instr) (s t : State), s.cfg.Valid → exec i s = .next t →
    (documented i = true ∨ namesFlags i = false) → t.ctrl.adcsConnected = s.ctrl.adcsConnected

/-- The mark `adc_overrun` is cleared by the reset of FIFO AdcIn alone (10_state.md R44). -/
def Obligations.OverrunClearedByAdcInResetOnly : Prop :=
  ∀ (i : Instr) (s t : State), exec i s = .next t → s.adcOverrun = true → t.adcOverrun = false →
    pulsesAdcIn s.cfg i = true

/-- Where the hardware has no AdcDebug feature the flag never changes, and SET_BIT and CLEAR_BIT of it
complete with no effect; MASKED_WRITE then writes the other fields of its mask (10_state.md R31; log
entry 12). -/
def Obligations.AdcDebugAbsent : Prop :=
  (∀ (i : Instr) (s t : State), s.cfg.hasAdcDebug = false → exec i s = .next t →
    t.ctrl.adcDebug = s.ctrl.adcDebug) ∧
  (∀ s : State, s.cfg.Valid → s.Excl → s.cfg.hasAdcDebug = false →
    exec .setBitAdcDebug s = .next { s with result := .done } ∧
    exec .clearBitAdcDebug s = .next { s with result := .done }) ∧
  ∀ (s : State) (mask value : Wire), s.cfg.Valid → s.cfg.hasAdcDebug = false →
    mask &&& ~~~ fieldsMask s.cfg = 0#32 → value &&& ~~~ mask = 0#32 →
    ∃ (new : PerFlag Bool) (t : State), exec (.maskedWrite mask value) s = .next t ∧
      FlagsWritten s new t ∧ new.adcDebug = s.ctrl.adcDebug ∧
      ∀ f, f ≠ .adcDebug → new.get f =
        if mask.getLsbD (s.cfg.pos.get f) then value.getLsbD (s.cfg.pos.get f) else s.ctrl.get f

/-- Every check that raises ConfigurationError comes before the first transaction, so it leaves the
whole state as it was (41_controller_ops.md R162). The turns of the hardware return nothing. -/
def Obligations.ConfigurationErrorChangesNothing : Prop :=
  ∀ (i : Instr) (s t : State), isHwTurn i = false → exec i s = .next t →
    t.result = .error .configurationError → t = { s with result := .error .configurationError }

/-! ### Form W -/

/-- SET_BIT of DacWrite, DacRead, AdcWrite, AdcTransfer, AdcDebug, AdcsConnected (40_transactions.md
R141): the flag is asserted, no other is written, and the checks of R153 follow; it is form W with
mask = value = mask(f). AdcDebug where the hardware has it. -/
def Obligations.SetBit : Prop :=
  ∀ (s : State) (f : Flag), s.cfg.Valid → (f = .adcDebug → s.cfg.hasAdcDebug = true) →
    ∃ t, exec (setBitInstr f) s = .next t ∧ FlagsWritten s (s.ctrl.set f true) t ∧
      exec (.maskedWrite (maskOf s.cfg f) (maskOf s.cfg f)) s = .next t

/-- CLEAR_BIT of the six flags (R142): the flag is cleared and nothing else changes: "steps 3 and 4 can
never fire on a clear"; it is form W with mask = mask(f) and value = 0. The invariant I-EXCL as the model keeps it is a premise: in a state with both
DacWrite and DacRead asserted and the mark not set, which no run reaches, step 3 would fire. -/
def Obligations.ClearBit : Prop :=
  ∀ (s : State) (f : Flag), s.cfg.Valid → s.Excl → (f = .adcDebug → s.cfg.hasAdcDebug = true) →
    exec (clearBitInstr f) s = .next { s with ctrl := s.ctrl.set f false, result := .done } ∧
    exec (.maskedWrite (maskOf s.cfg f) 0#32) s = exec (clearBitInstr f) s

/-- MASKED_WRITE(mask, value) (R143): the CTRL word becomes `(ctrl & ~mask) | value`, every field whose
position is in the mask is written, and the checks of R153 follow. -/
def Obligations.MaskedWrite : Prop :=
  ∀ (s : State) (mask value : Wire), s.cfg.Valid → s.cfg.hasAdcDebug = true →
    mask &&& ~~~ fieldsMask s.cfg = 0#32 → value &&& ~~~ mask = 0#32 →
    ∃ (new : PerFlag Bool) (t : State), exec (.maskedWrite mask value) s = .next t ∧
      FlagsWritten s new t ∧
      ctrlWord s.cfg new = (ctrlWord s.cfg s.ctrl &&& ~~~ mask) ||| value ∧
      ∀ f, new.get f =
        if mask.getLsbD (s.cfg.pos.get f) then value.getLsbD (s.cfg.pos.get f) else s.ctrl.get f

/-- The transactions R154 refuses: a mask outside the six fields, a value outside its mask, a pulse mask
outside the five bits, in whatever record it stands. -/
def Obligations.RefusedTransactions : Prop :=
  (∀ (s : State) (mask value : Wire), mask &&& ~~~ fieldsMask s.cfg ≠ 0#32 →
    exec (.maskedWrite mask value) s = .refused (.maskOutsideFields mask)) ∧
  (∀ (s : State) (mask value : Wire), mask &&& ~~~ fieldsMask s.cfg = 0#32 →
    value &&& ~~~ mask ≠ 0#32 →
    exec (.maskedWrite mask value) s = .refused (.valueOutsideMask mask value)) ∧
  ∀ (s : State) (mask : Wire) (r : List Byte) (p : Nat), mask.getLsbD p = true →
    (∀ t, s.cfg.tpos.get t ≠ p) →
    exec (.triggerMask mask) s = .refused (.pulseOutsideTriggers mask) ∧
    decode s.cfg (header mask.toNat 0 1 ++ r) = .ok (.triggerMask mask, r)

/-- ATOMIC_WRITE(fields, values) (R144): every listed field takes its bit at one instant, no other field
is written, the checks of R153 follow; it is form W with the union masks. Lists of different length or a
repeated field raise ConfigurationError. AdcDebug where the hardware has it. -/
def Obligations.AtomicWrite : Prop :=
  (∀ (s : State) (fields : List Flag) (values : List Bool), s.cfg.Valid →
    fields.length = values.length → fields.Nodup →
    (.adcDebug ∈ fields → s.cfg.hasAdcDebug = true) →
    ∃ (new : PerFlag Bool) (t : State), exec (.atomicWrite fields values) s = .next t ∧
      FlagsWritten s new t ∧ (∀ f b, (f, b) ∈ fields.zip values → new.get f = b) ∧
      (∀ f, f ∉ fields → new.get f = s.ctrl.get f) ∧
      exec (.maskedWrite (maskOfList s.cfg fields) (valueOfList s.cfg fields values)) s = .next t) ∧
  ∀ (s : State) (fields : List Flag) (values : List Bool),
    (fields.length ≠ values.length ∨ ¬ fields.Nodup) →
    exec (.atomicWrite fields values) s = .next { s with result := .error .configurationError }

/-- `write_finish()` and its one transaction, ATOMIC_WRITE([AdcWrite, DacRead, AdcTransfer], [1, 1, 1])
(41_controller_ops.md R166): the three flags asserted at one instant with the checks of R153; from a
state with no enable asserted nothing else changes and the label is Streaming; with DacWrite asserted the
mark is set; in Streaming nothing changes. -/
def Obligations.WriteFinish : Prop :=
  ∀ (s : State) (i : Instr), i ∈ [Instr.writeFinish, Instr.atomicWriteStream] → s.cfg.Valid →
    ∃ t, exec i s = .next t ∧
      FlagsWritten s { s.ctrl with dacRead := true, adcWrite := true, adcTransfer := true } t ∧
      (anyEnable s.ctrl = false →
        t = { s with
          ctrl := { s.ctrl with dacRead := true, adcWrite := true, adcTransfer := true }
          result := .done } ∧ phase t = .streaming) ∧
      (s.ctrl.dacWrite = true → t.fault = true) ∧
      (phase s = .streaming → t = { s with result := .done })

/-! ### Pulses -/

/-- Pulses whose path is stopped (42_datapath.md R186, R187): RstDacIn, RstDacOut, RstAdcIn, RstAdcOut
empty their FIFO (RstAdcIn clears `adc_overrun` too) where the enable of that path is clear; RstPtr zeroes
the four pointers and `adc_fill` where no enable is asserted. `reset_fifo(q)` and `reset_pointers()` are
the same pulses (41_controller_ops.md R171, R172). -/
def Obligations.PulsesOnStoppedPaths : Prop :=
  (∀ (s : State) (q : Fifo) (i : Instr), i ∈ [triggerInstr (rstOf q), .resetFifo (.one q)] →
    s.ctrl.get (gate q) = false →
    exec i s = .next { s with
      fifo := s.fifo.set q []
      adcOverrun := if q = .adcIn then false else s.adcOverrun
      result := .done }) ∧
  ∀ (s : State) (i : Instr), i ∈ [Instr.triggerRstPtr, Instr.resetPointers] →
    anyEnable s.ctrl = false →
    exec i s = .next { s with ptr := ⟨0, 0, 0, 0⟩, adcFill := 0, result := .done }

/-- Pulses on a moving path (70_reset_and_hazards.md R303): with the gating enable asserted, the
components the rule's table names take some value of their type and nothing else changes. -/
def Obligations.PulsesOnMovingPaths : Prop :=
  ∀ s : State, s.cfg.Valid →
  (s.ctrl.dacWrite = true → ∀ i ∈ [Instr.triggerRstDacIn, Instr.resetFifo (.one .dacIn)],
    ∃ (ws : List Word) (p : Nat) (m : List Host.Cell) (d : Nat),
      exec i s = .next { s with
        fifo := { s.fifo with dacIn := ws }, ptr := { s.ptr with dacWr := p }, ddrDac := m
        result := .done, draws := d } ∧
      ws.length ≤ s.cfg.fifoDepth.dacIn ∧ p < s.cfg.sampleSize ∧ Memory.wf m ∧
      Memory.within s.cfg.sampleSize m) ∧
  (s.ctrl.dacRead = true → ∀ i ∈ [Instr.triggerRstDacOut, Instr.resetFifo (.one .dacOut)],
    ∃ (ws : List Word) (p d : Nat),
      exec i s = .next { s with
        fifo := { s.fifo with dacOut := ws }, ptr := { s.ptr with dacRd := p }
        result := .done, draws := d } ∧
      ws.length ≤ s.cfg.fifoDepth.dacOut ∧ p < s.cfg.sampleSize) ∧
  (s.ctrl.adcWrite = true → ∀ i ∈ [Instr.triggerRstAdcIn, Instr.resetFifo (.one .adcIn)],
    ∃ (ws : List Word) (b : Bool) (d : Nat),
      exec i s = .next { s with
        fifo := { s.fifo with adcIn := ws }, adcOverrun := b, result := .done, draws := d } ∧
      ws.length ≤ s.cfg.fifoDepth.adcIn) ∧
  (s.ctrl.adcTransfer = true → ∀ i ∈ [Instr.triggerRstAdcOut, Instr.resetFifo (.one .adcOut)],
    ∃ (ws : List Word) (p n d : Nat),
      exec i s = .next { s with
        fifo := { s.fifo with adcOut := ws }, ptr := { s.ptr with adcRd := p }, adcFill := n
        result := .done, draws := d } ∧
      ws.length ≤ s.cfg.fifoDepth.adcOut ∧ p < s.cfg.adcBufWords ∧ n ≤ s.cfg.adcBufWords) ∧
  (anyEnable s.ctrl = true → ∀ i ∈ [Instr.triggerRstPtr, Instr.resetPointers],
    ∃ (ps : PerPtr Nat) (n : Nat) (m1 m2 : List Host.Cell) (d : Nat),
      exec i s = .next { s with
        ptr := ps, adcFill := n
        ddrDac := if s.ctrl.dacWrite then m1 else s.ddrDac
        ddrAdc := if s.ctrl.adcWrite then m2 else s.ddrAdc
        result := .done, draws := d } ∧
      (∀ p, ps.get p < regionWords s.cfg (ptrRegion p)) ∧ n ≤ s.cfg.adcBufWords ∧
      Memory.wf m1 ∧ Memory.within s.cfg.sampleSize m1 ∧
      Memory.wf m2 ∧ Memory.within s.cfg.adcBufWords m2)

/-- Form T with any mask (30_encoding.md R104): "one pulse on every TRIG bit set in mask". It is the
TRIGGER row where one bit is set. With every bit inside the five it completes at one instant and keeps
flags, history and types; a FIFO, a pointer, a region, `adc_fill` and `adc_overrun` stay as they are where
no bit of the mask reaches them (70_reset_and_hazards.md R303), and the FIFOs it names of stopped paths
are empty. Where every path it names is stopped each bit set has its plain reset (42_datapath.md R186,
R187), no bit set changing nothing. -/
def Obligations.TriggerMask : Prop :=
  (∀ (s : State) (mask : Wire), s.cfg.Valid →
    exec (decodeT s.cfg mask) s = exec (.triggerMask mask) s) ∧
  ∀ (s : State) (mask : Wire), s.cfg.Valid → mask &&& ~~~ trigsMask s.cfg = 0#32 →
    let hit : Trig → Bool := fun t => mask.getLsbD (s.cfg.tpos.get t)
    (∃ t, exec (.triggerMask mask) s = .next t ∧ t.result = .done ∧ ControlKept s t ∧
      t.dacOut = s.dacOut ∧ (s.Typed → t.Typed) ∧
      (∀ q, hit (rstOf q) = false → t.fifo.get q = s.fifo.get q) ∧
      (∀ q, hit (rstOf q) = true → s.ctrl.get (gate q) = false → t.fifo.get q = []) ∧
      (hit .rstAdcIn = false → t.adcOverrun = s.adcOverrun) ∧
      (hit .rstPtr = false → t.ptr.adcWr = s.ptr.adcWr ∧
        ((hit .rstDacIn && s.ctrl.dacWrite) = false → t.ptr.dacWr = s.ptr.dacWr) ∧
        ((hit .rstDacOut && s.ctrl.dacRead) = false → t.ptr.dacRd = s.ptr.dacRd) ∧
        ((hit .rstAdcOut && s.ctrl.adcTransfer) = false →
          t.ptr.adcRd = s.ptr.adcRd ∧ t.adcFill = s.adcFill)) ∧
      (((hit .rstPtr || hit .rstDacIn) && s.ctrl.dacWrite) = false → t.ddrDac = s.ddrDac) ∧
      ((hit .rstPtr && s.ctrl.adcWrite) = false → t.ddrAdc = s.ddrAdc)) ∧
    ((∀ q, hit (rstOf q) = true → s.ctrl.get (gate q) = false) →
      (hit .rstPtr = true → anyEnable s.ctrl = false) →
      exec (.triggerMask mask) s = .next { s with
        fifo := ⟨if hit .rstDacIn then [] else s.fifo.dacIn,
          if hit .rstDacOut then [] else s.fifo.dacOut,
          if hit .rstAdcIn then [] else s.fifo.adcIn,
          if hit .rstAdcOut then [] else s.fifo.adcOut⟩
        ptr := if hit .rstPtr then ⟨0, 0, 0, 0⟩ else s.ptr
        adcFill := if hit .rstPtr then 0 else s.adcFill
        adcOverrun := if hit .rstAdcIn then false else s.adcOverrun
        result := .done })

/-! ### STATUS -/

/-- WIRE_READ (40_transactions.md R146): the word has the empty and full bit of each FIFO and the count
of the counted FIFO at their positions, says nothing of its other bits, and the state of the block is
unchanged. -/
def Obligations.WireRead : Prop :=
  ∀ s : State, s.cfg.Valid → s.Typed →
    ∃ (w : Wire) (d : Nat), exec .wireRead s = .next { s with result := .word w, draws := d } ∧
      (∀ q, w.getLsbD (s.cfg.emptyPos.get q) = decide ((s.fifo.get q).length = 0)) ∧
      (∀ q, w.getLsbD (s.cfg.fullPos.get q)
        = decide ((s.fifo.get q).length = s.cfg.fifoDepth.get q)) ∧
      (w.toNat >>> s.cfg.countLo) % 2 ^ s.cfg.countWidth = (s.fifo.get s.cfg.countFifo).length

/-- `fifo_status()` (41_controller_ops.md R170): the decoded bits and the count of one instant; for no
FIFO are empty and full both reported; no state transition. -/
def Obligations.FifoStatusDecodes : Prop :=
  ∀ s : State, s.cfg.Valid → s.Typed →
    ∃ (st : FifoStatus) (d : Nat),
      exec .fifoStatus s = .next { s with result := .status st, draws := d } ∧
      (∀ q, st.empty.get q = decide ((s.fifo.get q).length = 0)) ∧
      (∀ q, st.full.get q = decide ((s.fifo.get q).length = s.cfg.fifoDepth.get q)) ∧
      (∀ q, ¬ (st.empty.get q = true ∧ st.full.get q = true)) ∧
      st.count = (s.fifo.get s.cfg.countFifo).length

/-! ### Bulk transfers -/

/-- The checks of the bulk transfers (40_transactions.md R148, R151): a length that is no multiple of 16
or a block size that is no power of two in [16, 16384] raises ConfigurationError and changes nothing; a
transfer of nothing that passes the check returns 0 and changes nothing. -/
def Obligations.TransferChecks : Prop :=
  (∀ (s : State) (data : List Byte) (bs : Nat),
    (data.length % 16 ≠ 0 ∨ ¬ ∃ k, k ≤ 10 ∧ bs = 16 * 2 ^ k) →
    exec (.pipeWrite data bs) s = .next { s with result := .error .configurationError }) ∧
  (∀ (s : State) (n bs : Nat), (n % 16 ≠ 0 ∨ ¬ ∃ k, k ≤ 10 ∧ bs = 16 * 2 ^ k) →
    exec (.pipeRead n bs) s = .next { s with result := .error .configurationError }) ∧
  ∀ (s : State) (k : Nat), k ≤ 10 →
    exec (.pipeWrite [] (16 * 2 ^ k)) s = .next { s with result := .count 0 } ∧
    exec (.pipeRead 0 (16 * 2 ^ k)) s = .next { s with result := .read 0 [] }

/-- PIPE_WRITE of checked data (40_transactions.md R147, R149) completes, never raises, and returns the
length, a lower count or an error code; the length only where the hardware can accept the words; flags,
mark, configuration and the stopped paths are as before. -/
def Obligations.PipeWriteCompletes : Prop :=
  ∀ (s : State) (data : List Byte) (k : Nat), s.cfg.Valid → s.Typed → data ≠ [] →
    data.length % 16 = 0 → k ≤ 10 →
    ∃ (t : State) (o : Int), exec (.pipeWrite data (16 * 2 ^ k)) s = .next t ∧
      t.result = .count o ∧ OutcomeOf s.cfg data.length o ∧
      (o = data.length → s.ctrl.dacWrite = true ∨
        s.fifo.dacIn.length + data.length / 16 ≤ s.cfg.fifoDepth.dacIn) ∧
      t.Typed ∧ ControlKept s t ∧ PlayStopped s t ∧ CaptureStopped s t ∧ TransferStopped s t

/-- What a complete PIPE_WRITE leaves (R149). With DacWrite clear the words are appended to FIFO DacIn
and the DDR does not change. With DacWrite asserted the words of FIFO DacIn and then those of the data go
to the DAC region in order from ptr[DacWr] on: all of them under assumption A_DRAIN (R150), which leaves
FIFO DacIn empty; without it some may stand in FIFO DacIn yet (log entry 10). -/
def Obligations.PipeWriteComplete : Prop :=
  ∀ (s : State) (data : List Byte) (k : Nat), s.cfg.Valid → s.Typed → data ≠ [] →
    data.length % 16 = 0 → k ≤ 10 →
    ∃ t, exec (.pipeWrite data (16 * 2 ^ k)) s = .next t ∧
      (t.result = .count data.length →
        (s.ctrl.dacWrite = false →
          t.fifo.dacIn = s.fifo.dacIn ++ wordsOf data ∧ t.ptr.dacWr = s.ptr.dacWr ∧
          t.ddrDac = s.ddrDac) ∧
        (s.ctrl.dacWrite = true →
          ∃ m, m ≤ (s.fifo.dacIn ++ wordsOf data).length ∧
            (s.cfg.aDrain = true → m = (s.fifo.dacIn ++ wordsOf data).length) ∧
            t.fifo.dacIn = (s.fifo.dacIn ++ wordsOf data).drop m ∧
            t.ptr.dacWr = (s.ptr.dacWr + m) % s.cfg.sampleSize ∧
            WordsStored s.cfg.sampleSize s.ptr.dacWr ((s.fifo.dacIn ++ wordsOf data).take m)
              s.ddrDac t.ddrDac))

/-- PIPE_READ of a checked count (R152) completes and returns the count with as many bytes, or a lower
count or an error code; flags, mark, configuration and the stopped paths are as before. With AdcTransfer
clear a complete read took the oldest words of FIFO AdcOut and left the others. -/
def Obligations.PipeReadCompletes : Prop :=
  ∀ (s : State) (n k : Nat), s.cfg.Valid → s.Typed → n ≠ 0 → n % 16 = 0 → k ≤ 10 →
    ∃ (t : State) (o : Int) (b : List Byte), exec (.pipeRead n (16 * 2 ^ k)) s = .next t ∧
      t.result = .read o b ∧ OutcomeOf s.cfg n o ∧ (o = n → b.length = n) ∧
      t.Typed ∧ ControlKept s t ∧ WriteStopped s t ∧ PlayStopped s t ∧ CaptureStopped s t ∧
      (s.ctrl.adcTransfer = false → o = n →
        ∃ ws, b = bytesOf ws ∧ s.fifo.adcOut = ws ++ t.fifo.adcOut ∧ t.ptr.adcRd = s.ptr.adcRd)

/-- `read_block(n, bs)` (41_controller_ops.md R173): the check of PIPE_READ; then what PIPE_READ does,
its block where the outcome is complete and TransportError with the outcome otherwise, never a partial
block. -/
def Obligations.ReadBlock : Prop :=
  (∀ (s : State) (n bs : Nat), (n % 16 ≠ 0 ∨ ¬ ∃ k, k ≤ 10 ∧ bs = 16 * 2 ^ k) →
    exec (.readBlock n bs) s = .next { s with result := .error .configurationError }) ∧
  ∀ (s : State) (n k : Nat), n % 16 = 0 → k ≤ 10 →
    ∃ (t : State) (o : Int) (b : List Byte), exec (.pipeRead n (16 * 2 ^ k)) s = .next t ∧
      t.result = .read o b ∧
      exec (.readBlock n (16 * 2 ^ k)) s
        = .next { t with result := if o = n then .bytes b else .error (.transportError o) }

/-! ### Controller operations -/

/-- `write_setup()` (41_controller_ops.md R160). The three flags are cleared and no other; with DacWrite
clear the end state is drained with label Draining, no step is enabled, and the DDR keeps its
content (the ADC region where AdcWrite was clear on entry: in the gap before AdcWrite is cleared ADC_STORE
may run, 20_memory.md R82). With DacWrite asserted the label is Writing. It cannot raise. -/
def Obligations.WriteSetup : Prop :=
  ∀ s : State, s.cfg.Valid →
    ∃ t, exec .writeSetup s = .next t ∧ t.result = .done ∧
      t.ctrl = { s.ctrl with dacRead := false, adcWrite := false, adcTransfer := false } ∧
      t.fault = s.fault ∧ t.cfg = s.cfg ∧ t.program = s.program ∧
      (s.ctrl.dacWrite = true → phase t = .writing) ∧
      (s.ctrl.dacWrite = false →
        t.fifo = ⟨[], [], [], []⟩ ∧ t.ptr = ⟨0, 0, 0, 0⟩ ∧ t.adcFill = 0 ∧ t.adcOverrun = false ∧
        phase t = .draining ∧ (∀ h, hwEnabled t h = false) ∧ t.ddrDac = s.ddrDac ∧
        (s.ctrl.adcWrite = false → t.ddrAdc = s.ddrAdc) ∧
        ∃ ws, t.dacOut = s.dacOut ++ ws ∧ (s.ctrl.dacRead = false → ws <+: s.fifo.dacOut))

/-- `repeat_setup()` (R167): the three flags end asserted and no other is written; with DacWrite clear
the label is Streaming, playback and capture start from position 0 with all FIFOs empty, the DAC region is
unchanged, the mark is as before. With DacWrite asserted the mark is set. It cannot raise. -/
def Obligations.RepeatSetup : Prop :=
  ∀ s : State, s.cfg.Valid →
    ∃ t, exec .repeatSetup s = .next t ∧ t.result = .done ∧
      t.ctrl = { s.ctrl with dacRead := true, adcWrite := true, adcTransfer := true } ∧
      t.cfg = s.cfg ∧ t.program = s.program ∧
      (s.ctrl.dacWrite = true → t.fault = true) ∧
      (s.ctrl.dacWrite = false →
        phase t = .streaming ∧ t.fault = s.fault ∧ t.fifo = ⟨[], [], [], []⟩ ∧
        t.ptr = ⟨0, 0, 0, 0⟩ ∧ t.adcFill = 0 ∧ t.adcOverrun = false ∧ t.ddrDac = s.ddrDac ∧
        (s.ctrl.adcWrite = false → t.ddrAdc = s.ddrAdc) ∧
        ∃ ws, t.dacOut = s.dacOut ++ ws ∧ (s.ctrl.dacRead = false → ws <+: s.fifo.dacOut))

/-- The checks of `write_buf` and `write_channels` (R163, R164): a frame of another length than
SAMPLE_SIZE × 8 × 2, or buffers that are not eight of SAMPLE_SIZE codes in 0..65535, raise
ConfigurationError and change nothing; otherwise `write_channels` is `write_buf` of the striped
buffers. -/
def Obligations.WriteChecks : Prop :=
  (∀ (s : State) (frame : List Byte) (start : Bool), frame.length ≠ s.cfg.sampleSize * 8 * 2 →
    exec (.writeBuf frame start) s = .next { s with result := .error .configurationError }) ∧
  (∀ (s : State) (buffers : List (List Nat)) (start : Bool),
    ¬ (buffers.length = 8 ∧ ∀ b ∈ buffers, b.length = s.cfg.sampleSize ∧ ∀ v ∈ b, v ≤ 65535) →
    exec (.writeChannels buffers start) s
      = .next { s with result := .error .configurationError }) ∧
  ∀ (s : State) (buffers : List (List Nat)) (start : Bool), buffers.length = 8 →
    (∀ b ∈ buffers, b.length = s.cfg.sampleSize ∧ ∀ v ∈ b, v ≤ 65535) →
    exec (.writeChannels buffers start) s = exec (.writeBuf (stripe s.cfg buffers) start) s ∧
    (stripe s.cfg buffers).length = s.cfg.sampleSize * 8 * 2

/-- Where `write_buf` of a frame of the right length ends (R164, R165), and so `write_channels`: DacWrite
clear on both paths, AdcWrite, AdcDebug and AdcsConnected not touched, the mark as before; complete, with
DacRead and AdcTransfer asserted where `start` says so; or TransportError with the outcome, DacRead clear
and AdcTransfer as on entry. Where capture was off the capture side is as before. -/
def Obligations.WriteBufEnds : Prop :=
  ∀ (s : State) (i : Instr) (frame : List Byte) (buffers : List (List Nat)) (start : Bool),
    s.cfg.Valid → s.Typed →
    (i = .writeBuf frame start ∧ frame.length = s.cfg.sampleSize * 8 * 2 ∨
      i = .writeChannels buffers start ∧ buffers.length = 8 ∧
        ∀ b ∈ buffers, b.length = s.cfg.sampleSize ∧ ∀ v ∈ b, v ≤ 65535) →
    ∃ t, exec i s = .next t ∧ t.Typed ∧ t.cfg = s.cfg ∧ t.program = s.program ∧ t.fault = s.fault ∧
      ((t.result = .done ∧
        t.ctrl = { s.ctrl with
          dacWrite := false, dacRead := start, adcTransfer := start || s.ctrl.adcTransfer }) ∨
      (∃ o : Int, t.result = .error (.transportError o) ∧ o ≠ s.cfg.sampleSize * 8 * 2 ∧
        OutcomeOf s.cfg (s.cfg.sampleSize * 8 * 2) o ∧
        t.ctrl = { s.ctrl with dacWrite := false, dacRead := false })) ∧
      CaptureStopped s t

/-- What a complete `write_buf` leaves in the DAC region (R164, 43_striping.md R202), under assumption
A_DRAIN (R150; log entry 10): word k of the frame stands at (p + k) mod SAMPLE_SIZE for every k,
ptr[DacWr] is p and FIFO DacIn is empty. Entered with DacWrite clear p is ptr[DacWr] on entry; entered
with DacWrite asserted the reset pulse has made it some position (70_reset_and_hazards.md R303). -/
def Obligations.WriteBufLoadsTheFrame : Prop :=
  ∀ (s : State) (frame : List Byte) (start : Bool), s.cfg.Valid → s.Typed → s.cfg.aDrain = true →
    frame.length = s.cfg.sampleSize * 8 * 2 →
    ∃ (t : State) (p : Nat), exec (.writeBuf frame start) s = .next t ∧ p < s.cfg.sampleSize ∧
      (s.ctrl.dacWrite = false → p = s.ptr.dacWr) ∧
      (t.result = .done →
        (∀ k, k < s.cfg.sampleSize → Memory.readWord t.ddrDac
          ((p + k) % s.cfg.sampleSize) = some (blockWord frame k)) ∧
        t.ptr.dacWr = p ∧ t.fifo.dacIn = [])

/-- `write_buf` entered in Draining without its option (R164): nothing but the DAC region has changed
when the transfer was complete, and the label is Draining; with its option the label is Other
(90_conflicts.md C1, C9). Under assumption A_DRAIN (R150). -/
def Obligations.WriteBufFromDraining : Prop :=
  ∀ (s : State) (frame : List Byte), s.cfg.Valid → s.Typed → s.cfg.aDrain = true →
    phase s = .draining → frame.length = s.cfg.sampleSize * 8 * 2 →
    (∃ t, exec (.writeBuf frame false) s = .next t ∧
      (t.result = .done → phase t = .draining ∧
        ∃ (m : List Host.Cell) (d : Nat), t = { s with ddrDac := m, result := .done, draws := d })) ∧
    ∃ t, exec (.writeBuf frame true) s = .next t ∧ (t.result = .done → phase t = .other)

/-- The source's sequence property (R174, S1): `write_setup()`, `write_buf(frame)`, `repeat_setup()`,
with any steps of the hardware between the calls, ends with DacWrite clear and DacRead, AdcWrite and
AdcTransfer set, for either value of `start` and whether or not the transfer completed; where it
completed, under assumption A_DRAIN (R150; log entry 10), the DAC region holds the frame and playback
starts at word 0. -/
def Obligations.SequenceProperty : Prop :=
  ∀ (s : State) (frame : List Byte) (start : Bool) (h1 h2 : List HwStep),
    s.cfg.Valid → s.Typed → s.ctrl.dacWrite = false →
    frame.length = s.cfg.sampleSize * 8 * 2 →
    ∃ a b t : State, exec .writeSetup s = .next a ∧
      exec (.writeBuf frame start) (runSteps h1 a) = .next b ∧
      exec .repeatSetup (runSteps h2 b) = .next t ∧
      t.ctrl = { s.ctrl with dacWrite := false, dacRead := true, adcWrite := true,
                             adcTransfer := true } ∧
      t.fault = s.fault ∧ t.ptr.dacRd = 0 ∧ t.fifo = ⟨[], [], [], []⟩ ∧
      (s.cfg.aDrain = true → b.result = .done → ∀ k, k < s.cfg.sampleSize →
        Memory.readWord t.ddrDac k = some (blockWord frame k))

/-- `set_adc_debug()` and `clear_adc_debug()` (R168, R169): SET_BIT and CLEAR_BIT of AdcDebug where the
hardware has it, nothing otherwise; the label does not change. I-EXCL is a premise as for CLEAR_BIT. -/
def Obligations.AdcDebugOperations : Prop :=
  ∀ s : State, s.cfg.Valid → s.Excl →
    (s.cfg.hasAdcDebug = true →
      exec .setAdcDebug s
        = .next { s with ctrl := { s.ctrl with adcDebug := true }, result := .done } ∧
      exec .clearAdcDebug s
        = .next { s with ctrl := { s.ctrl with adcDebug := false }, result := .done }) ∧
    (s.cfg.hasAdcDebug = false →
      exec .setAdcDebug s = .next { s with result := .done } ∧
      exec .clearAdcDebug s = .next { s with result := .done })

/-- `reset_fifo(all)` with no enable asserted (R171) empties the four FIFOs and clears `adc_overrun`;
in the gaps between its pulses DAC_SINK may play words of FIFO DacOut, oldest first, and nothing else
changes. An unknown name raises ConfigurationError and changes nothing. -/
def Obligations.ResetFifoAll : Prop :=
  (∀ s : State, anyEnable s.ctrl = false →
    ∃ (ws : List Word) (d : Nat), ws <+: s.fifo.dacOut ∧
      exec (.resetFifo .all) s = .next { s with
        fifo := ⟨[], [], [], []⟩, dacOut := s.dacOut ++ ws, adcOverrun := false
        result := .done, draws := d }) ∧
  ∀ (s : State) (code : Nat),
    exec (.resetFifo (.unknown code)) s = .next { s with result := .error .configurationError }

/-! ### The data path -/

/-- DAC_FILL (42_datapath.md R180): the oldest word of FIFO DacIn goes to the DAC region at ptr[DacWr],
which moves on and wraps; no other byte of the region changes. -/
def Obligations.DacFill : Prop :=
  ∀ (s : State) (w : Word) (ws : List Word), s.ctrl.dacWrite = true → s.fifo.dacIn = w :: ws →
    s.ptr.dacWr < s.cfg.sampleSize →
    ∃ m : List Host.Cell, exec .dacFill s = .next { s with
        fifo := { s.fifo with dacIn := ws }
        ptr := { s.ptr with dacWr := (s.ptr.dacWr + 1) % s.cfg.sampleSize }
        ddrDac := m } ∧
      Memory.readWord m s.ptr.dacWr = some w ∧
      ∀ a, a / 16 ≠ s.ptr.dacWr → Memory.readByte m a = Memory.readByte s.ddrDac a

/-- DAC_PLAY (R181): the word at ptr[DacRd] enters FIFO DacOut (a word nothing has written is some
word), the pointer moves on and wraps, the DAC region does not change. -/
def Obligations.DacPlay : Prop :=
  ∀ s : State, s.ctrl.dacRead = true → s.fifo.dacOut.length < s.cfg.fifoDepth.dacOut →
    s.ptr.dacRd < s.cfg.sampleSize →
    ∃ (w : Word) (d : Nat), exec .dacPlay s = .next { s with
        fifo := { s.fifo with dacOut := s.fifo.dacOut ++ [w] }
        ptr := { s.ptr with dacRd := (s.ptr.dacRd + 1) % s.cfg.sampleSize }
        draws := d } ∧
      ∀ v, Memory.readWord s.ddrDac s.ptr.dacRd = some v → w = v

/-- DAC_SINK (R184): whatever the enables, the oldest word of FIFO DacOut joins what was played. -/
def Obligations.DacSink : Prop :=
  ∀ (s : State) (w : Word) (ws : List Word), s.fifo.dacOut = w :: ws →
    exec .dacSink s = .next { s with
      fifo := { s.fifo with dacOut := ws }, dacOut := s.dacOut ++ [w] }

/-- ADC_SOURCE (R185): some word enters FIFO AdcIn; where the FIFO is full it is lost and `adc_overrun`
is set. -/
def Obligations.AdcSource : Prop :=
  ∀ s : State, s.ctrl.adcWrite = true →
    (s.fifo.adcIn.length < s.cfg.fifoDepth.adcIn →
      ∃ (w : Word) (d : Nat), exec .adcSource s = .next { s with
        fifo := { s.fifo with adcIn := s.fifo.adcIn ++ [w] }, draws := d }) ∧
    (¬ s.fifo.adcIn.length < s.cfg.fifoDepth.adcIn →
      ∃ d : Nat, exec .adcSource s = .next { s with adcOverrun := true, draws := d })

/-- ADC_STORE (R182): the oldest word of FIFO AdcIn goes to the ADC region at ptr[AdcWr], which moves on
and wraps, and `adc_fill` counts it; no other byte of the region changes. -/
def Obligations.AdcStore : Prop :=
  ∀ (s : State) (w : Word) (ws : List Word), s.ctrl.adcWrite = true → s.fifo.adcIn = w :: ws →
    s.adcFill < s.cfg.adcBufWords → s.ptr.adcWr < s.cfg.adcBufWords →
    ∃ m : List Host.Cell, exec .adcStore s = .next { s with
        fifo := { s.fifo with adcIn := ws }
        ptr := { s.ptr with adcWr := (s.ptr.adcWr + 1) % s.cfg.adcBufWords }
        adcFill := s.adcFill + 1
        ddrAdc := m } ∧
      Memory.readWord m s.ptr.adcWr = some w ∧
      ∀ a, a / 16 ≠ s.ptr.adcWr → Memory.readByte m a = Memory.readByte s.ddrAdc a

/-- ADC_FETCH (R183): the word at ptr[AdcRd] enters FIFO AdcOut (a word nothing has written is some word,
10_state.md R47), the pointer moves on and wraps, `adc_fill` loses one, the region does not change. -/
def Obligations.AdcFetch : Prop :=
  ∀ s : State, s.ctrl.adcTransfer = true → 0 < s.adcFill →
    s.fifo.adcOut.length < s.cfg.fifoDepth.adcOut → s.ptr.adcRd < s.cfg.adcBufWords →
    ∃ (w : Word) (d : Nat), exec .adcFetch s = .next { s with
        fifo := { s.fifo with adcOut := s.fifo.adcOut ++ [w] }
        ptr := { s.ptr with adcRd := (s.ptr.adcRd + 1) % s.cfg.adcBufWords }
        adcFill := s.adcFill - 1
        draws := d } ∧
      ∀ v, Memory.readWord s.ddrAdc s.ptr.adcRd = some v → w = v

/-- Quiescence (42_datapath.md R188): with no enable asserted only DAC_SINK can run, and only while FIFO
DacOut holds words; no FIFO gains a word whatever turns are taken, and a drained state stays as it is. -/
def Obligations.Quiescence : Prop :=
  (∀ (s : State) (h : HwStep), anyEnable s.ctrl = false → hwEnabled s h = true →
    h = .dacSink ∧ s.fifo.dacOut ≠ []) ∧
  ∀ (s : State) (hs : List HwStep), anyEnable s.ctrl = false →
    ∃ ws rest : List Word, s.fifo.dacOut = ws ++ rest ∧
      runCalls (hs.map hwInstr) s
        = .next { s with fifo := { s.fifo with dacOut := rest }, dacOut := s.dacOut ++ ws } ∧
      (drained s = true → runCalls (hs.map hwInstr) s = .next s)

/-- Turns that do not run, which is the model's choice: a step whose condition does not hold changes
nothing (log entry 6), and one through a pointer outside its region, which no state of the spec has
(10_state.md R37), stops (log entry 9). -/
def Obligations.TurnsThatDoNotRun : Prop :=
  (∀ (s : State) (h : HwStep), hwEnabled s h = false → exec (hwInstr h) s = .next s) ∧
  ∀ (s : State) (h : HwStep) (p : Ptr), hwPtr h = some p → hwEnabled s h = true →
    ¬ s.ptr.get p < regionWords s.cfg (ptrRegion p) →
    exec (hwInstr h) s = .fault (.ddrAddress (ptrRegion p) (s.ptr.get p))

/-- Playback order (R192): from a drained state whose DAC region holds the words F, with DacRead asserted
and DacWrite clear, whatever turns the hardware takes, what was played since, followed by FIFO DacOut, is
a prefix of F[0], ..., F[SAMPLE_SIZE-1], F[0], ... -/
def Obligations.PlaybackOrder : Prop :=
  ∀ (s : State) (F : Nat → Word) (hs : List HwStep), s.cfg.Valid → s.Typed → drained s = true →
    s.ctrl.dacRead = true → s.ctrl.dacWrite = false →
    (∀ k, k < s.cfg.sampleSize → Memory.readWord s.ddrDac k = some (F k)) →
    ∃ (t : State) (n : Nat), runCalls (hs.map hwInstr) s = .next t ∧
      t.dacOut ++ t.fifo.dacOut
        = s.dacOut ++ (List.range n).map (fun i => F (i % s.cfg.sampleSize)) ∧
      t.ddrDac = s.ddrDac

/-- Capture order (R193, 20_memory.md R75). Whatever turns the hardware takes, the captured words not yet
read keep their order and only gain newly captured ones at the end; a complete `read_block` hands its
caller the oldest of them and takes them away, none dropped, repeated or reordered. The premise Linked
holds of every drained state and is kept, so blocks read one after the other join up. -/
def Obligations.CaptureOrder : Prop :=
  (∀ s : State, drained s = true → s.Linked ∧ s.captured = []) ∧
  (∀ (s : State) (hs : List HwStep), s.cfg.Valid → s.Typed → s.Linked →
    ∃ (t : State) (new : List Word), runCalls (hs.map hwInstr) s = .next t ∧ t.Linked ∧
      t.captured = s.captured ++ new.map some ∧ (s.ctrl.adcWrite = false → new = [])) ∧
  ∀ (s : State) (n k : Nat), s.cfg.Valid → s.Typed → s.Linked → n % 16 = 0 → k ≤ 10 →
    ∃ t, exec (.readBlock n (16 * 2 ^ k)) s = .next t ∧
      ∀ b, t.result = .bytes b → t.Linked ∧ b.length = n ∧
        ∃ ws new : List Word, b = bytesOf ws ∧
          ws.map some ++ t.captured = s.captured ++ new.map some ∧
          (s.ctrl.adcWrite = false → new = [])

/-! ### The codec -/

/-- The codec functions touch host memory only: they return a value and change nothing of the block
(20_memory.md R71). -/
def Obligations.CodecIsPure : Prop :=
  ∀ (i : Instr) (s : State), isCodec i = true →
    ∃ (r : Result) (d : Nat), exec i s = .next { s with result := r, draws := d }

/-- Three views of the same bytes (20_memory.md R73, R76): the words of a block are its bytes in order,
slot s of word k is code s of record k of a Full block, and slot 4 (r mod 2) + i of word r div 2 is code i
of record r of a Legacy block. -/
def Obligations.ThreeViewsOfABlock : Prop :=
  ∀ d : List Byte, d.length % 16 = 0 →
    bytesOf (wordsOf d) = d ∧
    (∀ i k, i < 8 → k < d.length / 16 → rawCode 8 d i k = slotCode (blockWord d k) i) ∧
    ∀ i r, i < 4 → r < d.length / 8 →
      rawCode 4 d i r = slotCode (blockWord d (r / 2)) (4 * (r % 2) + i)

/-- `stripe(buffers)` (43_striping.md R200): SAMPLE_SIZE × 16 bytes, code k of buffer c low byte first in
slot STRIPE_SLOT[c] of word k; and from each word channel c of the instrument receives its code
(42_datapath.md R190). -/
def Obligations.Stripe : Prop :=
  ∀ (s : State) (buffers : List (List Nat)) (n : Nat), s.cfg.Valid → buffers.length = 8 →
    (∀ b ∈ buffers, b.length = n ∧ ∀ v ∈ b, v ≤ 65535) →
    ∃ frame : List Byte, exec (.stripe buffers) s = .next { s with result := .bytes frame } ∧
      frame.length = 16 * n ∧
      ∀ (c k slot : Nat), k < n → s.cfg.stripeSlot[c]? = some slot →
        frame[16 * k + 2 * slot]? = some (BitVec.ofNat 8 (codeAt buffers c k % 256)) ∧
        frame[16 * k + 2 * slot + 1]? = some (BitVec.ofNat 8 (codeAt buffers c k / 256)) ∧
        dacCode s.cfg c (blockWord frame k) = codeAt buffers c k

/-- `destripe(frame)` (R201) and its two laws: destriping what was striped gives the buffers back, and
striping what was destriped the frame. -/
def Obligations.Destripe : Prop :=
  (∀ (s : State) (frame : List Byte), frame.length % 16 = 0 →
    ∃ bufs : List (List Nat), exec (.destripe frame) s = .next { s with result := .channels bufs } ∧
      bufs.length = 8 ∧ (∀ b ∈ bufs, b.length = frame.length / 16) ∧
      ∀ (c k slot : Nat), k < frame.length / 16 → s.cfg.stripeSlot[c]? = some slot → c < 8 →
        codeAt bufs c k
          = u16 (frame.getD (16 * k + 2 * slot) 0) (frame.getD (16 * k + 2 * slot + 1) 0)) ∧
  (∀ (c : Cfg) (buffers : List (List Nat)), c.Valid → channelsOk 8 buffers = true →
    destripe c (stripe c buffers) = buffers) ∧
  ∀ (c : Cfg) (frame : List Byte), c.Valid → frame.length % 16 = 0 →
    stripe c (destripe c frame) = frame

/-- `deswizzle_legacy(d)` and `deswizzle_full(d)` (44_deswizzle.md R211 to R213) on any bytes: 4 or 8
channels of as many codes as the block has complete records; code k of channel j is made of the two bytes
of raw channel PERM[j] of record k, low byte first, and is a number in 0..65535 (R219). -/
def Obligations.Deswizzle : Prop :=
  ∀ (s : State) (d : List Byte), s.cfg.Valid →
    (∃ chan : List (List Nat),
      exec (.deswizzleLegacy d) s = .next { s with result := .channels chan } ∧ chan.length = 4 ∧
      (∀ c ∈ chan, c.length = d.length / 8 ∧ ∀ v ∈ c, v ≤ 65535) ∧
      ∀ (j k i : Nat), k < d.length / 8 → s.cfg.permLegacy[j]? = some i →
        codeAt chan j k = u16 (d.getD (8 * k + 2 * i) 0) (d.getD (8 * k + 2 * i + 1) 0)) ∧
    ∃ chan : List (List Nat),
      exec (.deswizzleFull d) s = .next { s with result := .channels chan } ∧ chan.length = 8 ∧
      (∀ c ∈ chan, c.length = d.length / 16 ∧ ∀ v ∈ c, v ≤ 65535) ∧
      ∀ (j k i : Nat), k < d.length / 16 → s.cfg.permFull[j]? = some i →
        codeAt chan j k = u16 (d.getD (16 * k + 2 * i) 0) (d.getD (16 * k + 2 * i + 1) 0)

/-- `swizzle(dialect, chan)` (R214): channel j of n channels of K codes goes to slot PERM[j] of every
record, low byte first. -/
def Obligations.Swizzle : Prop :=
  ∀ (s : State) (dialect : Dialect) (chan : List (List Nat)) (len : Nat), s.cfg.Valid →
    chan.length = dialectChannels dialect → (∀ c ∈ chan, c.length = len ∧ ∀ v ∈ c, v ≤ 65535) →
    ∃ d : List Byte, exec (.swizzle dialect chan) s = .next { s with result := .bytes d } ∧
      d.length = 2 * dialectChannels dialect * len ∧
      ∀ (j k i : Nat), k < len → (dialectPerm s.cfg dialect)[j]? = some i →
        d[2 * dialectChannels dialect * k + 2 * i]?
          = some (BitVec.ofNat 8 (codeAt chan j k % 256)) ∧
        d[2 * dialectChannels dialect * k + 2 * i + 1]?
          = some (BitVec.ofNat 8 (codeAt chan j k / 256))

/-- The round-trip laws of both dialects (R215), a block with trailing bytes coming back without them. -/
def Obligations.SwizzleRoundTrip : Prop :=
  ∀ (c : Cfg) (dialect : Dialect), c.Valid →
    (∀ d : List Byte, swizzle c dialect (deswizzle c dialect d)
      = d.take (2 * dialectChannels dialect * (d.length / (2 * dialectChannels dialect)))) ∧
    ∀ chan : List (List Nat), channelsOk (dialectChannels dialect) chan = true →
      deswizzle c dialect (swizzle c dialect chan) = chan

/-- `decode(d)` (44_deswizzle.md R210, R216; 45_field_decode.md R244). A tag outside the two dialects,
or for Full a value that is not a version, raises ConfigurationError; Legacy returns the channels with
the derived fields empty and both flags false; Full is `decode_fields` of `deswizzle_full(d)` with
LAYOUT_A below V_BOUNDARY and LAYOUT_B from it on. The version of a Legacy decoder is not looked at
(log entry 11). -/
def Obligations.Decode : Prop :=
  (∀ (s : State) (code : Nat) (v : VersionArg) (d : List Byte),
    exec (.decode (.unknown code) v d) s = .next { s with result := .error .configurationError }) ∧
  (∀ (s : State) (d : List Byte),
    exec (.decode (.known .full) .notAVersion d) s
      = .next { s with result := .error .configurationError }) ∧
  (∀ (s : State) (v : VersionArg) (d : List Byte),
    ∃ chan, exec (.deswizzleLegacy d) s = .next { s with result := .channels chan } ∧
      exec (.decode (.known .legacy) v d) s
        = .next { s with result := .decoded ⟨chan, [], [], [[], []], false, false⟩ }) ∧
  ∀ (s : State) (v : Nat) (d : List Byte),
    ∃ chan, exec (.deswizzleFull d) s = .next { s with result := .channels chan } ∧
      exec (.decode (.known .full) (.version v) d) s
        = exec (.decodeFields chan (if v < s.cfg.vBoundary then s.cfg.layoutA else s.cfg.layoutB)) s

/-- `decode_fields(chan, L)` (45_field_decode.md R230, R232, R234, R241) on eight channels of K codes:
K div 5 timestamps of 48 bits, two counters of K div 10 values in 0..31, and for each entry of the layout
that no later entry of the same source and key replaces, its stride slice. -/
def Obligations.DecodeFieldsValues : Prop :=
  ∀ (s : State) (chan : List (List Nat)) (l : Layout) (len : Nat), chan.length = 8 →
    (∀ c ∈ chan, c.length = len ∧ ∀ v ∈ c, v ≤ 65535) → l.wf = true →
    ∃ r : DecodedChannelSet, exec (.decodeFields chan l) s = .next { s with result := .decoded r } ∧
      r.chan = chan ∧ r.timestamp.length = len / 5 ∧
      (∀ c, c < len / 5 → r.timestamp.getD c 0 < 2 ^ 48 ∧ r.timestamp.getD c 0
        = codeAt chan l.ts0.ch (5 * c + l.ts0.ph)
          + 65536 * codeAt chan l.ts1.ch (5 * c + l.ts1.ph)
          + 4294967296 * codeAt chan l.ts2.ch (5 * c + l.ts2.ph)) ∧
      r.seq.length = 2 ∧ (∀ n ∈ r.seq, n.length = len / 10 ∧ ∀ v ∈ n, v < 32) ∧
      (∀ m, m < len / 10 →
        codeAt r.seq 0 m = codeAt chan l.seq0.ch (10 * m + l.seq0.ph) / 2 ^ l.seq0.sh % 32 ∧
        codeAt r.seq 1 m = codeAt chan l.seq1.ch (10 * m + l.seq1.ph) / 2 ^ l.seq1.sh % 32) ∧
      ∀ (pre post : List SubField) (f : SubField), l.sub = pre ++ f :: post →
        (∀ g ∈ post, ¬ (g.source = f.source ∧ g.key = f.key)) →
        subOf r f.source f.key
          = some ((List.range (len / f.g)).map fun t => codeAt chan f.ch (f.g * t + f.ph))

/-- The two flags of a decode result (R238, R240): DataIntegrityError is set exactly where some masked
constant field of some complete group of ten differs from its expected value, TimingSkipError exactly
where two consecutive-timestamp deltas, as integers, differ (R239). Neither aborts the decode. -/
def Obligations.DecodeFieldsFlags : Prop :=
  ∀ (s : State) (chan : List (List Nat)) (l : Layout) (len : Nat), chan.length = 8 →
    (∀ c ∈ chan, c.length = len ∧ ∀ v ∈ c, v ≤ 65535) →
    ∃ r : DecodedChannelSet, exec (.decodeFields chan l) s = .next { s with result := .decoded r } ∧
      (r.dataIntegrityError = true ↔
        ∃ f ∈ [l.const0, l.const1, l.const2, l.const3], ∃ m, m < len / 10 ∧
          codeAt chan f.ch (10 * m + f.ph) &&& f.mask ≠ f.expected) ∧
      (r.timingSkipError = true ↔
        ∃ a b, a + 1 < r.timestamp.length ∧ b + 1 < r.timestamp.length ∧
          (r.timestamp.getD (a + 1) 0 : Int) - r.timestamp.getD a 0
            ≠ (r.timestamp.getD (b + 1) 0 : Int) - r.timestamp.getD b 0)
end

