-- ==== Sys2Proof/Laws/Memory.lean ====
section
/-! SUPPORT. The DDR regions: a read after a write, the canonical form, and the region's bounds. -/

namespace Sys2Proof

@[simp] theorem Word.bytes_length (w : Word) : w.bytes.length = 16 := w.len

theorem Word.ext_bytes {a b : Word} (h : a.bytes = b.bytes) : a = b := by
  cases a; cases b; simp only at h; subst h; rfl

@[simp] theorem Word.bytes_ofFn (f : Nat → Byte) : (Word.ofFn f).bytes = (List.range 16).map f := rfl

/-- A word is the word of its own bytes. -/
theorem Word.ofFn_getD (w : Word) : (Word.ofFn fun j => w.bytes.getD j 0#8) = w := by
  apply Word.ext_bytes
  apply List.ext_getElem
  · simp
  · intro i h1 h2
    simp [List.getElem?_eq_getElem h2]

namespace Machine

@[simp] theorem Memory.readByte_writeByte_same (m : List Host.Cell) (a : Nat) (b : Byte) :
    Memory.readByte (Memory.writeByte m a b) a = some b := by
  induction m with
  | nil => simp [Memory.writeByte, Memory.readByte]
  | cons x m ih =>
    obtain ⟨k, c⟩ := x
    simp only [Memory.writeByte]
    split
    · simp [Memory.readByte]
    · split
      · simp [Memory.readByte]
      · rename_i h1 h2
        simp [Memory.readByte, ih, Ne.symm h2]

theorem Memory.readByte_writeByte_ne (m : List Host.Cell) {a a' : Nat} (b : Byte) (h : a' ≠ a) :
    Memory.readByte (Memory.writeByte m a b) a' = Memory.readByte m a' := by
  induction m with
  | nil => simp [Memory.writeByte, Memory.readByte, Ne.symm h]
  | cons x m ih =>
    obtain ⟨k, c⟩ := x
    simp only [Memory.writeByte]
    split
    · simp [Memory.readByte, Ne.symm h]
    · split
      · rename_i h1 h2
        subst h2
        simp [Memory.readByte, Ne.symm h]
      · simp [Memory.readByte, ih]

/-- What one byte reads after a run of bytes is written. -/
theorem Memory.readByte_writeBytes (m : List Host.Cell) (a : Nat) (bs : List Byte) (x : Nat) :
    Memory.readByte (Memory.writeBytes m a bs) x =
      if a ≤ x ∧ x < a + bs.length then bs[x - a]? else Memory.readByte m x := by
  induction bs generalizing m a with
  | nil => simp [Memory.writeBytes]
  | cons b bs ih =>
    rw [Memory.writeBytes, ih]
    by_cases h1 : x = a
    · subst h1; simp
    · by_cases h2 : a + 1 ≤ x ∧ x < a + 1 + bs.length
      · have h3 : a ≤ x ∧ x < a + (b :: bs).length := by simp; omega
        have h4 : x - a = (x - (a + 1)) + 1 := by omega
        rw [if_pos h2, if_pos h3, h4]
        simp
      · have h3 : ¬(a ≤ x ∧ x < a + (b :: bs).length) := by simp at *; omega
        rw [if_neg h2, if_neg h3, Memory.readByte_writeByte_ne _ _ h1]

/-- What one byte reads after a word is written: the word's byte, or what it read before. -/
theorem Memory.readByte_writeWord (m : List Host.Cell) (k : Nat) (w : Word) (x : Nat) :
    Memory.readByte (Memory.writeWord m k w) x =
      if 16 * k ≤ x ∧ x < 16 * k + 16 then w.bytes[x - 16 * k]? else Memory.readByte m x := by
  rw [Memory.writeWord, Memory.readByte_writeBytes]; simp

/-- Reading a word depends on its sixteen bytes alone. -/
theorem Memory.readWord_congr {m m' : List Host.Cell} {k : Nat}
    (h : ∀ j < 16, Memory.readByte m (16 * k + j) = Memory.readByte m' (16 * k + j)) :
    Memory.readWord m k = Memory.readWord m' k := by
  have hw : Memory.written m k = Memory.written m' k := by
    rw [Bool.eq_iff_iff]
    simp only [Memory.written, List.all_eq_true, List.mem_range]
    exact ⟨fun hh j hj => by rw [← h j hj]; exact hh j hj,
      fun hh j hj => by rw [h j hj]; exact hh j hj⟩
  have hf : (Word.ofFn fun j => (Memory.readByte m (16 * k + j)).getD 0#8)
      = Word.ofFn fun j => (Memory.readByte m' (16 * k + j)).getD 0#8 := by
    apply Word.ext_bytes
    simp only [Word.bytes_ofFn]
    apply List.map_congr_left
    intro j hj
    rw [h j (List.mem_range.1 hj)]
  simp only [Memory.readWord, hw, hf]

@[simp] theorem Memory.readWord_writeWord_same (m : List Host.Cell) (k : Nat) (w : Word) :
    Memory.readWord (Memory.writeWord m k w) k = some w := by
  have hb : ∀ j < 16, Memory.readByte (Memory.writeWord m k w) (16 * k + j)
      = some (w.bytes.getD j 0#8) := by
    intro j hj
    rw [Memory.readByte_writeWord, if_pos (by omega)]
    have : 16 * k + j - 16 * k = j := by omega
    rw [this, List.getD_eq_getElem?_getD]
    have hl : j < w.bytes.length := by simpa using hj
    simp [List.getElem?_eq_getElem hl]
  have hw : Memory.written (Memory.writeWord m k w) k = true := by
    simp only [Memory.written, List.all_eq_true, List.mem_range]
    intro j hj
    rw [hb j hj]; rfl
  rw [Memory.readWord, if_pos hw]
  congr 1
  rw [← Word.ofFn_getD w]
  apply Word.ext_bytes
  simp only [Word.bytes_ofFn]
  apply List.map_congr_left
  intro j hj
  have := hb j (List.mem_range.1 hj)
  simp only [Word.ofFn_getD] at this ⊢
  rw [this]; rfl

theorem Memory.readWord_writeWord_ne (m : List Host.Cell) {k k' : Nat} (w : Word) (h : k' ≠ k) :
    Memory.readWord (Memory.writeWord m k w) k' = Memory.readWord m k' := by
  apply Memory.readWord_congr
  intro j hj
  rw [Memory.readByte_writeWord, if_neg (by omega)]

/-! ### The canonical form -/

theorem Memory.mem_writeByte {m : List Host.Cell} {a : Nat} {b : Byte} {x : Host.Cell}
    (h : x ∈ Memory.writeByte m a b) : x = (a, b) ∨ x ∈ m := by
  induction m with
  | nil => simpa [Memory.writeByte] using h
  | cons y m ih =>
    obtain ⟨k, c⟩ := y
    simp only [Memory.writeByte] at h
    split at h
    · simpa using h
    · split at h
      · rcases List.mem_cons.1 h with h | h
        · exact .inl h
        · exact .inr (List.mem_cons_of_mem _ h)
      · rcases List.mem_cons.1 h with h | h
        · exact .inr (by rw [h]; exact List.mem_cons_self)
        · rcases ih h with h | h
          · exact .inl h
          · exact .inr (List.mem_cons_of_mem _ h)

theorem Memory.wf_writeByte {m : List Host.Cell} (a : Nat) (b : Byte) (h : Memory.wf m) :
    Memory.wf (Memory.writeByte m a b) := by
  induction m with
  | nil => simp [Memory.writeByte, Memory.wf]
  | cons y m ih =>
    obtain ⟨k, c⟩ := y
    simp only [Memory.wf, List.map_cons, List.pairwise_cons] at h
    obtain ⟨h1, h2⟩ := h
    simp only [Memory.writeByte]
    split
    · rename_i hak
      simp only [Memory.wf, List.map_cons, List.pairwise_cons, List.mem_cons]
      refine ⟨?_, h1, h2⟩
      rintro x (rfl | hx)
      · exact hak
      · exact lt_trans hak (h1 x hx)
    · split
      · rename_i h3 h4
        subst h4
        simp only [Memory.wf, List.map_cons, List.pairwise_cons]
        exact ⟨h1, h2⟩
      · rename_i h3 h4
        simp only [Memory.wf, List.map_cons, List.pairwise_cons]
        refine ⟨?_, ih h2⟩
        intro x hx
        obtain ⟨z, hz, rfl⟩ := List.mem_map.1 hx
        rcases Memory.mem_writeByte hz with rfl | hz
        · show k < a
          omega
        · exact h1 _ (List.mem_map_of_mem hz)

theorem Memory.wf_writeBytes {m : List Host.Cell} (a : Nat) (bs : List Byte) (h : Memory.wf m) :
    Memory.wf (Memory.writeBytes m a bs) := by
  induction bs generalizing m a with
  | nil => exact h
  | cons b bs ih => exact ih _ (Memory.wf_writeByte a b h)

/-- Every word access keeps the canonical form. -/
theorem Memory.wf_writeWord {m : List Host.Cell} (k : Nat) (w : Word) (h : Memory.wf m) :
    Memory.wf (Memory.writeWord m k w) := Memory.wf_writeBytes _ _ h

theorem Memory.within_writeBytes {m : List Host.Cell} {words : Nat} (a : Nat) (bs : List Byte)
    (h : Memory.within words m) (ha : a + bs.length ≤ 16 * words) :
    Memory.within words (Memory.writeBytes m a bs) := by
  induction bs generalizing m a with
  | nil => exact h
  | cons b bs ih =>
    simp only [List.length_cons] at ha
    apply ih
    · intro x hx
      rcases Memory.mem_writeByte hx with rfl | hx
      · show a < 16 * words
        omega
      · exact h x hx
    · omega

/-- A word written inside a region stays inside it. -/
theorem Memory.within_writeWord {m : List Host.Cell} {words k : Nat} (w : Word)
    (h : Memory.within words m) (hk : k < words) :
    Memory.within words (Memory.writeWord m k w) :=
  Memory.within_writeBytes _ _ h (by simp; omega)

theorem Memory.mem_region {keep : Nat → Bool} {f : Nat → Byte} {words : Nat} {x : Host.Cell}
    (h : x ∈ Memory.region keep f words) : ∃ k < words, ∃ j < 16, x.1 = 16 * k + j := by
  simp only [Memory.region, List.mem_flatMap, List.mem_range] at h
  obtain ⟨k, hk, hx⟩ := h
  split at hx
  · simp only [Memory.wordCells, List.mem_map, List.mem_range] at hx
    obtain ⟨j, hj, rfl⟩ := hx
    exact ⟨k, hk, j, hj, rfl⟩
  · simp at hx

theorem Memory.within_region (keep : Nat → Bool) (f : Nat → Byte) (words : Nat) :
    Memory.within words (Memory.region keep f words) := by
  intro x hx
  obtain ⟨k, hk, j, hj, he⟩ := Memory.mem_region hx
  omega

theorem Memory.region_succ (keep : Nat → Bool) (f : Nat → Byte) (n : Nat) :
    Memory.region keep f (n + 1)
      = Memory.region keep f n ++ if keep n then Memory.wordCells f n else [] := by
  simp [Memory.region, List.range_succ]

/-- A havocked region is in canonical form. -/
theorem Memory.wf_region (keep : Nat → Bool) (f : Nat → Byte) (words : Nat) :
    Memory.wf (Memory.region keep f words) := by
  induction words with
  | zero => simp [Memory.region, Memory.wf]
  | succ n ih =>
    rw [Memory.region_succ]
    split
    · simp only [Memory.wf, List.map_append, List.pairwise_append]
      refine ⟨ih, ?_, ?_⟩
      · simp only [Memory.wordCells, List.map_map, List.pairwise_map]
        apply List.Pairwise.imp _ List.pairwise_lt_range
        intro a b hab
        show 16 * n + a < 16 * n + b
        omega
      · intro a ha b hb
        obtain ⟨x, hx, rfl⟩ := List.mem_map.1 ha
        obtain ⟨k, hk, j, hj, he⟩ := Memory.mem_region hx
        obtain ⟨y, hy, rfl⟩ := List.mem_map.1 hb
        simp only [Memory.wordCells, List.mem_map, List.mem_range] at hy
        obtain ⟨i, hi, rfl⟩ := hy
        simp only
        omega
    · simpa using ih

end Machine

end Sys2Proof
end

