-- ==== Sys2Proof/Laws/State.lean ====
section
/-! SUPPORT. One lemma per field per update of State, so that no proof unfolds a record update; and what
reading one flag, FIFO or pointer after writing one gives. -/

namespace Sys2Proof

@[simp] theorem PerFlag.get_dacWrite {α : Type} (p : PerFlag α) : p.get .dacWrite = p.dacWrite := rfl
@[simp] theorem PerFlag.get_dacRead {α : Type} (p : PerFlag α) : p.get .dacRead = p.dacRead := rfl
@[simp] theorem PerFlag.get_adcWrite {α : Type} (p : PerFlag α) : p.get .adcWrite = p.adcWrite := rfl
@[simp] theorem PerFlag.get_adcTransfer {α : Type} (p : PerFlag α) : p.get .adcTransfer = p.adcTransfer := rfl
@[simp] theorem PerFlag.get_adcDebug {α : Type} (p : PerFlag α) : p.get .adcDebug = p.adcDebug := rfl
@[simp] theorem PerFlag.get_adcsConnected {α : Type} (p : PerFlag α) : p.get .adcsConnected = p.adcsConnected := rfl

@[simp] theorem PerFifo.get_dacIn {α : Type} (p : PerFifo α) : p.get .dacIn = p.dacIn := rfl
@[simp] theorem PerFifo.get_dacOut {α : Type} (p : PerFifo α) : p.get .dacOut = p.dacOut := rfl
@[simp] theorem PerFifo.get_adcIn {α : Type} (p : PerFifo α) : p.get .adcIn = p.adcIn := rfl
@[simp] theorem PerFifo.get_adcOut {α : Type} (p : PerFifo α) : p.get .adcOut = p.adcOut := rfl

@[simp] theorem PerPtr.get_dacWr {α : Type} (p : PerPtr α) : p.get .dacWr = p.dacWr := rfl
@[simp] theorem PerPtr.get_dacRd {α : Type} (p : PerPtr α) : p.get .dacRd = p.dacRd := rfl
@[simp] theorem PerPtr.get_adcWr {α : Type} (p : PerPtr α) : p.get .adcWr = p.adcWr := rfl
@[simp] theorem PerPtr.get_adcRd {α : Type} (p : PerPtr α) : p.get .adcRd = p.adcRd := rfl

@[simp] theorem PerTrig.get_rstDacIn {α : Type} (p : PerTrig α) : p.get .rstDacIn = p.rstDacIn := rfl
@[simp] theorem PerTrig.get_rstDacOut {α : Type} (p : PerTrig α) : p.get .rstDacOut = p.rstDacOut := rfl
@[simp] theorem PerTrig.get_rstAdcIn {α : Type} (p : PerTrig α) : p.get .rstAdcIn = p.rstAdcIn := rfl
@[simp] theorem PerTrig.get_rstAdcOut {α : Type} (p : PerTrig α) : p.get .rstAdcOut = p.rstAdcOut := rfl
@[simp] theorem PerTrig.get_rstPtr {α : Type} (p : PerTrig α) : p.get .rstPtr = p.rstPtr := rfl

@[simp] theorem PerFlag.get_set_same {α : Type} (p : PerFlag α) (f : Flag) (v : α) :
    (p.set f v).get f = v := by cases f <;> rfl

theorem PerFlag.get_set_ne {α : Type} (p : PerFlag α) {f g : Flag} (v : α) (h : g ≠ f) :
    (p.set f v).get g = p.get g := by cases f <;> cases g <;> first | rfl | exact absurd rfl h

theorem PerFlag.ext_get {α : Type} {p q : PerFlag α} (h : ∀ f, p.get f = q.get f) : p = q := by
  obtain ⟨a, b, c, d, e, f⟩ := p
  obtain ⟨a', b', c', d', e', f'⟩ := q
  have h1 := h .dacWrite
  have h2 := h .dacRead
  have h3 := h .adcWrite
  have h4 := h .adcTransfer
  have h5 := h .adcDebug
  have h6 := h .adcsConnected
  simp only [PerFlag.get] at h1 h2 h3 h4 h5 h6
  subst h1 h2 h3 h4 h5 h6
  rfl

@[simp] theorem PerFifo.get_set_same {α : Type} (p : PerFifo α) (q : Fifo) (v : α) :
    (p.set q v).get q = v := by cases q <;> rfl

theorem PerFifo.get_set_ne {α : Type} (p : PerFifo α) {q r : Fifo} (v : α) (h : r ≠ q) :
    (p.set q v).get r = p.get r := by cases q <;> cases r <;> first | rfl | exact absurd rfl h

@[simp] theorem PerPtr.get_set_same {α : Type} (p : PerPtr α) (q : Ptr) (v : α) :
    (p.set q v).get q = v := by cases q <;> rfl

theorem PerPtr.get_set_ne {α : Type} (p : PerPtr α) {q r : Ptr} (v : α) (h : r ≠ q) :
    (p.set q v).get r = p.get r := by cases q <;> cases r <;> first | rfl | exact absurd rfl h

@[simp] theorem PerFifo.dacIn_set_dacIn {α : Type} (p : PerFifo α) (v : α) :
    (p.set .dacIn v).dacIn = v := rfl
@[simp] theorem PerFifo.dacOut_set_dacIn {α : Type} (p : PerFifo α) (v : α) :
    (p.set .dacIn v).dacOut = p.dacOut := rfl
@[simp] theorem PerFifo.adcIn_set_dacIn {α : Type} (p : PerFifo α) (v : α) :
    (p.set .dacIn v).adcIn = p.adcIn := rfl
@[simp] theorem PerFifo.adcOut_set_dacIn {α : Type} (p : PerFifo α) (v : α) :
    (p.set .dacIn v).adcOut = p.adcOut := rfl
@[simp] theorem PerFifo.dacIn_set_dacOut {α : Type} (p : PerFifo α) (v : α) :
    (p.set .dacOut v).dacIn = p.dacIn := rfl
@[simp] theorem PerFifo.dacOut_set_dacOut {α : Type} (p : PerFifo α) (v : α) :
    (p.set .dacOut v).dacOut = v := rfl
@[simp] theorem PerFifo.adcIn_set_dacOut {α : Type} (p : PerFifo α) (v : α) :
    (p.set .dacOut v).adcIn = p.adcIn := rfl
@[simp] theorem PerFifo.adcOut_set_dacOut {α : Type} (p : PerFifo α) (v : α) :
    (p.set .dacOut v).adcOut = p.adcOut := rfl
@[simp] theorem PerFifo.dacIn_set_adcIn {α : Type} (p : PerFifo α) (v : α) :
    (p.set .adcIn v).dacIn = p.dacIn := rfl
@[simp] theorem PerFifo.dacOut_set_adcIn {α : Type} (p : PerFifo α) (v : α) :
    (p.set .adcIn v).dacOut = p.dacOut := rfl
@[simp] theorem PerFifo.adcIn_set_adcIn {α : Type} (p : PerFifo α) (v : α) :
    (p.set .adcIn v).adcIn = v := rfl
@[simp] theorem PerFifo.adcOut_set_adcIn {α : Type} (p : PerFifo α) (v : α) :
    (p.set .adcIn v).adcOut = p.adcOut := rfl
@[simp] theorem PerFifo.dacIn_set_adcOut {α : Type} (p : PerFifo α) (v : α) :
    (p.set .adcOut v).dacIn = p.dacIn := rfl
@[simp] theorem PerFifo.dacOut_set_adcOut {α : Type} (p : PerFifo α) (v : α) :
    (p.set .adcOut v).dacOut = p.dacOut := rfl
@[simp] theorem PerFifo.adcIn_set_adcOut {α : Type} (p : PerFifo α) (v : α) :
    (p.set .adcOut v).adcIn = p.adcIn := rfl
@[simp] theorem PerFifo.adcOut_set_adcOut {α : Type} (p : PerFifo α) (v : α) :
    (p.set .adcOut v).adcOut = v := rfl

@[simp] theorem PerPtr.dacWr_set_dacWr {α : Type} (p : PerPtr α) (v : α) :
    (p.set .dacWr v).dacWr = v := rfl
@[simp] theorem PerPtr.dacRd_set_dacWr {α : Type} (p : PerPtr α) (v : α) :
    (p.set .dacWr v).dacRd = p.dacRd := rfl
@[simp] theorem PerPtr.adcWr_set_dacWr {α : Type} (p : PerPtr α) (v : α) :
    (p.set .dacWr v).adcWr = p.adcWr := rfl
@[simp] theorem PerPtr.adcRd_set_dacWr {α : Type} (p : PerPtr α) (v : α) :
    (p.set .dacWr v).adcRd = p.adcRd := rfl
@[simp] theorem PerPtr.dacWr_set_dacRd {α : Type} (p : PerPtr α) (v : α) :
    (p.set .dacRd v).dacWr = p.dacWr := rfl
@[simp] theorem PerPtr.dacRd_set_dacRd {α : Type} (p : PerPtr α) (v : α) :
    (p.set .dacRd v).dacRd = v := rfl
@[simp] theorem PerPtr.adcWr_set_dacRd {α : Type} (p : PerPtr α) (v : α) :
    (p.set .dacRd v).adcWr = p.adcWr := rfl
@[simp] theorem PerPtr.adcRd_set_dacRd {α : Type} (p : PerPtr α) (v : α) :
    (p.set .dacRd v).adcRd = p.adcRd := rfl
@[simp] theorem PerPtr.dacWr_set_adcWr {α : Type} (p : PerPtr α) (v : α) :
    (p.set .adcWr v).dacWr = p.dacWr := rfl
@[simp] theorem PerPtr.dacRd_set_adcWr {α : Type} (p : PerPtr α) (v : α) :
    (p.set .adcWr v).dacRd = p.dacRd := rfl
@[simp] theorem PerPtr.adcWr_set_adcWr {α : Type} (p : PerPtr α) (v : α) :
    (p.set .adcWr v).adcWr = v := rfl
@[simp] theorem PerPtr.adcRd_set_adcWr {α : Type} (p : PerPtr α) (v : α) :
    (p.set .adcWr v).adcRd = p.adcRd := rfl
@[simp] theorem PerPtr.dacWr_set_adcRd {α : Type} (p : PerPtr α) (v : α) :
    (p.set .adcRd v).dacWr = p.dacWr := rfl
@[simp] theorem PerPtr.dacRd_set_adcRd {α : Type} (p : PerPtr α) (v : α) :
    (p.set .adcRd v).dacRd = p.dacRd := rfl
@[simp] theorem PerPtr.adcWr_set_adcRd {α : Type} (p : PerPtr α) (v : α) :
    (p.set .adcRd v).adcWr = p.adcWr := rfl
@[simp] theorem PerPtr.adcRd_set_adcRd {α : Type} (p : PerPtr α) (v : α) :
    (p.set .adcRd v).adcRd = v := rfl

namespace Machine

@[simp] theorem State.ctrl_setCtrl (s : State) (v : PerFlag Bool) : (s.setCtrl v).ctrl = v := rfl
@[simp] theorem State.fifo_setCtrl (s : State) (v : PerFlag Bool) : (s.setCtrl v).fifo = s.fifo := rfl
@[simp] theorem State.ptr_setCtrl (s : State) (v : PerFlag Bool) : (s.setCtrl v).ptr = s.ptr := rfl
@[simp] theorem State.adcFill_setCtrl (s : State) (v : PerFlag Bool) : (s.setCtrl v).adcFill = s.adcFill := rfl
@[simp] theorem State.ddrDac_setCtrl (s : State) (v : PerFlag Bool) : (s.setCtrl v).ddrDac = s.ddrDac := rfl
@[simp] theorem State.ddrAdc_setCtrl (s : State) (v : PerFlag Bool) : (s.setCtrl v).ddrAdc = s.ddrAdc := rfl
@[simp] theorem State.dacOut_setCtrl (s : State) (v : PerFlag Bool) : (s.setCtrl v).dacOut = s.dacOut := rfl
@[simp] theorem State.adcOverrun_setCtrl (s : State) (v : PerFlag Bool) : (s.setCtrl v).adcOverrun = s.adcOverrun := rfl
@[simp] theorem State.fault_setCtrl (s : State) (v : PerFlag Bool) : (s.setCtrl v).fault = s.fault := rfl
@[simp] theorem State.cfg_setCtrl (s : State) (v : PerFlag Bool) : (s.setCtrl v).cfg = s.cfg := rfl
@[simp] theorem State.program_setCtrl (s : State) (v : PerFlag Bool) : (s.setCtrl v).program = s.program := rfl
@[simp] theorem State.result_setCtrl (s : State) (v : PerFlag Bool) : (s.setCtrl v).result = s.result := rfl
@[simp] theorem State.draws_setCtrl (s : State) (v : PerFlag Bool) : (s.setCtrl v).draws = s.draws := rfl

@[simp] theorem State.ctrl_setFifos (s : State) (v : PerFifo (List Word)) : (s.setFifos v).ctrl = s.ctrl := rfl
@[simp] theorem State.fifo_setFifos (s : State) (v : PerFifo (List Word)) : (s.setFifos v).fifo = v := rfl
@[simp] theorem State.ptr_setFifos (s : State) (v : PerFifo (List Word)) : (s.setFifos v).ptr = s.ptr := rfl
@[simp] theorem State.adcFill_setFifos (s : State) (v : PerFifo (List Word)) : (s.setFifos v).adcFill = s.adcFill := rfl
@[simp] theorem State.ddrDac_setFifos (s : State) (v : PerFifo (List Word)) : (s.setFifos v).ddrDac = s.ddrDac := rfl
@[simp] theorem State.ddrAdc_setFifos (s : State) (v : PerFifo (List Word)) : (s.setFifos v).ddrAdc = s.ddrAdc := rfl
@[simp] theorem State.dacOut_setFifos (s : State) (v : PerFifo (List Word)) : (s.setFifos v).dacOut = s.dacOut := rfl
@[simp] theorem State.adcOverrun_setFifos (s : State) (v : PerFifo (List Word)) : (s.setFifos v).adcOverrun = s.adcOverrun := rfl
@[simp] theorem State.fault_setFifos (s : State) (v : PerFifo (List Word)) : (s.setFifos v).fault = s.fault := rfl
@[simp] theorem State.cfg_setFifos (s : State) (v : PerFifo (List Word)) : (s.setFifos v).cfg = s.cfg := rfl
@[simp] theorem State.program_setFifos (s : State) (v : PerFifo (List Word)) : (s.setFifos v).program = s.program := rfl
@[simp] theorem State.result_setFifos (s : State) (v : PerFifo (List Word)) : (s.setFifos v).result = s.result := rfl
@[simp] theorem State.draws_setFifos (s : State) (v : PerFifo (List Word)) : (s.setFifos v).draws = s.draws := rfl

@[simp] theorem State.ctrl_setPtrs (s : State) (v : PerPtr Nat) : (s.setPtrs v).ctrl = s.ctrl := rfl
@[simp] theorem State.fifo_setPtrs (s : State) (v : PerPtr Nat) : (s.setPtrs v).fifo = s.fifo := rfl
@[simp] theorem State.ptr_setPtrs (s : State) (v : PerPtr Nat) : (s.setPtrs v).ptr = v := rfl
@[simp] theorem State.adcFill_setPtrs (s : State) (v : PerPtr Nat) : (s.setPtrs v).adcFill = s.adcFill := rfl
@[simp] theorem State.ddrDac_setPtrs (s : State) (v : PerPtr Nat) : (s.setPtrs v).ddrDac = s.ddrDac := rfl
@[simp] theorem State.ddrAdc_setPtrs (s : State) (v : PerPtr Nat) : (s.setPtrs v).ddrAdc = s.ddrAdc := rfl
@[simp] theorem State.dacOut_setPtrs (s : State) (v : PerPtr Nat) : (s.setPtrs v).dacOut = s.dacOut := rfl
@[simp] theorem State.adcOverrun_setPtrs (s : State) (v : PerPtr Nat) : (s.setPtrs v).adcOverrun = s.adcOverrun := rfl
@[simp] theorem State.fault_setPtrs (s : State) (v : PerPtr Nat) : (s.setPtrs v).fault = s.fault := rfl
@[simp] theorem State.cfg_setPtrs (s : State) (v : PerPtr Nat) : (s.setPtrs v).cfg = s.cfg := rfl
@[simp] theorem State.program_setPtrs (s : State) (v : PerPtr Nat) : (s.setPtrs v).program = s.program := rfl
@[simp] theorem State.result_setPtrs (s : State) (v : PerPtr Nat) : (s.setPtrs v).result = s.result := rfl
@[simp] theorem State.draws_setPtrs (s : State) (v : PerPtr Nat) : (s.setPtrs v).draws = s.draws := rfl

@[simp] theorem State.ctrl_setAdcFill (s : State) (v : Nat) : (s.setAdcFill v).ctrl = s.ctrl := rfl
@[simp] theorem State.fifo_setAdcFill (s : State) (v : Nat) : (s.setAdcFill v).fifo = s.fifo := rfl
@[simp] theorem State.ptr_setAdcFill (s : State) (v : Nat) : (s.setAdcFill v).ptr = s.ptr := rfl
@[simp] theorem State.adcFill_setAdcFill (s : State) (v : Nat) : (s.setAdcFill v).adcFill = v := rfl
@[simp] theorem State.ddrDac_setAdcFill (s : State) (v : Nat) : (s.setAdcFill v).ddrDac = s.ddrDac := rfl
@[simp] theorem State.ddrAdc_setAdcFill (s : State) (v : Nat) : (s.setAdcFill v).ddrAdc = s.ddrAdc := rfl
@[simp] theorem State.dacOut_setAdcFill (s : State) (v : Nat) : (s.setAdcFill v).dacOut = s.dacOut := rfl
@[simp] theorem State.adcOverrun_setAdcFill (s : State) (v : Nat) : (s.setAdcFill v).adcOverrun = s.adcOverrun := rfl
@[simp] theorem State.fault_setAdcFill (s : State) (v : Nat) : (s.setAdcFill v).fault = s.fault := rfl
@[simp] theorem State.cfg_setAdcFill (s : State) (v : Nat) : (s.setAdcFill v).cfg = s.cfg := rfl
@[simp] theorem State.program_setAdcFill (s : State) (v : Nat) : (s.setAdcFill v).program = s.program := rfl
@[simp] theorem State.result_setAdcFill (s : State) (v : Nat) : (s.setAdcFill v).result = s.result := rfl
@[simp] theorem State.draws_setAdcFill (s : State) (v : Nat) : (s.setAdcFill v).draws = s.draws := rfl

@[simp] theorem State.ctrl_setDdrDac (s : State) (v : List Host.Cell) : (s.setDdrDac v).ctrl = s.ctrl := rfl
@[simp] theorem State.fifo_setDdrDac (s : State) (v : List Host.Cell) : (s.setDdrDac v).fifo = s.fifo := rfl
@[simp] theorem State.ptr_setDdrDac (s : State) (v : List Host.Cell) : (s.setDdrDac v).ptr = s.ptr := rfl
@[simp] theorem State.adcFill_setDdrDac (s : State) (v : List Host.Cell) : (s.setDdrDac v).adcFill = s.adcFill := rfl
@[simp] theorem State.ddrDac_setDdrDac (s : State) (v : List Host.Cell) : (s.setDdrDac v).ddrDac = v := rfl
@[simp] theorem State.ddrAdc_setDdrDac (s : State) (v : List Host.Cell) : (s.setDdrDac v).ddrAdc = s.ddrAdc := rfl
@[simp] theorem State.dacOut_setDdrDac (s : State) (v : List Host.Cell) : (s.setDdrDac v).dacOut = s.dacOut := rfl
@[simp] theorem State.adcOverrun_setDdrDac (s : State) (v : List Host.Cell) : (s.setDdrDac v).adcOverrun = s.adcOverrun := rfl
@[simp] theorem State.fault_setDdrDac (s : State) (v : List Host.Cell) : (s.setDdrDac v).fault = s.fault := rfl
@[simp] theorem State.cfg_setDdrDac (s : State) (v : List Host.Cell) : (s.setDdrDac v).cfg = s.cfg := rfl
@[simp] theorem State.program_setDdrDac (s : State) (v : List Host.Cell) : (s.setDdrDac v).program = s.program := rfl
@[simp] theorem State.result_setDdrDac (s : State) (v : List Host.Cell) : (s.setDdrDac v).result = s.result := rfl
@[simp] theorem State.draws_setDdrDac (s : State) (v : List Host.Cell) : (s.setDdrDac v).draws = s.draws := rfl

@[simp] theorem State.ctrl_setDdrAdc (s : State) (v : List Host.Cell) : (s.setDdrAdc v).ctrl = s.ctrl := rfl
@[simp] theorem State.fifo_setDdrAdc (s : State) (v : List Host.Cell) : (s.setDdrAdc v).fifo = s.fifo := rfl
@[simp] theorem State.ptr_setDdrAdc (s : State) (v : List Host.Cell) : (s.setDdrAdc v).ptr = s.ptr := rfl
@[simp] theorem State.adcFill_setDdrAdc (s : State) (v : List Host.Cell) : (s.setDdrAdc v).adcFill = s.adcFill := rfl
@[simp] theorem State.ddrDac_setDdrAdc (s : State) (v : List Host.Cell) : (s.setDdrAdc v).ddrDac = s.ddrDac := rfl
@[simp] theorem State.ddrAdc_setDdrAdc (s : State) (v : List Host.Cell) : (s.setDdrAdc v).ddrAdc = v := rfl
@[simp] theorem State.dacOut_setDdrAdc (s : State) (v : List Host.Cell) : (s.setDdrAdc v).dacOut = s.dacOut := rfl
@[simp] theorem State.adcOverrun_setDdrAdc (s : State) (v : List Host.Cell) : (s.setDdrAdc v).adcOverrun = s.adcOverrun := rfl
@[simp] theorem State.fault_setDdrAdc (s : State) (v : List Host.Cell) : (s.setDdrAdc v).fault = s.fault := rfl
@[simp] theorem State.cfg_setDdrAdc (s : State) (v : List Host.Cell) : (s.setDdrAdc v).cfg = s.cfg := rfl
@[simp] theorem State.program_setDdrAdc (s : State) (v : List Host.Cell) : (s.setDdrAdc v).program = s.program := rfl
@[simp] theorem State.result_setDdrAdc (s : State) (v : List Host.Cell) : (s.setDdrAdc v).result = s.result := rfl
@[simp] theorem State.draws_setDdrAdc (s : State) (v : List Host.Cell) : (s.setDdrAdc v).draws = s.draws := rfl

@[simp] theorem State.ctrl_setDacOut (s : State) (v : List Word) : (s.setDacOut v).ctrl = s.ctrl := rfl
@[simp] theorem State.fifo_setDacOut (s : State) (v : List Word) : (s.setDacOut v).fifo = s.fifo := rfl
@[simp] theorem State.ptr_setDacOut (s : State) (v : List Word) : (s.setDacOut v).ptr = s.ptr := rfl
@[simp] theorem State.adcFill_setDacOut (s : State) (v : List Word) : (s.setDacOut v).adcFill = s.adcFill := rfl
@[simp] theorem State.ddrDac_setDacOut (s : State) (v : List Word) : (s.setDacOut v).ddrDac = s.ddrDac := rfl
@[simp] theorem State.ddrAdc_setDacOut (s : State) (v : List Word) : (s.setDacOut v).ddrAdc = s.ddrAdc := rfl
@[simp] theorem State.dacOut_setDacOut (s : State) (v : List Word) : (s.setDacOut v).dacOut = v := rfl
@[simp] theorem State.adcOverrun_setDacOut (s : State) (v : List Word) : (s.setDacOut v).adcOverrun = s.adcOverrun := rfl
@[simp] theorem State.fault_setDacOut (s : State) (v : List Word) : (s.setDacOut v).fault = s.fault := rfl
@[simp] theorem State.cfg_setDacOut (s : State) (v : List Word) : (s.setDacOut v).cfg = s.cfg := rfl
@[simp] theorem State.program_setDacOut (s : State) (v : List Word) : (s.setDacOut v).program = s.program := rfl
@[simp] theorem State.result_setDacOut (s : State) (v : List Word) : (s.setDacOut v).result = s.result := rfl
@[simp] theorem State.draws_setDacOut (s : State) (v : List Word) : (s.setDacOut v).draws = s.draws := rfl

@[simp] theorem State.ctrl_setAdcOverrun (s : State) (v : Bool) : (s.setAdcOverrun v).ctrl = s.ctrl := rfl
@[simp] theorem State.fifo_setAdcOverrun (s : State) (v : Bool) : (s.setAdcOverrun v).fifo = s.fifo := rfl
@[simp] theorem State.ptr_setAdcOverrun (s : State) (v : Bool) : (s.setAdcOverrun v).ptr = s.ptr := rfl
@[simp] theorem State.adcFill_setAdcOverrun (s : State) (v : Bool) : (s.setAdcOverrun v).adcFill = s.adcFill := rfl
@[simp] theorem State.ddrDac_setAdcOverrun (s : State) (v : Bool) : (s.setAdcOverrun v).ddrDac = s.ddrDac := rfl
@[simp] theorem State.ddrAdc_setAdcOverrun (s : State) (v : Bool) : (s.setAdcOverrun v).ddrAdc = s.ddrAdc := rfl
@[simp] theorem State.dacOut_setAdcOverrun (s : State) (v : Bool) : (s.setAdcOverrun v).dacOut = s.dacOut := rfl
@[simp] theorem State.adcOverrun_setAdcOverrun (s : State) (v : Bool) : (s.setAdcOverrun v).adcOverrun = v := rfl
@[simp] theorem State.fault_setAdcOverrun (s : State) (v : Bool) : (s.setAdcOverrun v).fault = s.fault := rfl
@[simp] theorem State.cfg_setAdcOverrun (s : State) (v : Bool) : (s.setAdcOverrun v).cfg = s.cfg := rfl
@[simp] theorem State.program_setAdcOverrun (s : State) (v : Bool) : (s.setAdcOverrun v).program = s.program := rfl
@[simp] theorem State.result_setAdcOverrun (s : State) (v : Bool) : (s.setAdcOverrun v).result = s.result := rfl
@[simp] theorem State.draws_setAdcOverrun (s : State) (v : Bool) : (s.setAdcOverrun v).draws = s.draws := rfl

@[simp] theorem State.ctrl_setFault (s : State) (v : Bool) : (s.setFault v).ctrl = s.ctrl := rfl
@[simp] theorem State.fifo_setFault (s : State) (v : Bool) : (s.setFault v).fifo = s.fifo := rfl
@[simp] theorem State.ptr_setFault (s : State) (v : Bool) : (s.setFault v).ptr = s.ptr := rfl
@[simp] theorem State.adcFill_setFault (s : State) (v : Bool) : (s.setFault v).adcFill = s.adcFill := rfl
@[simp] theorem State.ddrDac_setFault (s : State) (v : Bool) : (s.setFault v).ddrDac = s.ddrDac := rfl
@[simp] theorem State.ddrAdc_setFault (s : State) (v : Bool) : (s.setFault v).ddrAdc = s.ddrAdc := rfl
@[simp] theorem State.dacOut_setFault (s : State) (v : Bool) : (s.setFault v).dacOut = s.dacOut := rfl
@[simp] theorem State.adcOverrun_setFault (s : State) (v : Bool) : (s.setFault v).adcOverrun = s.adcOverrun := rfl
@[simp] theorem State.fault_setFault (s : State) (v : Bool) : (s.setFault v).fault = v := rfl
@[simp] theorem State.cfg_setFault (s : State) (v : Bool) : (s.setFault v).cfg = s.cfg := rfl
@[simp] theorem State.program_setFault (s : State) (v : Bool) : (s.setFault v).program = s.program := rfl
@[simp] theorem State.result_setFault (s : State) (v : Bool) : (s.setFault v).result = s.result := rfl
@[simp] theorem State.draws_setFault (s : State) (v : Bool) : (s.setFault v).draws = s.draws := rfl

@[simp] theorem State.ctrl_setProgram (s : State) (v : List Byte) : (s.setProgram v).ctrl = s.ctrl := rfl
@[simp] theorem State.fifo_setProgram (s : State) (v : List Byte) : (s.setProgram v).fifo = s.fifo := rfl
@[simp] theorem State.ptr_setProgram (s : State) (v : List Byte) : (s.setProgram v).ptr = s.ptr := rfl
@[simp] theorem State.adcFill_setProgram (s : State) (v : List Byte) : (s.setProgram v).adcFill = s.adcFill := rfl
@[simp] theorem State.ddrDac_setProgram (s : State) (v : List Byte) : (s.setProgram v).ddrDac = s.ddrDac := rfl
@[simp] theorem State.ddrAdc_setProgram (s : State) (v : List Byte) : (s.setProgram v).ddrAdc = s.ddrAdc := rfl
@[simp] theorem State.dacOut_setProgram (s : State) (v : List Byte) : (s.setProgram v).dacOut = s.dacOut := rfl
@[simp] theorem State.adcOverrun_setProgram (s : State) (v : List Byte) : (s.setProgram v).adcOverrun = s.adcOverrun := rfl
@[simp] theorem State.fault_setProgram (s : State) (v : List Byte) : (s.setProgram v).fault = s.fault := rfl
@[simp] theorem State.cfg_setProgram (s : State) (v : List Byte) : (s.setProgram v).cfg = s.cfg := rfl
@[simp] theorem State.program_setProgram (s : State) (v : List Byte) : (s.setProgram v).program = v := rfl
@[simp] theorem State.result_setProgram (s : State) (v : List Byte) : (s.setProgram v).result = s.result := rfl
@[simp] theorem State.draws_setProgram (s : State) (v : List Byte) : (s.setProgram v).draws = s.draws := rfl

@[simp] theorem State.ctrl_setResult (s : State) (v : Result) : (s.setResult v).ctrl = s.ctrl := rfl
@[simp] theorem State.fifo_setResult (s : State) (v : Result) : (s.setResult v).fifo = s.fifo := rfl
@[simp] theorem State.ptr_setResult (s : State) (v : Result) : (s.setResult v).ptr = s.ptr := rfl
@[simp] theorem State.adcFill_setResult (s : State) (v : Result) : (s.setResult v).adcFill = s.adcFill := rfl
@[simp] theorem State.ddrDac_setResult (s : State) (v : Result) : (s.setResult v).ddrDac = s.ddrDac := rfl
@[simp] theorem State.ddrAdc_setResult (s : State) (v : Result) : (s.setResult v).ddrAdc = s.ddrAdc := rfl
@[simp] theorem State.dacOut_setResult (s : State) (v : Result) : (s.setResult v).dacOut = s.dacOut := rfl
@[simp] theorem State.adcOverrun_setResult (s : State) (v : Result) : (s.setResult v).adcOverrun = s.adcOverrun := rfl
@[simp] theorem State.fault_setResult (s : State) (v : Result) : (s.setResult v).fault = s.fault := rfl
@[simp] theorem State.cfg_setResult (s : State) (v : Result) : (s.setResult v).cfg = s.cfg := rfl
@[simp] theorem State.program_setResult (s : State) (v : Result) : (s.setResult v).program = s.program := rfl
@[simp] theorem State.result_setResult (s : State) (v : Result) : (s.setResult v).result = v := rfl
@[simp] theorem State.draws_setResult (s : State) (v : Result) : (s.setResult v).draws = s.draws := rfl

@[simp] theorem State.ctrl_setDraws (s : State) (v : Nat) : (s.setDraws v).ctrl = s.ctrl := rfl
@[simp] theorem State.fifo_setDraws (s : State) (v : Nat) : (s.setDraws v).fifo = s.fifo := rfl
@[simp] theorem State.ptr_setDraws (s : State) (v : Nat) : (s.setDraws v).ptr = s.ptr := rfl
@[simp] theorem State.adcFill_setDraws (s : State) (v : Nat) : (s.setDraws v).adcFill = s.adcFill := rfl
@[simp] theorem State.ddrDac_setDraws (s : State) (v : Nat) : (s.setDraws v).ddrDac = s.ddrDac := rfl
@[simp] theorem State.ddrAdc_setDraws (s : State) (v : Nat) : (s.setDraws v).ddrAdc = s.ddrAdc := rfl
@[simp] theorem State.dacOut_setDraws (s : State) (v : Nat) : (s.setDraws v).dacOut = s.dacOut := rfl
@[simp] theorem State.adcOverrun_setDraws (s : State) (v : Nat) : (s.setDraws v).adcOverrun = s.adcOverrun := rfl
@[simp] theorem State.fault_setDraws (s : State) (v : Nat) : (s.setDraws v).fault = s.fault := rfl
@[simp] theorem State.cfg_setDraws (s : State) (v : Nat) : (s.setDraws v).cfg = s.cfg := rfl
@[simp] theorem State.program_setDraws (s : State) (v : Nat) : (s.setDraws v).program = s.program := rfl
@[simp] theorem State.result_setDraws (s : State) (v : Nat) : (s.setDraws v).result = s.result := rfl
@[simp] theorem State.draws_setDraws (s : State) (v : Nat) : (s.setDraws v).draws = v := rfl

end Machine

end Sys2Proof
end

