-- ==== Sys2Proof/Laws/Ops.lean ====
section
/-! SUPPORT. What the shared operations can do: draws, havocs, FIFO and pointer moves, the six steps,
gaps, and the reset logic. Each operation keeps the control side of the state, and keeps a state a
state of the spec. -/

namespace Sys2Proof.Machine

/-- The fields no step of the data path and no pulse writes: flags, mark, configuration, program and
result. -/
structure KeepsControl (s t : State) : Prop where
  ctrl : t.ctrl = s.ctrl
  fault : t.fault = s.fault
  cfg : t.cfg = s.cfg
  program : t.program = s.program
  result : t.result = s.result

theorem KeepsControl.refl (s : State) : KeepsControl s s := ⟨rfl, rfl, rfl, rfl, rfl⟩

theorem KeepsControl.trans {s t u : State} (h : KeepsControl s t) (k : KeepsControl t u) :
    KeepsControl s u :=
  ⟨k.ctrl.trans h.ctrl, k.fault.trans h.fault, k.cfg.trans h.cfg, k.program.trans h.program,
    k.result.trans h.result⟩

theorem takeDraw_keeps (s : State) : KeepsControl s (takeDraw s) := ⟨rfl, rfl, rfl, rfl, rfl⟩
theorem setFifo_keeps (q : Fifo) (ws : List Word) (s : State) : KeepsControl s (setFifo q ws s) :=
  ⟨rfl, rfl, rfl, rfl, rfl⟩
theorem setPtr_keeps (p : Ptr) (v : Nat) (s : State) : KeepsControl s (setPtr p v s) :=
  ⟨rfl, rfl, rfl, rfl, rfl⟩
theorem push_keeps (q : Fifo) (w : Word) (s : State) : KeepsControl s (push q w s) :=
  ⟨rfl, rfl, rfl, rfl, rfl⟩
theorem advance_keeps (p : Ptr) (s : State) : KeepsControl s (advance p s) := ⟨rfl, rfl, rfl, rfl, rfl⟩
theorem storeDac_keeps (w : Word) (s : State) : KeepsControl s (storeDac w s) :=
  ⟨rfl, rfl, rfl, rfl, rfl⟩
theorem havocFifo_keeps (q : Fifo) (s : State) : KeepsControl s (havocFifo q s) :=
  ⟨rfl, rfl, rfl, rfl, rfl⟩
theorem havocPtr_keeps (p : Ptr) (s : State) : KeepsControl s (havocPtr p s) :=
  ⟨rfl, rfl, rfl, rfl, rfl⟩
theorem havocFill_keeps (s : State) : KeepsControl s (havocFill s) := ⟨rfl, rfl, rfl, rfl, rfl⟩
theorem havocDac_keeps (s : State) : KeepsControl s (havocDac s) := ⟨rfl, rfl, rfl, rfl, rfl⟩
theorem havocAdc_keeps (s : State) : KeepsControl s (havocAdc s) := ⟨rfl, rfl, rfl, rfl, rfl⟩
theorem havocOverrun_keeps (s : State) : KeepsControl s (havocOverrun s) := ⟨rfl, rfl, rfl, rfl, rfl⟩
theorem pointerReset_keeps (s : State) : KeepsControl s (pointerReset s) := ⟨rfl, rfl, rfl, rfl, rfl⟩

theorem havocPositions_keeps (s : State) : KeepsControl s (havocPositions s) :=
  ((((((((havocPtr_keeps _ _).trans (havocPtr_keeps _ _)).trans (havocPtr_keeps _ _)).trans
    (havocFill_keeps _)).trans (havocFifo_keeps _ _)).trans (havocFifo_keeps _ _)).trans
    (havocFifo_keeps _ _)).trans (havocAdc_keeps _))

theorem fifoReset_keeps (q : Fifo) (s : State) : KeepsControl s (fifoReset q s) := by
  unfold fifoReset; split <;> exact ⟨rfl, rfl, rfl, rfl, rfl⟩

theorem pointerHavoc_keeps (s : State) : KeepsControl s (pointerHavoc s) := by
  have h := ((((havocPtr_keeps .dacWr s).trans (havocPtr_keeps .dacRd _)).trans
    (havocPtr_keeps .adcWr _)).trans (havocPtr_keeps .adcRd _)).trans (havocFill_keeps _)
  unfold pointerHavoc
  simp only
  split <;> split
  · exact (h.trans (havocDac_keeps _)).trans (havocAdc_keeps _)
  · exact h.trans (havocAdc_keeps _)
  · exact h.trans (havocDac_keeps _)
  · exact h

theorem pulse_keeps (t : Trig) (s : State) : KeepsControl s (pulse t s) := by
  cases t <;> simp only [pulse] <;> split <;>
    first
    | exact fifoReset_keeps _ _
    | exact pointerHavoc_keeps _
    | exact ⟨rfl, rfl, rfl, rfl, rfl⟩

theorem hwEffect_keeps (h : HwStep) (s : State) : KeepsControl s (hwEffect h s) := by
  cases h
  · simp only [hwEffect, dacFillEffect]; split <;> exact ⟨rfl, rfl, rfl, rfl, rfl⟩
  · exact ⟨rfl, rfl, rfl, rfl, rfl⟩
  · simp only [hwEffect, adcStoreEffect]; split <;> exact ⟨rfl, rfl, rfl, rfl, rfl⟩
  · exact ⟨rfl, rfl, rfl, rfl, rfl⟩
  · simp only [hwEffect, dacSinkEffect]; split <;> exact ⟨rfl, rfl, rfl, rfl, rfl⟩
  · simp only [hwEffect, adcSourceEffect]; split <;> exact ⟨rfl, rfl, rfl, rfl, rfl⟩

theorem hwStep_keeps (h : HwStep) (s : State) : KeepsControl s (hwStep h s) := by
  unfold hwStep; split
  · exact hwEffect_keeps h s
  · exact KeepsControl.refl s

/-- A property every step keeps holds after any steps. -/
theorem runSteps_keeps_prop {P : State → Prop} {hs : List HwStep}
    (hP : ∀ h ∈ hs, ∀ s, P s → P (hwStep h s)) {s : State} (h0 : P s) : P (runSteps hs s) := by
  induction hs generalizing s with
  | nil => exact h0
  | cons h hs ih =>
    exact ih (fun k hk => hP k (List.mem_cons_of_mem _ hk)) (hP h List.mem_cons_self s h0)

/-- A property every step and the draw counter keep holds after a gap. -/
theorem runHw_keeps_prop {P : State → Prop} (hP : ∀ h s, P s → P (hwStep h s)) {s : State}
    (h0 : P (takeDraw s)) : P (runHw s) :=
  runSteps_keeps_prop (fun h _ s => hP h s) h0

/-- A property every step but DAC_FILL keeps holds after a gap inside a bulk write. -/
theorem runOthers_keeps_prop {P : State → Prop} (hP : ∀ h, h ≠ .dacFill → ∀ s, P s → P (hwStep h s))
    {s : State} (h0 : P (takeDraw s)) : P (runOthers s) :=
  runSteps_keeps_prop (fun h hm s => hP h (by simpa using (List.mem_filter.1 hm).2) s) h0

theorem runSteps_keeps (hs : List HwStep) (s : State) : KeepsControl s (runSteps hs s) :=
  runSteps_keeps_prop (P := KeepsControl s)
    (fun h _ t ht => ht.trans (hwStep_keeps h t)) (KeepsControl.refl s)

theorem runHw_keeps (s : State) : KeepsControl s (runHw s) :=
  (takeDraw_keeps s).trans (runSteps_keeps _ _)

theorem runOthers_keeps (s : State) : KeepsControl s (runOthers s) :=
  (takeDraw_keeps s).trans (runSteps_keeps _ _)

theorem storeAll_keeps (ws : List Word) (s : State) : KeepsControl s (storeAll ws s) := by
  induction ws generalizing s with
  | nil => exact KeepsControl.refl s
  | cons w ws ih => exact ((runOthers_keeps s).trans (storeDac_keeps w _)).trans (ih _)

theorem pushAll_keeps (ws : List Word) (s : State) : KeepsControl s (pushAll ws s) := by
  induction ws generalizing s with
  | nil => exact KeepsControl.refl s
  | cons w ws ih => exact ((runOthers_keeps s).trans (push_keeps .dacIn w _)).trans (ih _)

theorem completeWrite_keeps (ws : List Word) (s : State) : KeepsControl s (completeWrite ws s) := by
  unfold completeWrite; split
  · exact (((setFifo_keeps _ _ s).trans (storeAll_keeps _ _)).trans (setFifo_keeps _ _ _)).trans
      (runOthers_keeps _)
  · exact (pushAll_keeps _ _).trans (runOthers_keeps _)

/-- A short or failed bulk write keeps what draws, stored words, gaps and the three havocs keep. -/
theorem failedWrite_keeps_prop {P : State → Prop} (hd : ∀ s, P s → P (takeDraw s))
    (hs : ∀ ws s, s.ctrl.dacWrite = true → P s → P (storeAll ws s))
    (hg : ∀ s, P s → P (runOthers s)) (h1 : ∀ s, P s → P (havocFifo .dacIn s))
    (h2 : ∀ s, P s → P (havocPtr .dacWr s)) (h3 : ∀ s, P s → P (havocDac s))
    (ws : List Word) {s : State} (h : P s) : P (failedWrite ws s) := by
  refine h3 _ (h2 _ (h1 _ (hg _ ?_)))
  split
  · rename_i hw; exact hs _ _ hw (hd _ h)
  · exact hd _ h

/-- Takes of a bulk read that ends early keep what gaps and pops keep. -/
theorem partialTakes_keeps_prop {P : State → Prop} (hg : ∀ s, P s → P (runHw s))
    (hp : ∀ s, P s → P (setFifo .adcOut (s.fifo.adcOut.drop 1) s)) :
    ∀ (m : Nat) {s : State}, P s → P (partialTakes m s)
  | 0, _, h => h
  | m + 1, _, h => partialTakes_keeps_prop hg hp m (hp _ (hg _ h))

/-- A short or failed bulk read keeps what draws, gaps, pops and the three havocs keep. -/
theorem failedRead_keeps_prop {P : State → Prop} (hd : ∀ s, P s → P (takeDraw s))
    (hg : ∀ s, P s → P (runHw s)) (hp : ∀ s, P s → P (setFifo .adcOut (s.fifo.adcOut.drop 1) s))
    (h1 : ∀ s, P s → P (havocFifo .adcOut s)) (h2 : ∀ s, P s → P (havocPtr .adcRd s))
    (h3 : ∀ s, P s → P (havocFill s)) (m : Nat) {s : State} (h : P s) : P (failedRead m s) :=
  h3 _ (h2 _ (h1 _ (hg _ (partialTakes_keeps_prop hg hp _ (hd _ h)))))

theorem failedWrite_keeps (ws : List Word) (s : State) : KeepsControl s (failedWrite ws s) :=
  failedWrite_keeps_prop (P := KeepsControl s) (fun t ht => ht.trans (takeDraw_keeps t))
    (fun ws t _ ht => ht.trans (storeAll_keeps ws t)) (fun t ht => ht.trans (runOthers_keeps t))
    (fun t ht => ht.trans (havocFifo_keeps _ t)) (fun t ht => ht.trans (havocPtr_keeps _ t))
    (fun t ht => ht.trans (havocDac_keeps t)) ws (.refl s)

theorem failedRead_keeps (m : Nat) (s : State) : KeepsControl s (failedRead m s) :=
  failedRead_keeps_prop (P := KeepsControl s) (fun t ht => ht.trans (takeDraw_keeps t))
    (fun t ht => ht.trans (runHw_keeps t)) (fun t ht => ht.trans (setFifo_keeps _ _ t))
    (fun t ht => ht.trans (havocFifo_keeps _ t)) (fun t ht => ht.trans (havocPtr_keeps _ t))
    (fun t ht => ht.trans (havocFill_keeps t)) m (.refl s)

theorem pipeWrite_keeps (data : List Byte) (s : State) : KeepsControl s (pipeWrite data s).2 := by
  unfold pipeWrite; split
  · exact KeepsControl.refl s
  · split
    · exact (takeDraw_keeps s).trans (completeWrite_keeps _ _)
    · exact (takeDraw_keeps s).trans (failedWrite_keeps _ _)

/-- What a run of takes that succeeds has done: one pop, then the rest (40_transactions.md R152). -/
theorem takes_succ {m : Nat} {s : State} {ws : List Word} {t : State}
    (h : takes (m + 1) s = some (ws, t)) :
    ∃ w rest r, (runHw s).fifo.adcOut = w :: rest ∧
      takes m (setFifo .adcOut rest (runHw s)) = some (r, t) ∧ ws = w :: r := by
  rw [takes] at h
  split at h
  · cases h
  · rename_i w rest hf
    split at h
    · rename_i r t' hr
      simp only [Option.some.injEq, Prod.mk.injEq] at h
      obtain ⟨rfl, rfl⟩ := h
      exact ⟨w, rest, r, hf, hr, rfl⟩
    · cases h

/-- A run of takes keeps what gaps and pops keep. -/
theorem takes_keeps_prop {P : State → Prop} (hg : ∀ s, P s → P (runHw s))
    (hp : ∀ w ws s, s.fifo.adcOut = w :: ws → P s → P (setFifo .adcOut ws s)) :
    ∀ {m : Nat} {s : State} {ws : List Word} {t : State}, takes m s = some (ws, t) → P s → P t := by
  intro m
  induction m with
  | zero => intro s ws t h h0; simp only [takes, Option.some.injEq, Prod.mk.injEq] at h; exact h.2 ▸ h0
  | succ m ih =>
    intro s ws t h h0
    obtain ⟨w, rest, r, hf, hr, -⟩ := takes_succ h
    exact ih hr (hp w rest _ hf (hg s h0))

theorem takes_keeps {m : Nat} {s : State} {ws : List Word} {t : State}
    (h : takes m s = some (ws, t)) : KeepsControl s t :=
  takes_keeps_prop (P := KeepsControl s) (fun u hu => hu.trans (runHw_keeps u))
    (fun _ _ u _ hu => hu.trans (setFifo_keeps _ _ u)) h (KeepsControl.refl s)

theorem takes_length {m : Nat} {s : State} {ws : List Word} {t : State}
    (h : takes m s = some (ws, t)) : ws.length = m := by
  induction m generalizing s ws with
  | zero => simp only [takes, Option.some.injEq, Prod.mk.injEq] at h; simp [← h.1]
  | succ m ih =>
    obtain ⟨w, rest, r, -, hr, rfl⟩ := takes_succ h
    simp [ih hr]

/-- What a bulk read answers: nothing for nothing, the words taken, or a short outcome (R152). -/
theorem pipeRead_cases (n : Nat) (s : State) :
    (n = 0 ∧ pipeRead n s = (0, [], s)) ∨
    (n ≠ 0 ∧ ∃ ws t, takes (n / 16) (takeDraw s) = some (ws, t) ∧
      pipeRead n s = ((n : Int), bytesOf ws, t)) ∨
    (n ≠ 0 ∧ pipeRead n s =
      (shortOutcome s.cfg s.draws n, Config.freeBytes s.draws,
        failedRead (n / 16) (takeDraw s))) := by
  unfold pipeRead
  by_cases hn : n = 0
  · exact .inl ⟨hn, by rw [if_pos hn]⟩
  · rw [if_neg hn]
    by_cases hw : wantsComplete s = true
    · rw [if_pos hw]
      cases ht : takes (n / 16) (takeDraw s) with
      | none => exact .inr (.inr ⟨hn, rfl⟩)
      | some p => exact .inr (.inl ⟨hn, p.1, p.2, rfl, rfl⟩)
    · rw [if_neg hw]
      exact .inr (.inr ⟨hn, rfl⟩)

theorem pipeRead_keeps (n : Nat) (s : State) : KeepsControl s (pipeRead n s).2.2 := by
  rcases pipeRead_cases n s with ⟨-, h⟩ | ⟨-, ws, t, ht, h⟩ | ⟨-, h⟩ <;> rw [h]
  · exact KeepsControl.refl s
  · exact (takeDraw_keeps s).trans (takes_keeps ht)
  · exact (takeDraw_keeps s).trans (failedRead_keeps _ _)

/-! ### A state of the spec stays one -/

/-- The typing of a state reads the data path and the configuration alone. -/
theorem State.Typed.congr {s t : State} (h : s.Typed) (h1 : t.fifo = s.fifo) (h2 : t.ptr = s.ptr)
    (h3 : t.adcFill = s.adcFill) (h4 : t.ddrDac = s.ddrDac) (h5 : t.ddrAdc = s.ddrAdc)
    (h6 : t.cfg = s.cfg) : t.Typed where
  fifo_le := by rw [h1, h6]; exact h.fifo_le
  ptr_lt := by rw [h2, h6]; exact h.ptr_lt
  fill_le := by rw [h3, h6]; exact h.fill_le
  dac_wf := by rw [h4]; exact h.dac_wf
  dac_within := by rw [h4, h6]; exact h.dac_within
  adc_wf := by rw [h5]; exact h.adc_wf
  adc_within := by rw [h5, h6]; exact h.adc_within

theorem State.Typed.takeDraw {s : State} (h : s.Typed) : (takeDraw s).Typed :=
  h.congr rfl rfl rfl rfl rfl rfl

theorem State.Typed.setFifo {s : State} (h : s.Typed) {q : Fifo} {ws : List Word}
    (hl : ws.length ≤ s.cfg.fifoDepth.get q) : (setFifo q ws s).Typed :=
  { h with
    fifo_le := by
      intro r
      by_cases hr : r = q
      · subst hr
        show ((s.fifo.set r ws).get r).length ≤ _
        rw [PerFifo.get_set_same]; exact hl
      · show ((s.fifo.set q ws).get r).length ≤ _
        rw [PerFifo.get_set_ne _ _ hr]; exact h.fifo_le r }

theorem State.Typed.setPtr {s : State} (h : s.Typed) {p : Ptr} {v : Nat}
    (hl : v < regionWords s.cfg (ptrRegion p)) : (setPtr p v s).Typed :=
  { h with
    ptr_lt := by
      intro r
      by_cases hr : r = p
      · subst hr
        show (s.ptr.set r v).get r < _
        rw [PerPtr.get_set_same]; exact hl
      · show (s.ptr.set p v).get r < _
        rw [PerPtr.get_set_ne _ _ hr]; exact h.ptr_lt r }

theorem State.Typed.setAdcFill {s : State} (h : s.Typed) {v : Nat} (hl : v ≤ s.cfg.adcBufWords) :
    (s.setAdcFill v).Typed := { h with fill_le := hl }

theorem State.Typed.setAdcOverrun {s : State} (h : s.Typed) (v : Bool) :
    (s.setAdcOverrun v).Typed := h.congr rfl rfl rfl rfl rfl rfl

theorem State.Typed.setDacOut {s : State} (h : s.Typed) (v : List Word) :
    (s.setDacOut v).Typed := h.congr rfl rfl rfl rfl rfl rfl

theorem State.Typed.setResult {s : State} (h : s.Typed) (v : Result) :
    (s.setResult v).Typed := h.congr rfl rfl rfl rfl rfl rfl

theorem State.Typed.setProgram {s : State} (h : s.Typed) (v : List Byte) :
    (s.setProgram v).Typed := h.congr rfl rfl rfl rfl rfl rfl

theorem State.Typed.setFault {s : State} (h : s.Typed) (v : Bool) :
    (s.setFault v).Typed := h.congr rfl rfl rfl rfl rfl rfl

theorem State.Typed.setCtrl {s : State} (h : s.Typed) (v : PerFlag Bool) :
    (s.setCtrl v).Typed := h.congr rfl rfl rfl rfl rfl rfl

theorem regionWords_pos {c : Cfg} (hv : c.Valid) (r : Region) : 0 < regionWords c r := by
  cases r
  · exact hv.sampleSize_pos
  · exact hv.adcBufWords_pos

theorem State.Typed.advance {s : State} (h : s.Typed) (hv : s.cfg.Valid) (p : Ptr) :
    (advance p s).Typed := h.setPtr (Nat.mod_lt _ (regionWords_pos hv _))

theorem State.Typed.push {s : State} (h : s.Typed) {q : Fifo} (w : Word) (hr : hasRoom s q = true) :
    (push q w s).Typed := by
  apply h.setFifo
  simp only [hasRoom, decide_eq_true_eq] at hr
  simp; omega

theorem freeFifo_length (k depth : Nat) : (freeFifo k depth).length ≤ depth := by
  have h : Config.freeNat k 0 % (depth + 1) < depth + 1 := Nat.mod_lt _ (Nat.succ_pos _)
  simp only [freeFifo, List.length_map, List.length_range]
  omega

theorem State.Typed.havocFifo {s : State} (h : s.Typed) (q : Fifo) : (havocFifo q s).Typed :=
  h.takeDraw.setFifo (freeFifo_length _ _)

theorem State.Typed.havocPtr {s : State} (h : s.Typed) (hv : s.cfg.Valid) (p : Ptr) :
    (havocPtr p s).Typed := h.takeDraw.setPtr (Nat.mod_lt _ (regionWords_pos hv _))

theorem State.Typed.havocFill {s : State} (h : s.Typed) : (havocFill s).Typed :=
  h.takeDraw.setAdcFill (Nat.lt_succ_iff.1 (Nat.mod_lt _ (Nat.succ_pos _)))

theorem State.Typed.havocDac {s : State} (h : s.Typed) : (havocDac s).Typed :=
  { h.takeDraw with
    dac_wf := Memory.wf_region _ _ _
    dac_within := Memory.within_region _ _ _ }

theorem State.Typed.havocAdc {s : State} (h : s.Typed) : (havocAdc s).Typed :=
  { h.takeDraw with
    adc_wf := Memory.wf_region _ _ _
    adc_within := Memory.within_region _ _ _ }

theorem State.Typed.storeDac {s : State} (h : s.Typed) (hv : s.cfg.Valid) (w : Word) :
    (storeDac w s).Typed := by
  have h1 : (s.setDdrDac (Memory.writeWord s.ddrDac s.ptr.dacWr w)).Typed :=
    { h with
      dac_wf := Memory.wf_writeWord _ _ h.dac_wf
      dac_within := Memory.within_writeWord _ h.dac_within (h.ptr_lt .dacWr) }
  exact h1.advance hv .dacWr

theorem State.Typed.storeAdc {s : State} (h : s.Typed) (hv : s.cfg.Valid) (w : Word) :
    (storeAdc w s).Typed := by
  have h1 : (s.setDdrAdc (Memory.writeWord s.ddrAdc s.ptr.adcWr w)).Typed :=
    { h with
      adc_wf := Memory.wf_writeWord _ _ h.adc_wf
      adc_within := Memory.within_writeWord _ h.adc_within (h.ptr_lt .adcWr) }
  exact h1.advance hv .adcWr

/-- Every step of the data path keeps a state of the spec one. -/
theorem State.Typed.hwStep {s : State} (h : s.Typed) (hv : s.cfg.Valid) (k : HwStep) :
    (hwStep k s).Typed := by
  unfold Machine.hwStep
  split
  · rename_i he
    simp only [Bool.and_eq_true] at he
    obtain ⟨he, -⟩ := he
    cases k
    · simp only [hwEffect, dacFillEffect]
      split
      · exact h
      · rename_i w ws hf
        have h1 := h.fifo_le .dacIn
        simp only [PerFifo.get_dacIn, hf, List.length_cons] at h1
        exact (h.setFifo (q := .dacIn) (Nat.le_of_succ_le h1)).storeDac hv w
    · simp only [hwEnabled, Bool.and_eq_true] at he
      exact (h.takeDraw.push (q := .dacOut) _ he.2).advance hv .dacRd
    · simp only [hwEnabled, Bool.and_eq_true, decide_eq_true_eq] at he
      simp only [hwEffect, adcStoreEffect]
      split
      · exact h
      · rename_i w ws hf
        have h1 := h.fifo_le .adcIn
        simp only [PerFifo.get_adcIn, hf, List.length_cons] at h1
        exact ((h.setFifo (q := .adcIn) (Nat.le_of_succ_le h1)).storeAdc hv w).setAdcFill he.2
    · simp only [hwEnabled, Bool.and_eq_true, decide_eq_true_eq] at he
      have hf : s.adcFill - 1 ≤ s.cfg.adcBufWords := le_trans (Nat.sub_le _ _) h.fill_le
      exact ((h.takeDraw.push (q := .adcOut) _ he.2).advance hv .adcRd).setAdcFill hf
    · simp only [hwEffect, dacSinkEffect]
      split
      · exact h
      · rename_i w ws hf
        have h1 := h.fifo_le .dacOut
        simp only [PerFifo.get_dacOut, hf, List.length_cons] at h1
        exact (h.setFifo (q := .dacOut) (Nat.le_of_succ_le h1)).setDacOut _
    · simp only [hwEffect, adcSourceEffect]
      split
      · rename_i hr
        exact h.takeDraw.push (q := .adcIn) _ hr
      · exact h.takeDraw.setAdcOverrun _
  · exact h

/-- Typing together with validity of the configuration, which is what steps keep. -/
def State.TypedValid (s : State) : Prop := s.Typed ∧ s.cfg.Valid

theorem State.TypedValid.hwStep {s : State} (h : s.TypedValid) (k : HwStep) :
    (hwStep k s).TypedValid := ⟨h.1.hwStep h.2 k, by rw [(hwStep_keeps k s).cfg]; exact h.2⟩

theorem State.TypedValid.runHw {s : State} (h : s.TypedValid) : (runHw s).TypedValid :=
  runHw_keeps_prop (P := State.TypedValid) (fun k _ ht => State.TypedValid.hwStep ht k)
    ⟨h.1.takeDraw, h.2⟩

theorem State.TypedValid.runOthers {s : State} (h : s.TypedValid) : (runOthers s).TypedValid :=
  runOthers_keeps_prop (P := State.TypedValid) (fun k _ _ ht => State.TypedValid.hwStep ht k)
    ⟨h.1.takeDraw, h.2⟩

theorem State.Typed.fifoReset {s : State} (h : s.Typed) (q : Fifo) : (fifoReset q s).Typed := by
  unfold Machine.fifoReset
  split
  · exact (h.setFifo (by simp)).setAdcOverrun _
  · exact h.setFifo (by simp)

theorem State.Typed.pointerReset {s : State} (h : s.Typed) (hv : s.cfg.Valid) :
    (pointerReset s).Typed :=
  { h with
    ptr_lt := by intro p; cases p <;> exact regionWords_pos hv _
    fill_le := Nat.zero_le _ }

theorem State.Typed.pointerHavoc {s : State} (h : s.Typed) (hv : s.cfg.Valid) :
    (pointerHavoc s).Typed := by
  unfold Machine.pointerHavoc
  have h1 := ((((h.havocPtr hv .dacWr).havocPtr hv .dacRd).havocPtr hv .adcWr).havocPtr hv
    .adcRd).havocFill
  simp only
  split <;> split
  · exact h1.havocDac.havocAdc
  · exact h1.havocAdc
  · exact h1.havocDac
  · exact h1

/-- Every pulse keeps a state of the spec one. -/
theorem State.Typed.pulse {s : State} (h : s.Typed) (hv : s.cfg.Valid) (t : Trig) :
    (pulse t s).Typed := by
  cases t <;> simp only [Machine.pulse] <;> split
  · exact ((h.havocFifo .dacIn).havocPtr hv .dacWr).havocDac
  · exact h.fifoReset _
  · exact (h.havocFifo .dacOut).havocPtr hv .dacRd
  · exact h.fifoReset _
  · exact (h.havocFifo .adcIn).takeDraw.setAdcOverrun _
  · exact h.fifoReset _
  · exact ((h.havocFifo .adcOut).havocPtr hv .adcRd).havocFill
  · exact h.fifoReset _
  · exact h.pointerHavoc hv
  · exact h.pointerReset hv

theorem State.Typed.havocPositions {s : State} (h : s.Typed) (hv : s.cfg.Valid) :
    (havocPositions s).Typed :=
  (((((((h.havocPtr hv .dacRd).havocPtr hv .adcWr).havocPtr hv .adcRd).havocFill).havocFifo
    .dacOut).havocFifo .adcIn).havocFifo .adcOut).havocAdc

end Sys2Proof.Machine
end

