-- ==== Sys2Proof/Laws/Flags.lean ====
section
/-! SUPPORT. Masks of named fields bit by bit, what a form-W transaction does to the flags, and what it
can do to the rest of the state. -/

namespace Sys2Proof.Machine

theorem getLsbD_bitMask (p i : Nat) : (bitMask p).getLsbD i = (decide (i = p) && decide (p < 32)) := by
  rw [bitMask, BitVec.getLsbD_shiftLeft]
  by_cases h : i = p
  · subst h; by_cases h2 : i < 32 <;> simp [h2]
  · have : ¬ (i - p = 0 ∧ ¬ i < p) := by omega
    by_cases h3 : i < p
    · simp [h, h3]
    · have h4 : i - p ≠ 0 := by omega
      simp [h, h3, h4]

theorem getLsbD_maskOf {c : Cfg} (hv : c.Valid) (f g : Flag) :
    (maskOf c f).getLsbD (c.pos.get g) = decide (g = f) := by
  rw [maskOf, getLsbD_bitMask]
  have h1 := hv.pos_lt f
  by_cases h : g = f
  · subst h; simp [h1]
  · have h2 : c.pos.get g ≠ c.pos.get f := fun he => h (hv.pos_inj _ _ he)
    simp [h, h2]

theorem foldl_or_getLsbD {α : Type} (m : α → Wire) (l : List α) (w : Wire) (i : Nat) :
    (l.foldl (fun a x => a ||| m x) w).getLsbD i
      = (w.getLsbD i || l.any fun x => (m x).getLsbD i) := by
  induction l generalizing w with
  | nil => simp
  | cons x l ih => rw [List.foldl_cons, ih]; simp [Bool.or_assoc]

theorem getLsbD_maskOfList (c : Cfg) (fs : List Flag) (i : Nat) :
    (maskOfList c fs).getLsbD i = fs.any fun f => (maskOf c f).getLsbD i := by
  rw [maskOfList, foldl_or_getLsbD]; simp

theorem getLsbD_maskOfList_pos {c : Cfg} (hv : c.Valid) (fs : List Flag) (g : Flag) :
    (maskOfList c fs).getLsbD (c.pos.get g) = decide (g ∈ fs) := by
  rw [getLsbD_maskOfList, Bool.eq_iff_iff]
  simp only [List.any_eq_true, decide_eq_true_eq]
  constructor
  · rintro ⟨f, hf, h⟩
    rw [getLsbD_maskOf hv, decide_eq_true_eq] at h
    exact h ▸ hf
  · intro h
    exact ⟨g, h, by rw [getLsbD_maskOf hv]; simp⟩

/-- The six masks together cover exactly the six positions (30_encoding.md R107). -/
theorem getLsbD_fieldsMask {c : Cfg} (hv : c.Valid) (i : Nat) :
    (fieldsMask c).getLsbD i = true ↔ ∃ f, c.pos.get f = i := by
  rw [fieldsMask, getLsbD_maskOfList]
  simp only [List.any_eq_true]
  constructor
  · rintro ⟨f, -, h⟩
    rw [maskOf, getLsbD_bitMask] at h
    simp only [Bool.and_eq_true, decide_eq_true_eq] at h
    exact ⟨f, h.1.symm⟩
  · rintro ⟨f, rfl⟩
    exact ⟨f, by cases f <;> simp [Flag.all], by rw [getLsbD_maskOf hv]; simp⟩

theorem ctrlAfter_get (c : Cfg) (mask value : Wire) (old : PerFlag Bool) (f : Flag) :
    (ctrlAfter c mask value old).get f = flagAfter c mask value old f := by cases f <;> rfl

@[simp] theorem flagPresent_dacWrite (c : Cfg) : flagPresent c .dacWrite = true := rfl
@[simp] theorem flagPresent_dacRead (c : Cfg) : flagPresent c .dacRead = true := rfl
@[simp] theorem flagPresent_adcWrite (c : Cfg) : flagPresent c .adcWrite = true := rfl
@[simp] theorem flagPresent_adcTransfer (c : Cfg) : flagPresent c .adcTransfer = true := rfl
@[simp] theorem flagPresent_adcDebug (c : Cfg) : flagPresent c .adcDebug = c.hasAdcDebug := rfl
@[simp] theorem flagPresent_adcsConnected (c : Cfg) : flagPresent c .adcsConnected = true := rfl

/-- A form-W transaction naming the fields `fs` with those of `vs` asserted, flag by flag (R144). -/
theorem flagAfter_lists {c : Cfg} (hv : c.Valid) (fs vs : List Flag) (old : PerFlag Bool) (f : Flag) :
    flagAfter c (maskOfList c fs) (maskOfList c vs) old f
      = if f ∈ fs ∧ flagPresent c f = true then decide (f ∈ vs) else old.get f := by
  rw [flagAfter, getLsbD_maskOfList_pos hv, getLsbD_maskOfList_pos hv]
  by_cases h1 : f ∈ fs <;> by_cases h2 : flagPresent c f = true <;> simp [h1, h2]

theorem maskOfList_singleton (c : Cfg) (f : Flag) : maskOfList c [f] = maskOf c f := by
  simp [maskOfList]

theorem maskOfList_nil (c : Cfg) : maskOfList c [] = 0#32 := rfl

/-- The flags after SET_BIT(f): f asserted, no other touched (40_transactions.md R141). -/
theorem ctrlAfter_setBit {c : Cfg} (hv : c.Valid) {f : Flag} (hp : flagPresent c f = true)
    (old : PerFlag Bool) : ctrlAfter c (maskOf c f) (maskOf c f) old = old.set f true := by
  apply PerFlag.ext_get
  intro g
  rw [ctrlAfter_get, ← maskOfList_singleton, flagAfter_lists hv]
  by_cases h : g = f
  · subst h; simp [hp]
  · simp [h, PerFlag.get_set_ne _ _ h]

/-- The flags after CLEAR_BIT(f): f clear, no other touched (R142). -/
theorem ctrlAfter_clearBit {c : Cfg} (hv : c.Valid) {f : Flag} (hp : flagPresent c f = true)
    (old : PerFlag Bool) : ctrlAfter c (maskOf c f) 0#32 old = old.set f false := by
  apply PerFlag.ext_get
  intro g
  rw [ctrlAfter_get, ← maskOfList_singleton, ← maskOfList_nil c, flagAfter_lists hv]
  by_cases h : g = f
  · subst h; simp [hp]
  · simp [h, PerFlag.get_set_ne _ _ h]

/-- What steps 3 and 4 of R153 leave: the flags and everything outside the two paths. -/
theorem ctrlChecks_keeps (old : PerFlag Bool) (s : State) :
    (ctrlChecks old s).ctrl = s.ctrl ∧ (ctrlChecks old s).cfg = s.cfg ∧
    (ctrlChecks old s).program = s.program ∧ (ctrlChecks old s).result = s.result ∧
    (ctrlChecks old s).fault = (s.fault || (s.ctrl.dacWrite && s.ctrl.dacRead)) := by
  have key : ∀ u : State, KeepsControl u (havocPositions u) := havocPositions_keeps
  unfold ctrlChecks
  simp only
  by_cases h1 : (s.ctrl.dacWrite && s.ctrl.dacRead) = true
  · rw [if_pos h1]
    split
    · have k := key (s.setFault true)
      exact ⟨k.ctrl, k.cfg, k.program, k.result, by rw [k.fault]; simp [h1]⟩
    · exact ⟨rfl, rfl, rfl, rfl, by simp [h1]⟩
  · rw [if_neg h1]
    have h1' : (s.ctrl.dacWrite && s.ctrl.dacRead) = false := by simpa using h1
    split
    · have k := key s
      exact ⟨k.ctrl, k.cfg, k.program, k.result, by rw [k.fault]; simp [h1']⟩
    · exact ⟨rfl, rfl, rfl, rfl, by simp [h1']⟩

/-- Without a both-asserted result and without a non-atomic entry the checks change nothing. -/
theorem ctrlChecks_quiet {old : PerFlag Bool} {s : State}
    (h1 : s.ctrl.dacWrite = true → s.ctrl.dacRead = true → s.fault = true)
    (h2 : (allT3 s.ctrl && !allT3 old && anyT3 old) = false) : ctrlChecks old s = s := by
  unfold ctrlChecks
  simp only [h2]
  by_cases h : (s.ctrl.dacWrite && s.ctrl.dacRead) = true
  · have hh := h
    simp only [Bool.and_eq_true] at hh
    have hf := h1 hh.1 hh.2
    rw [if_pos h]
    cases s
    simp only at hf
    subst hf
    rfl
  · simp [h]

theorem writeCtrl_ctrl (mask value : Wire) (s : State) :
    (writeCtrl mask value s).ctrl = ctrlAfter s.cfg mask value s.ctrl :=
  (ctrlChecks_keeps _ _).1

theorem writeCtrl_cfg (mask value : Wire) (s : State) : (writeCtrl mask value s).cfg = s.cfg :=
  (ctrlChecks_keeps _ _).2.1

theorem writeCtrl_program (mask value : Wire) (s : State) :
    (writeCtrl mask value s).program = s.program := (ctrlChecks_keeps _ _).2.2.1

theorem writeCtrl_result (mask value : Wire) (s : State) :
    (writeCtrl mask value s).result = s.result := (ctrlChecks_keeps _ _).2.2.2.1

theorem writeCtrl_fault (mask value : Wire) (s : State) : (writeCtrl mask value s).fault
    = (s.fault || ((writeCtrl mask value s).ctrl.dacWrite && (writeCtrl mask value s).ctrl.dacRead)) := by
  rw [writeCtrl_ctrl]; exact (ctrlChecks_keeps _ _).2.2.2.2

theorem State.Typed.ctrlChecks {s : State} (h : s.Typed) (hv : s.cfg.Valid) (old : PerFlag Bool) :
    (ctrlChecks old s).Typed := by
  have hu : (if s.ctrl.dacWrite && s.ctrl.dacRead then s.setFault true else s).TypedValid := by
    split
    · exact ⟨h.setFault true, hv⟩
    · exact ⟨h, hv⟩
  unfold Machine.ctrlChecks
  simp only
  generalize (if s.ctrl.dacWrite && s.ctrl.dacRead then s.setFault true else s) = u at hu ⊢
  split
  · exact hu.1.havocPositions hu.2
  · exact hu.1

theorem State.Typed.writeCtrl {s : State} (h : s.Typed) (hv : s.cfg.Valid) (mask value : Wire) :
    (writeCtrl mask value s).Typed :=
  State.Typed.ctrlChecks (s := s.setCtrl (ctrlAfter s.cfg mask value s.ctrl))
    (h.congr rfl rfl rfl rfl rfl rfl) hv _

/-- SET_BIT(f) of a field the hardware has (R141). -/
theorem setBit_eq {s : State} (hv : s.cfg.Valid) {f : Flag} (hp : flagPresent s.cfg f = true) :
    setBit f s = ctrlChecks s.ctrl (s.setCtrl (s.ctrl.set f true)) := by
  rw [setBit, writeCtrl, ctrlAfter_setBit hv hp]

/-- CLEAR_BIT(f) of a field the hardware has: "steps 3 and 4 can never fire on a clear" (R142), step 3
meaning that the mark is not set anew. -/
theorem clearBit_eq {s : State} (hv : s.cfg.Valid) (hx : s.Excl) {f : Flag}
    (hp : flagPresent s.cfg f = true) : clearBit f s = s.setCtrl (s.ctrl.set f false) := by
  rw [clearBit, writeCtrl, ctrlAfter_clearBit hv hp]
  apply ctrlChecks_quiet
  · intro h1 h2
    apply hx
    · cases f <;> simp_all [PerFlag.set]
    · cases f <;> simp_all [PerFlag.set]
  · cases f <;> cases h1 : s.ctrl.adcWrite <;> cases h2 : s.ctrl.dacRead <;>
      cases h3 : s.ctrl.adcTransfer <;> simp [allT3, anyT3, PerFlag.set, h1, h2, h3]

/-- What any register transaction keeps: configuration, program and result. -/
theorem runTxn_keeps (t : Txn) (s : State) : (runTxn t s).cfg = s.cfg ∧
    (runTxn t s).program = s.program ∧ (runTxn t s).result = s.result := by
  cases t
  · exact ⟨writeCtrl_cfg _ _ s, writeCtrl_program _ _ s, writeCtrl_result _ _ s⟩
  · exact ⟨writeCtrl_cfg _ _ s, writeCtrl_program _ _ s, writeCtrl_result _ _ s⟩
  · exact ⟨writeCtrl_cfg _ _ s, writeCtrl_program _ _ s, writeCtrl_result _ _ s⟩
  · rename_i t
    have k := pulse_keeps t s
    exact ⟨k.cfg, k.program, k.result⟩

/-- What every register transaction and every gap keeps holds after an expansion. -/
theorem issue_keeps_prop {P : State → Prop} {ts : List Txn}
    (ht : ∀ t ∈ ts, ∀ s, P s → P (runTxn t s)) (hg : ∀ s, P s → P (runHw s)) {s : State}
    (h0 : P s) : P (issue ts s) := by
  cases ts with
  | nil => exact h0
  | cons t ts =>
    have h1 := ht t List.mem_cons_self s h0
    have h2 : ∀ t ∈ ts, ∀ s, P s → P (runTxn t s) := fun u hu => ht u (List.mem_cons_of_mem _ hu)
    show P (ts.foldl (fun s t => runTxn t (runHw s)) (runTxn t s))
    generalize runTxn t s = u at h1
    clear ht h0
    induction ts generalizing u with
    | nil => exact h1
    | cons v ts ih =>
      exact ih (fun w hw => h2 w (List.mem_cons_of_mem _ hw)) _
        (h2 v List.mem_cons_self _ (hg _ h1))

theorem runTxn_typedValid (t : Txn) {s : State} (h : s.TypedValid) : (runTxn t s).TypedValid := by
  refine ⟨?_, by rw [(runTxn_keeps t s).1]; exact h.2⟩
  cases t
  · exact h.1.writeCtrl h.2 _ _
  · exact h.1.writeCtrl h.2 _ _
  · exact h.1.writeCtrl h.2 _ _
  · exact h.1.pulse h.2 _

theorem issue_typedValid (ts : List Txn) {s : State} (h : s.TypedValid) :
    (issue ts s).TypedValid :=
  issue_keeps_prop (P := State.TypedValid) (fun t _ _ hs => runTxn_typedValid t hs)
    (fun _ hs => hs.runHw) h

/-! ### The refusal checks, and the whole of a form-W transaction -/

theorem and_not_eq_zero {x y : Wire} (h : ∀ i, x.getLsbD i = true → y.getLsbD i = true) :
    x &&& ~~~ y = 0#32 := by
  apply BitVec.eq_of_getLsbD_eq
  intro i hi
  have hy := h i
  cases hx : x.getLsbD i
  · simp [hx]
  · simp [hx, hy hx]

/-- A mask of some fields lies inside a mask of those fields and others. -/
theorem maskOfList_and_not {c : Cfg} {fs gs : List Flag} (h : ∀ f ∈ fs, f ∈ gs) :
    maskOfList c fs &&& ~~~ maskOfList c gs = 0#32 := by
  apply and_not_eq_zero
  intro i hi
  rw [getLsbD_maskOfList, List.any_eq_true] at hi ⊢
  obtain ⟨f, hf, hb⟩ := hi
  exact ⟨f, h f hf, hb⟩

theorem Flag.mem_all (f : Flag) : f ∈ Flag.all := by cases f <;> simp [Flag.all]

/-- A transaction on named fields is never refused (40_transactions.md R154: "the controller never issues
one"). -/
theorem formW_lists {c : Cfg} {fs vs : List Flag} (h : ∀ f ∈ vs, f ∈ fs) {s : State}
    (hc : s.cfg = c) : formW (maskOfList c fs) (maskOfList c vs) s
      = .next (finish .done (writeCtrl (maskOfList c fs) (maskOfList c vs) s)) := by
  subst hc
  have h1 : maskOfList s.cfg fs &&& ~~~ fieldsMask s.cfg = 0#32 :=
    maskOfList_and_not fun f _ => Flag.mem_all f
  have h2 : maskOfList s.cfg vs &&& ~~~ maskOfList s.cfg fs = 0#32 := maskOfList_and_not h
  rw [formW, if_neg (by simp [h1]), if_neg (by simp [h2])]

/-- Steps 3 and 4 of R153 as `FlagsWritten` says them. -/
theorem ctrlChecks_flagsWritten {s : State} (hv : s.cfg.Valid) (new : PerFlag Bool) :
    FlagsWritten s new (finish .done (ctrlChecks s.ctrl (s.setCtrl new))) := by
  have hf : (if (s.setCtrl new).ctrl.dacWrite && (s.setCtrl new).ctrl.dacRead
      then (s.setCtrl new).setFault true else s.setCtrl new)
      = { s with ctrl := new, fault := s.fault || (new.dacWrite && new.dacRead) } := by
    show (if new.dacWrite && new.dacRead then (s.setCtrl new).setFault true else s.setCtrl new) = _
    split
    · rename_i h; rw [h, Bool.or_true]; rfl
    · rename_i h
      rw [Bool.not_eq_true] at h
      rw [h, Bool.or_false]; rfl
  have he : (allT3 new && !allT3 s.ctrl && anyT3 s.ctrl) = nonAtomicEntry s.ctrl new := rfl
  unfold ctrlChecks
  simp only
  rw [hf]
  show FlagsWritten s new (finish .done (if allT3 new && !allT3 s.ctrl && anyT3 s.ctrl then _ else _))
  rw [he]
  unfold FlagsWritten
  split
  · exact ⟨_, _, _, _, _, _, _, _, _, rfl, Nat.mod_lt _ hv.sampleSize_pos,
      Nat.mod_lt _ hv.adcBufWords_pos, Nat.mod_lt _ hv.adcBufWords_pos,
      Nat.lt_succ_iff.1 (Nat.mod_lt _ (Nat.succ_pos _)), freeFifo_length _ _, freeFifo_length _ _,
      freeFifo_length _ _, Memory.wf_region _ _ _, Memory.within_region _ _ _⟩
  · rfl

/-- The whole of a form-W transaction that is not refused (40_transactions.md R153). -/
theorem writeCtrl_flagsWritten {s : State} (hv : s.cfg.Valid) (mask value : Wire) :
    FlagsWritten s (ctrlAfter s.cfg mask value s.ctrl) (finish .done (writeCtrl mask value s)) :=
  ctrlChecks_flagsWritten hv _

end Sys2Proof.Machine
end

