-- ==== Sys2Proof/Laws/Transfer.lean ====
section
/-! SUPPORT. What gaps and bulk transfers can do: the stopped paths of a state stay as they are, the words
of a transfer land where the rules say, and a state of the spec stays one. -/

namespace Sys2Proof.Machine

/-! ### Stopped paths -/

theorem WriteStopped.refl (s : State) : WriteStopped s s := fun _ => ⟨rfl, rfl, rfl⟩
theorem PlayStopped.refl (s : State) : PlayStopped s s := fun _ => ⟨rfl, rfl⟩
theorem CaptureStopped.refl (s : State) : CaptureStopped s s := fun _ => ⟨rfl, rfl, rfl, rfl⟩
theorem TransferStopped.refl (s : State) : TransferStopped s s := fun _ => ⟨rfl, rfl, fun _ => rfl⟩

theorem WriteStopped.trans {s t u : State} (hc : t.ctrl = s.ctrl) (h : WriteStopped s t)
    (k : WriteStopped t u) : WriteStopped s u := fun e => by
  obtain ⟨a1, a2, a3⟩ := h e
  obtain ⟨b1, b2, b3⟩ := k (by rw [hc]; exact e)
  exact ⟨b1.trans a1, b2.trans a2, b3.trans a3⟩

theorem PlayStopped.trans {s t u : State} (hc : t.ctrl = s.ctrl) (h : PlayStopped s t)
    (k : PlayStopped t u) : PlayStopped s u := fun e => by
  obtain ⟨a1, a2⟩ := h e
  obtain ⟨b1, b2⟩ := k (by rw [hc]; exact e)
  exact ⟨b1.trans a1, b2.trans a2⟩

theorem CaptureStopped.trans {s t u : State} (hc : t.ctrl = s.ctrl) (h : CaptureStopped s t)
    (k : CaptureStopped t u) : CaptureStopped s u := fun e => by
  obtain ⟨a1, a2, a3, a4⟩ := h e
  obtain ⟨b1, b2, b3, b4⟩ := k (by rw [hc]; exact e)
  exact ⟨b1.trans a1, b2.trans a2, b3.trans a3, b4.trans a4⟩

theorem TransferStopped.trans {s t u : State} (hc : t.ctrl = s.ctrl) (h : TransferStopped s t)
    (k : TransferStopped t u) : TransferStopped s u := fun e => by
  obtain ⟨a1, a2, a3⟩ := h e
  obtain ⟨b1, b2, b3⟩ := k (by rw [hc]; exact e)
  exact ⟨b1.trans a1, b2.trans a2, fun e2 => (b3 (by rw [hc]; exact e2)).trans (a3 e2)⟩

/-- All four paths together, with the flags that gate them. -/
structure Stopped (s t : State) : Prop where
  ctrl : t.ctrl = s.ctrl
  write : WriteStopped s t
  play : PlayStopped s t
  capture : CaptureStopped s t
  transfer : TransferStopped s t

theorem Stopped.refl (s : State) : Stopped s s :=
  ⟨rfl, .refl s, .refl s, .refl s, .refl s⟩

theorem Stopped.trans {s t u : State} (h : Stopped s t) (k : Stopped t u) : Stopped s u :=
  ⟨k.ctrl.trans h.ctrl, h.write.trans h.ctrl k.write, h.play.trans h.ctrl k.play,
    h.capture.trans h.ctrl k.capture, h.transfer.trans h.ctrl k.transfer⟩

theorem takeDraw_stopped (s : State) : Stopped s (takeDraw s) :=
  ⟨rfl, fun _ => ⟨rfl, rfl, rfl⟩, fun _ => ⟨rfl, rfl⟩, fun _ => ⟨rfl, rfl, rfl, rfl⟩,
    fun _ => ⟨rfl, rfl, fun _ => rfl⟩⟩

/-- No step moves anything on a path whose enable is clear (10_state.md R27 to R30), but for DAC_SINK. -/
theorem hwStep_stopped (h : HwStep) (s : State) : Stopped s (hwStep h s) := by
  refine ⟨(hwStep_keeps h s).ctrl, ?_, ?_, ?_, ?_⟩ <;> intro e <;> unfold hwStep <;> split
  all_goals first
    | exact ⟨rfl, rfl, rfl⟩
    | exact ⟨rfl, rfl⟩
    | exact ⟨rfl, rfl, rfl, rfl⟩
    | exact ⟨rfl, rfl, fun _ => rfl⟩
    | skip
  all_goals (rename_i he; simp only [Bool.and_eq_true] at he; obtain ⟨he, -⟩ := he)
  · cases h <;> simp only [hwEnabled, e, Bool.false_and, Bool.false_eq_true] at he <;>
      simp only [hwEffect, dacPlayEffect, adcStoreEffect, adcFetchEffect, dacSinkEffect,
        adcSourceEffect] <;>
      first | exact ⟨rfl, rfl, rfl⟩ | (split <;> exact ⟨rfl, rfl, rfl⟩)
  · cases h <;> simp only [hwEnabled, e, Bool.false_and, Bool.false_eq_true] at he <;>
      simp only [hwEffect, dacFillEffect, adcStoreEffect, adcFetchEffect, dacSinkEffect,
        adcSourceEffect] <;>
      first
      | exact ⟨rfl, rfl⟩
      | (split <;> first
          | exact ⟨rfl, rfl⟩
          | (rename_i w ws hf
             refine ⟨rfl, ?_⟩
             show (s.dacOut ++ [w]) ++ ws = _
             rw [hf]; simp))
  · cases h <;> simp only [hwEnabled, e, Bool.false_and, Bool.false_eq_true] at he <;>
      simp only [hwEffect, dacFillEffect, dacPlayEffect, adcFetchEffect, dacSinkEffect] <;>
      first | exact ⟨rfl, rfl, rfl, rfl⟩ | (split <;> exact ⟨rfl, rfl, rfl, rfl⟩)
  · cases h <;> simp only [hwEnabled, e, Bool.false_and, Bool.false_eq_true] at he <;>
      simp only [hwEffect, dacFillEffect, dacPlayEffect, adcStoreEffect, dacSinkEffect,
        adcSourceEffect] <;>
      first
      | exact ⟨rfl, rfl, fun _ => rfl⟩
      | (split <;> first
          | exact ⟨rfl, rfl, fun _ => rfl⟩
          | exact ⟨rfl, rfl, fun e2 => by
              simp only [e2, Bool.false_and, Bool.false_eq_true] at he⟩)

theorem runSteps_stopped (hs : List HwStep) (s : State) : Stopped s (runSteps hs s) :=
  runSteps_keeps_prop (P := Stopped s) (fun h _ t ht => ht.trans (hwStep_stopped h t)) (.refl s)

theorem runHw_stopped (s : State) : Stopped s (runHw s) :=
  (takeDraw_stopped s).trans (runSteps_stopped _ _)

theorem runOthers_stopped (s : State) : Stopped s (runOthers s) :=
  (takeDraw_stopped s).trans (runSteps_stopped _ _)

/-- No step but DAC_FILL moves anything on the write path, whatever the enables (40_transactions.md
R149: "they touch none of fifo[DacIn], ptr[DacWr], ddr_dac"). -/
theorem hwStep_write {h : HwStep} (hne : h ≠ .dacFill) (s : State) :
    (hwStep h s).fifo.dacIn = s.fifo.dacIn ∧ (hwStep h s).ptr.dacWr = s.ptr.dacWr ∧
      (hwStep h s).ddrDac = s.ddrDac := by
  unfold hwStep; split
  · cases h
    · exact absurd rfl hne
    · exact ⟨rfl, rfl, rfl⟩
    · simp only [hwEffect, adcStoreEffect]; split <;> exact ⟨rfl, rfl, rfl⟩
    · exact ⟨rfl, rfl, rfl⟩
    · simp only [hwEffect, dacSinkEffect]; split <;> exact ⟨rfl, rfl, rfl⟩
    · simp only [hwEffect, adcSourceEffect]; split <;> exact ⟨rfl, rfl, rfl⟩
  · exact ⟨rfl, rfl, rfl⟩

theorem runOthers_write (s : State) :
    (runOthers s).fifo.dacIn = s.fifo.dacIn ∧ (runOthers s).ptr.dacWr = s.ptr.dacWr ∧
      (runOthers s).ddrDac = s.ddrDac :=
  runOthers_keeps_prop (P := fun t => t.fifo.dacIn = s.fifo.dacIn ∧ t.ptr.dacWr = s.ptr.dacWr ∧
      t.ddrDac = s.ddrDac)
    (fun h hne t ht => by
      obtain ⟨a, b, c⟩ := hwStep_write hne t
      exact ⟨a.trans ht.1, b.trans ht.2.1, c.trans ht.2.2⟩) ⟨rfl, rfl, rfl⟩

/-- What was played only grows (10_state.md R43). -/
theorem hwStep_dacOut (h : HwStep) (s : State) : ∃ ws, (hwStep h s).dacOut = s.dacOut ++ ws := by
  unfold hwStep; split
  · cases h
    · simp only [hwEffect, dacFillEffect]; split <;> exact ⟨[], (List.append_nil _).symm⟩
    · exact ⟨[], (List.append_nil _).symm⟩
    · simp only [hwEffect, adcStoreEffect]; split <;> exact ⟨[], (List.append_nil _).symm⟩
    · exact ⟨[], (List.append_nil _).symm⟩
    · simp only [hwEffect, dacSinkEffect]
      split
      · exact ⟨[], (List.append_nil _).symm⟩
      · exact ⟨_, rfl⟩
    · simp only [hwEffect, adcSourceEffect]; split <;> exact ⟨[], (List.append_nil _).symm⟩
  · exact ⟨[], (List.append_nil _).symm⟩

/-- The history relation is kept along any operations that keep it. -/
def Played (s t : State) : Prop := ∃ ws, t.dacOut = s.dacOut ++ ws

theorem Played.of_eq {s t : State} (h : t.dacOut = s.dacOut) : Played s t :=
  ⟨[], by rw [h, List.append_nil]⟩

theorem Played.trans {s t u : State} (h : Played s t) (k : Played t u) : Played s u := by
  obtain ⟨a, ha⟩ := h
  obtain ⟨b, hb⟩ := k
  exact ⟨a ++ b, by rw [hb, ha, List.append_assoc]⟩

theorem runSteps_played (hs : List HwStep) (s : State) : Played s (runSteps hs s) :=
  runSteps_keeps_prop (P := Played s) (fun h _ t ht => ht.trans (hwStep_dacOut h t)) (.of_eq rfl)

theorem runHw_played (s : State) : Played s (runHw s) :=
  Played.trans (t := takeDraw s) (.of_eq rfl) (runSteps_played _ _)

theorem runOthers_played (s : State) : Played s (runOthers s) :=
  Played.trans (t := takeDraw s) (.of_eq rfl) (runSteps_played _ _)

/-! ### Words on their way to the DAC region -/

/-- Nothing of the write path but the DAC region and its pointer changes where a word is stored. -/
theorem storeDac_fields (w : Word) (s : State) :
    (storeDac w s).fifo = s.fifo ∧ (storeDac w s).dacOut = s.dacOut ∧
    (storeDac w s).ptr.dacRd = s.ptr.dacRd ∧ (storeDac w s).adcFill = s.adcFill ∧
    (storeDac w s).ddrDac = Memory.writeWord s.ddrDac s.ptr.dacWr w ∧
    (storeDac w s).ptr.dacWr = (s.ptr.dacWr + 1) % s.cfg.sampleSize := ⟨rfl, rfl, rfl, rfl, rfl, rfl⟩

theorem WordsStored.nil (size p : Nat) (m : List Host.Cell) : WordsStored size p [] m m :=
  ⟨fun i h => absurd h (Nat.not_lt_zero i), fun _ _ => rfl⟩

theorem Memory.readByte_writeWord_ne (m : List Host.Cell) {k a : Nat} (w : Word) (h : a / 16 ≠ k) :
    Memory.readByte (Memory.writeWord m k w) a = Memory.readByte m a := by
  rw [Memory.readByte_writeWord]
  rw [if_neg]
  omega

/-- One more word in front: the first word at `p`, the rest from the next address on. -/
theorem WordsStored.cons {size p : Nat} {w : Word} {ws : List Word} {m m' : List Host.Cell}
    (hp : p < size)
    (h : WordsStored size ((p + 1) % size) ws (Memory.writeWord m p w) m') :
    WordsStored size p (w :: ws) m m' := by
  have hmod : ∀ j, ((p + 1) % size + j) % size = (p + (j + 1)) % size := fun j => by
    rw [Nat.mod_add_mod]; congr 1; omega
  constructor
  · intro i hi hlast
    cases i with
    | zero =>
      simp only [Nat.add_zero, List.getElem_cons_zero]
      rw [Nat.mod_eq_of_lt hp]
      have hun : ∀ a, a / 16 = p →
          Memory.readByte m' a = Memory.readByte (Memory.writeWord m p w) a := fun a ha => by
        apply h.2
        intro j hj he
        refine hlast (j + 1) (Nat.succ_pos _) (by simpa using hj) ?_
        rw [← hmod, ← he, ha, Nat.add_zero, Nat.mod_eq_of_lt hp]
      rw [← Memory.readWord_writeWord_same m p w]
      apply Memory.readWord_congr
      intro j hj
      apply hun
      omega
    | succ i =>
      have h1 := h.1 i (by simpa using hi) fun j hij hj => by
        rw [hmod, hmod]
        exact hlast (j + 1) (Nat.succ_lt_succ hij) (by simpa using hj)
      rw [hmod] at h1
      simpa using h1
  · intro a ha
    rw [h.2 a fun j hj => by
      rw [hmod]
      exact ha (j + 1) (by simpa using hj)]
    apply Memory.readByte_writeWord_ne
    have h0 := ha 0 (Nat.succ_pos _)
    rwa [Nat.add_zero, Nat.mod_eq_of_lt hp] at h0

/-- Words stored in order with gaps between: where they land, and what else is kept (R149). -/
theorem storeAll_stored {ws : List Word} {s : State} (hp : s.ptr.dacWr < s.cfg.sampleSize) :
    WordsStored s.cfg.sampleSize s.ptr.dacWr ws s.ddrDac (storeAll ws s).ddrDac ∧
    (storeAll ws s).ptr.dacWr = (s.ptr.dacWr + ws.length) % s.cfg.sampleSize ∧
    (storeAll ws s).fifo.dacIn = s.fifo.dacIn := by
  induction ws generalizing s with
  | nil => exact ⟨.nil _ _ _, (Nat.mod_eq_of_lt hp).symm, rfl⟩
  | cons w ws ih =>
    obtain ⟨o1, o2, o3⟩ := runOthers_write s
    have oc := (runOthers_keeps s).cfg
    have hsz : 0 < s.cfg.sampleSize := Nat.zero_lt_of_lt hp
    set t := storeDac w (runOthers s) with ht
    have tc : t.cfg = s.cfg := oc
    have tp : t.ptr.dacWr = (s.ptr.dacWr + 1) % s.cfg.sampleSize := by
      rw [ht, (storeDac_fields w _).2.2.2.2.2, o2, oc]
    have tm : t.ddrDac = Memory.writeWord s.ddrDac s.ptr.dacWr w := by
      rw [ht, (storeDac_fields w _).2.2.2.2.1, o2, o3]
    have tf : t.fifo.dacIn = s.fifo.dacIn := by rw [ht, (storeDac_fields w _).1, o1]
    obtain ⟨i1, i2, i3⟩ := ih (s := t) (by rw [tp, tc]; exact Nat.mod_lt _ hsz)
    rw [tc, tp, tm] at i1
    rw [tc, tp] at i2
    refine ⟨WordsStored.cons hp i1, ?_, i3.trans tf⟩
    show (storeAll ws t).ptr.dacWr = _
    rw [i2, Nat.mod_add_mod, List.length_cons]
    congr 1
    omega

theorem pushAll_fields (ws : List Word) (s : State) :
    (pushAll ws s).fifo.dacIn = s.fifo.dacIn ++ ws ∧ (pushAll ws s).ptr.dacWr = s.ptr.dacWr ∧
      (pushAll ws s).ddrDac = s.ddrDac := by
  induction ws generalizing s with
  | nil => exact ⟨(List.append_nil _).symm, rfl, rfl⟩
  | cons w ws ih =>
    obtain ⟨o1, o2, o3⟩ := runOthers_write s
    obtain ⟨i1, i2, i3⟩ := ih (push .dacIn w (runOthers s))
    refine ⟨?_, i2.trans o2, i3.trans o3⟩
    show (pushAll ws (push .dacIn w (runOthers s))).fifo.dacIn = _
    rw [i1]
    show ((runOthers s).fifo.dacIn ++ [w]) ++ ws = _
    rw [o1]; simp

/-! ### The other paths during a bulk write -/

/-- The three paths a bulk write does not act on. -/
structure OthersStopped (s t : State) : Prop where
  ctrl : t.ctrl = s.ctrl
  play : PlayStopped s t
  capture : CaptureStopped s t
  transfer : TransferStopped s t

theorem Stopped.others {s t : State} (h : Stopped s t) : OthersStopped s t :=
  ⟨h.ctrl, h.play, h.capture, h.transfer⟩

theorem OthersStopped.refl (s : State) : OthersStopped s s := (Stopped.refl s).others

theorem OthersStopped.trans {s t u : State} (h : OthersStopped s t) (k : OthersStopped t u) :
    OthersStopped s u :=
  ⟨k.ctrl.trans h.ctrl, h.play.trans h.ctrl k.play, h.capture.trans h.ctrl k.capture,
    h.transfer.trans h.ctrl k.transfer⟩

/-- An operation that writes the write path alone. -/
theorem OthersStopped.of_write {s t : State} (hc : t.ctrl = s.ctrl) (h1 : t.ptr.dacRd = s.ptr.dacRd)
    (h2 : t.dacOut = s.dacOut) (h3 : t.fifo.dacOut = s.fifo.dacOut)
    (h4 : t.fifo.adcIn = s.fifo.adcIn) (h5 : t.ptr.adcWr = s.ptr.adcWr) (h6 : t.ddrAdc = s.ddrAdc)
    (h7 : t.adcOverrun = s.adcOverrun) (h8 : t.fifo.adcOut = s.fifo.adcOut)
    (h9 : t.ptr.adcRd = s.ptr.adcRd) (h10 : t.adcFill = s.adcFill) : OthersStopped s t :=
  ⟨hc, fun _ => ⟨h1, by rw [h2, h3]⟩, fun _ => ⟨h4, h5, h6, h7⟩, fun _ => ⟨h8, h9, fun _ => h10⟩⟩

theorem setFifo_dacIn_others (ws : List Word) (s : State) :
    OthersStopped s (setFifo .dacIn ws s) :=
  .of_write rfl rfl rfl rfl rfl rfl rfl rfl rfl rfl rfl

theorem storeDac_others (w : Word) (s : State) : OthersStopped s (storeDac w s) :=
  .of_write rfl rfl rfl rfl rfl rfl rfl rfl rfl rfl rfl

theorem storeAll_others (ws : List Word) (s : State) : OthersStopped s (storeAll ws s) := by
  induction ws generalizing s with
  | nil => exact .refl s
  | cons w ws ih =>
    exact ((runOthers_stopped s).others.trans (storeDac_others w _)).trans (ih _)

theorem pushAll_others (ws : List Word) (s : State) : OthersStopped s (pushAll ws s) := by
  induction ws generalizing s with
  | nil => exact .refl s
  | cons w ws ih =>
    exact ((runOthers_stopped s).others.trans (setFifo_dacIn_others _ _)).trans (ih _)

theorem completeWrite_others (ws : List Word) (s : State) :
    OthersStopped s (completeWrite ws s) := by
  unfold completeWrite; split
  · exact (((setFifo_dacIn_others _ s).trans (storeAll_others _ _)).trans
      (setFifo_dacIn_others _ _)).trans (runOthers_stopped _).others
  · exact (pushAll_others _ _).trans (runOthers_stopped _).others

theorem failedWrite_others (ws : List Word) (s : State) : OthersStopped s (failedWrite ws s) :=
  failedWrite_keeps_prop (P := OthersStopped s)
    (fun t ht => ht.trans (takeDraw_stopped t).others)
    (fun ws t _ ht => ht.trans (storeAll_others ws t))
    (fun t ht => ht.trans (runOthers_stopped t).others)
    (fun _ ht => ht.trans (.of_write rfl rfl rfl rfl rfl rfl rfl rfl rfl rfl rfl))
    (fun _ ht => ht.trans (.of_write rfl rfl rfl rfl rfl rfl rfl rfl rfl rfl rfl))
    (fun _ ht => ht.trans (.of_write rfl rfl rfl rfl rfl rfl rfl rfl rfl rfl rfl)) ws (.refl s)

theorem pipeWrite_others (data : List Byte) (s : State) : OthersStopped s (pipeWrite data s).2 := by
  unfold pipeWrite; split
  · exact .refl s
  · split
    · exact (takeDraw_stopped s).others.trans (completeWrite_others _ _)
    · exact (takeDraw_stopped s).others.trans (failedWrite_others _ _)

/-! ### What was played, through every building block of a call -/

theorem setFifo_played (q : Fifo) (ws : List Word) (s : State) : Played s (setFifo q ws s) := .of_eq rfl
theorem setPtr_played (p : Ptr) (v : Nat) (s : State) : Played s (setPtr p v s) := .of_eq rfl
theorem takeDraw_played (s : State) : Played s (takeDraw s) := .of_eq rfl
theorem havocFifo_played (q : Fifo) (s : State) : Played s (havocFifo q s) := .of_eq rfl
theorem havocPtr_played (p : Ptr) (s : State) : Played s (havocPtr p s) := .of_eq rfl
theorem havocFill_played (s : State) : Played s (havocFill s) := .of_eq rfl
theorem havocDac_played (s : State) : Played s (havocDac s) := .of_eq rfl
theorem havocAdc_played (s : State) : Played s (havocAdc s) := .of_eq rfl
theorem havocOverrun_played (s : State) : Played s (havocOverrun s) := .of_eq rfl

theorem havocPositions_played (s : State) : Played s (havocPositions s) :=
  ((((((((havocPtr_played _ _).trans (havocPtr_played _ _)).trans (havocPtr_played _ _)).trans
    (havocFill_played _)).trans (havocFifo_played _ _)).trans (havocFifo_played _ _)).trans
    (havocFifo_played _ _)).trans (havocAdc_played _))

theorem pointerHavoc_played (s : State) : Played s (pointerHavoc s) := by
  have h := ((((havocPtr_played .dacWr s).trans (havocPtr_played .dacRd _)).trans
    (havocPtr_played .adcWr _)).trans (havocPtr_played .adcRd _)).trans (havocFill_played _)
  unfold pointerHavoc
  simp only
  split <;> split
  · exact (h.trans (havocDac_played _)).trans (havocAdc_played _)
  · exact h.trans (havocAdc_played _)
  · exact h.trans (havocDac_played _)
  · exact h

theorem fifoReset_played (q : Fifo) (s : State) : Played s (fifoReset q s) := by
  unfold fifoReset; split <;> exact .of_eq rfl

theorem pulse_played (t : Trig) (s : State) : Played s (pulse t s) := by
  cases t <;> simp only [pulse] <;> split
  · exact ((havocFifo_played _ _).trans (havocPtr_played _ _)).trans (havocDac_played _)
  · exact fifoReset_played _ _
  · exact (havocFifo_played _ _).trans (havocPtr_played _ _)
  · exact fifoReset_played _ _
  · exact (havocFifo_played _ _).trans (havocOverrun_played _)
  · exact fifoReset_played _ _
  · exact ((havocFifo_played _ _).trans (havocPtr_played _ _)).trans (havocFill_played _)
  · exact fifoReset_played _ _
  · exact pointerHavoc_played _
  · exact .of_eq rfl

theorem ctrlChecks_played (old : PerFlag Bool) (s : State) : Played s (ctrlChecks old s) := by
  have h : Played s (if s.ctrl.dacWrite && s.ctrl.dacRead then s.setFault true else s) := by
    split <;> exact .of_eq rfl
  unfold ctrlChecks
  simp only
  split
  · exact h.trans (havocPositions_played _)
  · exact h

theorem writeCtrl_played (mask value : Wire) (s : State) : Played s (writeCtrl mask value s) :=
  Played.trans (t := s.setCtrl (ctrlAfter s.cfg mask value s.ctrl)) (.of_eq rfl)
    (ctrlChecks_played _ _)

theorem storeAll_played (ws : List Word) (s : State) : Played s (storeAll ws s) := by
  induction ws generalizing s with
  | nil => exact .of_eq rfl
  | cons w ws ih =>
    exact ((runOthers_played s).trans (.of_eq (storeDac_fields w _).2.1)).trans (ih _)

theorem pushAll_played (ws : List Word) (s : State) : Played s (pushAll ws s) := by
  induction ws generalizing s with
  | nil => exact .of_eq rfl
  | cons w ws ih => exact ((runOthers_played s).trans (setFifo_played _ _ _)).trans (ih _)

theorem completeWrite_played (ws : List Word) (s : State) : Played s (completeWrite ws s) := by
  unfold completeWrite; split
  · exact (((setFifo_played _ _ s).trans (storeAll_played _ _)).trans (setFifo_played _ _ _)).trans
      (runOthers_played _)
  · exact (pushAll_played _ _).trans (runOthers_played _)

theorem failedWrite_played (ws : List Word) (s : State) : Played s (failedWrite ws s) :=
  failedWrite_keeps_prop (P := Played s) (fun t ht => ht.trans (takeDraw_played t))
    (fun ws t _ ht => ht.trans (storeAll_played ws t)) (fun t ht => ht.trans (runOthers_played t))
    (fun t ht => ht.trans (havocFifo_played _ t)) (fun t ht => ht.trans (havocPtr_played _ t))
    (fun t ht => ht.trans (havocDac_played t)) ws (.of_eq rfl)

theorem failedRead_played (m : Nat) (s : State) : Played s (failedRead m s) :=
  failedRead_keeps_prop (P := Played s) (fun t ht => ht.trans (takeDraw_played t))
    (fun t ht => ht.trans (runHw_played t)) (fun t ht => ht.trans (setFifo_played _ _ t))
    (fun t ht => ht.trans (havocFifo_played _ t)) (fun t ht => ht.trans (havocPtr_played _ t))
    (fun t ht => ht.trans (havocFill_played t)) m (.of_eq rfl)

theorem pipeWrite_played (data : List Byte) (s : State) : Played s (pipeWrite data s).2 := by
  unfold pipeWrite; split
  · exact .of_eq rfl
  · split
    · exact (takeDraw_played s).trans (completeWrite_played _ _)
    · exact (takeDraw_played s).trans (failedWrite_played _ _)

theorem pipeRead_played (n : Nat) (s : State) : Played s (pipeRead n s).2.2 := by
  rcases pipeRead_cases n s with ⟨-, h⟩ | ⟨-, ws, t, ht, h⟩ | ⟨-, h⟩ <;> rw [h]
  · exact .of_eq rfl
  · exact (takeDraw_played s).trans (takes_keeps_prop (P := Played (takeDraw s))
      (fun u hu => hu.trans (runHw_played u)) (fun _ _ u _ hu => hu.trans (setFifo_played _ _ u)) ht
      (.of_eq rfl))
  · exact (takeDraw_played s).trans (failedRead_played _ _)

/-! ### Outcomes -/

theorem shortOutcome_lt {c : Cfg} (hv : c.Valid) {k n : Nat} (hn : 0 < n) :
    OutcomeOf c n (shortOutcome c k n) ∧ shortOutcome c k n ≠ n := by
  unfold shortOutcome
  split
  · rename_i h
    simp only [Bool.and_eq_true, Bool.not_eq_true', List.isEmpty_eq_false_iff] at h
    have hl : 0 < c.transportErrorCodes.length := List.length_pos_iff.2 h.2
    have hlt := Nat.mod_lt (Config.freeNat k 2) hl
    rw [List.getD_eq_getElem _ _ hlt]
    have hm := List.getElem_mem hlt
    have hneg := hv.codes_neg _ hm
    exact ⟨.inr (.inr hm), by omega⟩
  · have hlt := Nat.mod_lt (Config.freeNat k 1) hn
    exact ⟨.inr (.inl ⟨by omega, by omega⟩), by omega⟩

theorem stranded_le (s : State) (n : Nat) : stranded s n ≤ s.cfg.fifoDepth.dacIn ∧ stranded s n ≤ n := by
  unfold stranded
  split
  · exact ⟨Nat.zero_le _, Nat.zero_le _⟩
  · have h := Nat.lt_succ_iff.1
      (Nat.mod_lt (Config.freeNat s.draws 0) (Nat.succ_pos (min s.cfg.fifoDepth.dacIn n)))
    exact ⟨h.trans (Nat.min_le_left _ _), h.trans (Nat.min_le_right _ _)⟩

theorem stranded_drain {s : State} (h : s.cfg.aDrain = true) (n : Nat) : stranded s n = 0 := by
  simp [stranded, h]

/-- What a bulk write of at least one byte answers: the complete outcome where it is allowed, or a short
one (R149). -/
theorem pipeWrite_cases {data : List Byte} {s : State} (hd : data.length ≠ 0) :
    (writeAllowed data.length s = true ∧
      pipeWrite data s = ((data.length : Int), completeWrite (wordsOf data) (takeDraw s))) ∨
    pipeWrite data s
      = (shortOutcome s.cfg s.draws data.length, failedWrite (wordsOf data) (takeDraw s)) := by
  unfold pipeWrite
  rw [if_neg hd]
  split
  · rename_i h
    simp only [Bool.and_eq_true] at h
    exact .inl ⟨h.2, rfl⟩
  · exact .inr rfl

/-! ### A state of the spec stays one -/

theorem storeAll_typedValid (ws : List Word) {s : State} (h : s.TypedValid) :
    (storeAll ws s).TypedValid := by
  induction ws generalizing s with
  | nil => exact h
  | cons w ws ih =>
    have h1 := h.runOthers
    exact ih ⟨h1.1.storeDac h1.2 w, h1.2⟩

theorem pushAll_typedValid (ws : List Word) {s : State} (h : s.TypedValid)
    (hl : s.fifo.dacIn.length + ws.length ≤ s.cfg.fifoDepth.dacIn) :
    (pushAll ws s).TypedValid := by
  induction ws generalizing s with
  | nil => exact h
  | cons w ws ih =>
    have h1 := h.runOthers
    obtain ⟨o1, -, -⟩ := runOthers_write s
    have oc := (runOthers_keeps s).cfg
    rw [List.length_cons] at hl
    have hr : hasRoom (runOthers s) .dacIn = true := by
      simp only [hasRoom, PerFifo.get_dacIn, o1, oc, decide_eq_true_eq]; omega
    refine ih ⟨h1.1.push w hr, h1.2⟩ ?_
    show ((runOthers s).fifo.dacIn ++ [w]).length + ws.length ≤ (runOthers s).cfg.fifoDepth.dacIn
    rw [o1, oc, List.length_append, List.length_singleton]; omega

theorem wordsOf_length (d : List Byte) : (wordsOf d).length = d.length / 16 := by simp [wordsOf]

theorem completeWrite_typedValid {ws : List Word} {s : State} (h : s.TypedValid)
    (ha : s.ctrl.dacWrite = true ∨ s.fifo.dacIn.length + ws.length ≤ s.cfg.fifoDepth.dacIn) :
    (completeWrite ws s).TypedValid := by
  unfold completeWrite; split
  · have h1 : (setFifo .dacIn [] s).TypedValid := ⟨h.1.setFifo (Nat.zero_le _), h.2⟩
    have h2 := storeAll_typedValid ((s.fifo.dacIn ++ ws).take
      ((s.fifo.dacIn ++ ws).length - stranded s (s.fifo.dacIn ++ ws).length)) h1
    have hc : (storeAll ((s.fifo.dacIn ++ ws).take
      ((s.fifo.dacIn ++ ws).length - stranded s (s.fifo.dacIn ++ ws).length))
        (setFifo .dacIn [] s)).cfg = s.cfg := (storeAll_keeps _ _).cfg
    refine State.TypedValid.runOthers ⟨h2.1.setFifo ?_, h2.2⟩
    rw [hc, List.length_drop]
    have := stranded_le s (s.fifo.dacIn ++ ws).length
    show _ ≤ s.cfg.fifoDepth.dacIn
    omega
  · rename_i hw
    exact (pushAll_typedValid ws h (ha.resolve_left hw)).runOthers

theorem takeDraw_typedValid {s : State} (h : s.TypedValid) : (takeDraw s).TypedValid :=
  ⟨h.1.takeDraw, h.2⟩

theorem failedWrite_typedValid (ws : List Word) {s : State} (h : s.TypedValid) :
    (failedWrite ws s).TypedValid :=
  failedWrite_keeps_prop (P := State.TypedValid) (fun _ ht => takeDraw_typedValid ht)
    (fun ws _ _ ht => storeAll_typedValid ws ht) (fun _ ht => ht.runOthers)
    (fun _ ht => ⟨ht.1.havocFifo _, ht.2⟩) (fun _ ht => ⟨ht.1.havocPtr ht.2 _, ht.2⟩)
    (fun _ ht => ⟨ht.1.havocDac, ht.2⟩) ws h

theorem failedRead_typedValid (m : Nat) {s : State} (h : s.TypedValid) :
    (failedRead m s).TypedValid :=
  failedRead_keeps_prop (P := State.TypedValid) (fun _ ht => takeDraw_typedValid ht)
    (fun _ ht => ht.runHw)
    (fun t ht => ⟨ht.1.setFifo (by
      have h1 := ht.1.fifo_le .adcOut
      simp only [PerFifo.get_adcOut, List.length_drop] at h1 ⊢
      omega), ht.2⟩)
    (fun _ ht => ⟨ht.1.havocFifo _, ht.2⟩) (fun _ ht => ⟨ht.1.havocPtr ht.2 _, ht.2⟩)
    (fun _ ht => ⟨ht.1.havocFill, ht.2⟩) m h

theorem pipeWrite_typedValid (data : List Byte) {s : State} (h : s.TypedValid) :
    (pipeWrite data s).2.TypedValid := by
  by_cases hd : data.length = 0
  · unfold pipeWrite; rw [if_pos hd]; exact h
  · rcases pipeWrite_cases (s := s) hd with ⟨ha, he⟩ | he <;> rw [he]
    · refine completeWrite_typedValid (takeDraw_typedValid h) ?_
      simp only [writeAllowed, Bool.or_eq_true, decide_eq_true_eq] at ha
      rw [wordsOf_length]
      exact ha
    · exact failedWrite_typedValid _ (takeDraw_typedValid h)

theorem takes_typedValid {m : Nat} {s : State} {ws : List Word} {t : State}
    (h : takes m s = some (ws, t)) (hs : s.TypedValid) : t.TypedValid :=
  takes_keeps_prop (P := State.TypedValid) (fun _ hu => hu.runHw)
    (fun w rest u hf hu => ⟨hu.1.setFifo (by
      have h1 := hu.1.fifo_le .adcOut
      simp only [PerFifo.get_adcOut, hf, List.length_cons] at h1
      exact Nat.le_of_succ_le h1), hu.2⟩) h hs

theorem pipeRead_typedValid (n : Nat) {s : State} (h : s.TypedValid) :
    (pipeRead n s).2.2.TypedValid := by
  rcases pipeRead_cases n s with ⟨-, he⟩ | ⟨-, ws, t, ht, he⟩ | ⟨-, he⟩ <;> rw [he]
  · exact h
  · exact takes_typedValid ht (takeDraw_typedValid h)
  · exact failedRead_typedValid _ (takeDraw_typedValid h)

end Sys2Proof.Machine
end

