-- ==== Sys2Proof/Laws/Exec.lean ====
section
/-! SUPPORT. What any call can do: a property that results, draws, form-W transactions, pulses, steps and
bulk transfers keep is kept by every call. And the rows of a register primitive as one family. -/

namespace Sys2Proof.Machine

/-- A property every building block of a call that names no flag keeps. -/
structure KeepsPath (P : State → Prop) : Prop where
  result : ∀ r s, P s → P (s.setResult r)
  draw : ∀ s, P s → P (takeDraw s)
  pulse : ∀ t s, P s → P (pulse t s)
  step : ∀ h s, P s → P (hwStep h s)
  write : ∀ data s, P s → P (pipeWrite data s).2
  read : ∀ n s, P s → P (pipeRead n s).2.2

/-- A property every building block of a call keeps. -/
structure Keeps (P : State → Prop) : Prop extends KeepsPath P where
  form : ∀ mask value s, P s → P (writeCtrl mask value s)

theorem KeepsPath.gap {P : State → Prop} (k : KeepsPath P) {s : State} (h : P s) : P (runHw s) :=
  runHw_keeps_prop k.step (k.draw s h)

theorem Keeps.txn {P : State → Prop} (k : Keeps P) (t : Txn) {s : State} (h : P s) :
    P (runTxn t s) := by
  cases t
  · exact k.form _ _ s h
  · exact k.form _ _ s h
  · exact k.form _ _ s h
  · exact k.pulse _ s h

theorem Keeps.issue {P : State → Prop} (k : Keeps P) (ts : List Txn) {s : State} (h : P s) :
    P (issue ts s) :=
  issue_keeps_prop (fun t _ _ hs => k.txn t hs) (fun _ hs => k.toKeepsPath.gap hs) h

theorem Keeps.writeBufBody {P : State → Prop} (k : Keeps P) (frame : List Byte) (start : Bool)
    {s : State} (h : P s) : P (writeBufBody frame start s) := by
  have h1 : P (clearBit .dacWrite (runHw (pipeWrite frame (runHw (Machine.issue writeBufPrelude s))).2)) :=
    k.form _ _ _ (k.toKeepsPath.gap (k.write _ _ (k.toKeepsPath.gap (k.issue _ h))))
  unfold Machine.writeBufBody
  simp only
  split
  · split
    · exact k.result _ _ (k.issue _ (k.toKeepsPath.gap h1))
    · exact k.result _ _ h1
  · exact k.result _ _ h1

theorem guardDacWr_next {data : List Byte} {b : Bool} {s t u : State}
    (h : guardDacWr data b s (.next u) = .next t) : t = u := by
  unfold guardDacWr at h
  split at h
  · exact (Host.Outcome.next.inj h).symm
  · cases h

theorem hwTurn_next {h : HwStep} {s t : State} (he : hwTurn h s = .next t) : t = hwStep h s := by
  unfold hwTurn at he
  split at he
  · split at he
    · cases he
    · exact (Host.Outcome.next.inj he).symm
  · exact (Host.Outcome.next.inj he).symm

theorem Keeps.writeBuf {P : State → Prop} (k : Keeps P) {frame : List Byte} {start : Bool}
    {s t : State} (he : writeBuf frame start s = .next t) (h : P s) : P t := by
  unfold Machine.writeBuf at he
  split at he
  · rw [guardDacWr_next he]; exact k.writeBufBody _ _ h
  · rw [← Host.Outcome.next.inj he]; exact k.result _ _ h

theorem KeepsPath.pulses {P : State → Prop} (k : KeepsPath P) (ts : List Trig) {s : State} (h : P s) :
    P (issue (ts.map Txn.pulse) s) :=
  issue_keeps_prop (fun t ht u hu => by
    obtain ⟨x, -, rfl⟩ := List.mem_map.1 ht
    exact k.pulse x u hu) (fun _ hs => k.gap hs) h

theorem KeepsPath.pulseAll {P : State → Prop} (k : KeepsPath P) (ts : List Trig) {s : State}
    (h : P s) : P (pulseAll ts s) := by
  induction ts generalizing s with
  | nil => exact h
  | cons t ts ih => exact ih (k.pulse t s h)

/-- Every call that names no flag keeps what its building blocks keep (10_state.md R26, R48). -/
theorem KeepsPath.exec {P : State → Prop} (k : KeepsPath P) {i : Instr} {s t : State}
    (hi : namesFlags i = false) (he : exec i s = .next t) (h : P s) : P t := by
  cases i
  case setBitDacWrite | setBitDacRead | setBitAdcWrite | setBitAdcTransfer | setBitAdcDebug |
      setBitAdcsConnected | clearBitDacWrite | clearBitDacRead | clearBitAdcWrite |
      clearBitAdcTransfer | clearBitAdcDebug | clearBitAdcsConnected | atomicWriteStream |
      maskedWrite | atomicWrite | writeSetup | writeFinish | repeatSetup | writeBuf | writeChannels |
      setAdcDebug | clearAdcDebug =>
    cases hi
  case triggerRstDacIn | triggerRstDacOut | triggerRstAdcIn | triggerRstAdcOut | triggerRstPtr =>
    rw [← Host.Outcome.next.inj he]; exact k.result _ _ (k.pulse _ _ h)
  case triggerMask mask =>
    change execTriggerMask mask s = .next t at he
    unfold execTriggerMask at he
    split at he
    · cases he
    · rw [← Host.Outcome.next.inj he]; exact k.result _ _ (k.pulseAll _ h)
  case wireRead | fifoStatus =>
    rw [← Host.Outcome.next.inj he]; exact k.result _ _ (k.draw _ h)
  case pipeWrite data bs =>
    change execPipeWrite data bs s = .next t at he
    unfold execPipeWrite at he
    split at he
    · rw [guardDacWr_next he]; exact k.result _ _ (k.write _ _ h)
    · rw [← Host.Outcome.next.inj he]; exact k.result _ _ h
  case pipeRead n bs =>
    change execPipeRead n bs s = .next t at he
    unfold execPipeRead at he
    split at he <;> rw [← Host.Outcome.next.inj he]
    · exact k.result _ _ (k.read _ _ h)
    · exact k.result _ _ h
  case readBlock n bs =>
    change execReadBlock n bs s = .next t at he
    unfold execReadBlock at he
    split at he
    · split at he <;> rw [← Host.Outcome.next.inj he] <;> exact k.result _ _ (k.read _ _ h)
    · rw [← Host.Outcome.next.inj he]; exact k.result _ _ h
  case resetPointers =>
    rw [← Host.Outcome.next.inj he]; exact k.result _ _ (k.pulses [.rstPtr] h)
  case resetFifo name =>
    cases name <;> rw [← Host.Outcome.next.inj he]
    · rename_i q; exact k.result _ _ (k.pulses [rstOf q] h)
    · exact k.result _ _ (k.pulses [.rstDacIn, .rstDacOut, .rstAdcIn, .rstAdcOut] h)
    · exact k.result _ _ h
  case dacFill => rw [hwTurn_next (h := .dacFill) he]; exact k.step _ _ h
  case dacPlay => rw [hwTurn_next (h := .dacPlay) he]; exact k.step _ _ h
  case adcStore => rw [hwTurn_next (h := .adcStore) he]; exact k.step _ _ h
  case adcFetch => rw [hwTurn_next (h := .adcFetch) he]; exact k.step _ _ h
  case dacSink => rw [hwTurn_next (h := .dacSink) he]; exact k.step _ _ h
  case adcSource => rw [hwTurn_next (h := .adcSource) he]; exact k.step _ _ h
  case stripe buffers =>
    change execStripe buffers s = .next t at he
    unfold execStripe at he
    split at he <;> rw [← Host.Outcome.next.inj he]
    · exact k.result _ _ h
    · exact k.result _ _ (k.draw _ h)
  case destripe frame =>
    change execDestripe frame s = .next t at he
    unfold execDestripe at he
    split at he <;> rw [← Host.Outcome.next.inj he]
    · exact k.result _ _ h
    · exact k.result _ _ (k.draw _ h)
  case deswizzleLegacy | deswizzleFull =>
    rw [← Host.Outcome.next.inj he]; exact k.result _ _ h
  case swizzle dialect chan =>
    change execSwizzle dialect chan s = .next t at he
    unfold execSwizzle at he
    split at he <;> rw [← Host.Outcome.next.inj he]
    · exact k.result _ _ h
    · exact k.result _ _ (k.draw _ h)
  case decodeFields chan layout =>
    change execDecodeFields chan layout s = .next t at he
    unfold execDecodeFields at he
    split at he <;> rw [← Host.Outcome.next.inj he]
    · exact k.result _ _ h
    · exact k.result _ _ (k.draw _ h)
  case decode tag version d =>
    change execDecode tag version d s = .next t at he
    unfold execDecode at he
    split at he <;> rw [← Host.Outcome.next.inj he] <;> exact k.result _ _ h

/-- Every call keeps what its building blocks keep. -/
theorem Keeps.exec {P : State → Prop} (k : Keeps P) {i : Instr} {s t : State}
    (he : exec i s = .next t) (h : P s) : P t := by
  by_cases hi : namesFlags i = false
  · exact k.toKeepsPath.exec hi he h
  · cases i
    case setBitDacWrite | setBitDacRead | setBitAdcWrite | setBitAdcTransfer | setBitAdcDebug |
        setBitAdcsConnected | clearBitDacWrite | clearBitDacRead | clearBitAdcWrite |
        clearBitAdcTransfer | clearBitAdcDebug | clearBitAdcsConnected | atomicWriteStream =>
      rw [← Host.Outcome.next.inj he]; exact k.result _ _ (k.form _ _ _ h)
    case maskedWrite mask value =>
      change formW mask value s = .next t at he
      unfold formW at he
      split at he
      · cases he
      · split at he
        · cases he
        · rw [← Host.Outcome.next.inj he]; exact k.result _ _ (k.form _ _ _ h)
    case atomicWrite fields values =>
      change execAtomicWrite fields values s = .next t at he
      unfold execAtomicWrite at he
      split at he <;> rw [← Host.Outcome.next.inj he]
      · exact k.result _ _ (k.form _ _ _ h)
      · exact k.result _ _ h
    case writeSetup | writeFinish | repeatSetup =>
      rw [← Host.Outcome.next.inj he]; exact k.result _ _ (k.issue _ h)
    case writeBuf frame start => exact k.writeBuf (frame := frame) (start := start) he h
    case writeChannels buffers start =>
      change execWriteChannels buffers start s = .next t at he
      unfold execWriteChannels at he
      split at he
      · exact k.writeBuf he h
      · rw [← Host.Outcome.next.inj he]; exact k.result _ _ h
    case setAdcDebug =>
      rw [← Host.Outcome.next.inj he]
      refine k.result _ _ ?_
      split
      · exact k.form _ _ _ h
      · exact h
    case clearAdcDebug =>
      rw [← Host.Outcome.next.inj he]
      refine k.result _ _ ?_
      split
      · exact k.form _ _ _ h
      · exact h
    all_goals exact absurd rfl hi

/-! ### Register primitives as families -/

theorem exec_setBitInstr (f : Flag) (s : State) :
    exec (setBitInstr f) s = .next (finish .done (setBit f s)) := by cases f <;> rfl

theorem exec_clearBitInstr (f : Flag) (s : State) :
    exec (clearBitInstr f) s = .next (finish .done (clearBit f s)) := by cases f <;> rfl

theorem exec_triggerInstr (t : Trig) (s : State) :
    exec (triggerInstr t) s = .next (finish .done (pulse t s)) := by cases t <;> rfl

theorem exec_hwInstr (h : HwStep) (s : State) : exec (hwInstr h) s = hwTurn h s := by
  cases h <;> rfl

/-- A turn in a state whose pointers stand inside their regions is the step. -/
theorem hwTurn_typed {s : State} (h : s.Typed) (k : HwStep) : hwTurn k s = .next (hwStep k s) := by
  unfold hwTurn
  split
  · rename_i p hp
    have := h.ptr_lt p
    rw [if_neg (by simp [ptrOk, this])]
  · rfl

/-- Turns one after the other in such a state are the steps one after the other. -/
theorem runCalls_turns {s : State} (h : s.TypedValid) (hs : List HwStep) :
    runCalls (hs.map hwInstr) s = .next (runSteps hs s) := by
  induction hs generalizing s with
  | nil => rfl
  | cons k hs ih =>
    simp only [List.map_cons, runCalls, exec_hwInstr, hwTurn_typed h.1]
    exact ih (State.TypedValid.hwStep h k)

theorem flagPresent_of {c : Cfg} {f : Flag} (h : f = .adcDebug → c.hasAdcDebug = true) :
    flagPresent c f = true := by cases f <;> simp_all

/-- The flags after the ATOMIC_WRITE of `write_finish` (41_controller_ops.md R166). -/
theorem ctrlAfter_stream {c : Cfg} (hv : c.Valid) (old : PerFlag Bool) :
    ctrlAfter c (maskOfList c t3) (maskOfList c t3) old
      = { old with dacRead := true, adcWrite := true, adcTransfer := true } := by
  apply PerFlag.ext_get
  intro f
  rw [ctrlAfter_get, flagAfter_lists hv]
  cases f <;> simp [t3]

/-- A bit of the CTRL word stands for the flag at its position (10_state.md R33). -/
theorem getLsbD_ctrlWord {c : Cfg} (hv : c.Valid) (v : PerFlag Bool) (i : Nat) :
    (ctrlWord c v).getLsbD i = true ↔ ∃ f, c.pos.get f = i ∧ v.get f = true := by
  rw [ctrlWord, getLsbD_maskOfList, List.any_eq_true]
  constructor
  · rintro ⟨f, hf, h⟩
    rw [maskOf, getLsbD_bitMask] at h
    simp only [Bool.and_eq_true, decide_eq_true_eq] at h
    exact ⟨f, h.1.symm, by simpa using (List.mem_filter.1 hf).2⟩
  · rintro ⟨f, rfl, h⟩
    exact ⟨f, List.mem_filter.2 ⟨Flag.mem_all f, h⟩, by rw [getLsbD_maskOf hv]; simp⟩

theorem assertedFields_sub : ∀ (fs : List Flag) (bs : List Bool), ∀ f ∈ assertedFields fs bs, f ∈ fs
  | [], _, f, h => by simp [assertedFields] at h
  | _ :: _, [], f, h => by simp [assertedFields] at h
  | g :: fs, b :: bs, f, h => by
    rw [assertedFields] at h
    split at h
    · rcases List.mem_cons.1 h with rfl | h
      · exact List.mem_cons_self
      · exact List.mem_cons_of_mem _ (assertedFields_sub fs bs f h)
    · exact List.mem_cons_of_mem _ (assertedFields_sub fs bs f h)

/-- A listed field is among the asserted ones exactly where its bit is 1 (40_transactions.md R144). -/
theorem mem_assertedFields : ∀ (fs : List Flag) (bs : List Bool) (f : Flag) (b : Bool), fs.Nodup →
    (f, b) ∈ fs.zip bs → (f ∈ assertedFields fs bs ↔ b = true)
  | [], _, f, b, _, h => by simp at h
  | _ :: _, [], f, b, _, h => by simp at h
  | g :: fs, c :: bs, f, b, hn, h => by
    rw [List.zip_cons_cons, List.mem_cons] at h
    rw [List.nodup_cons] at hn
    rcases h with h | h
    · simp only [Prod.mk.injEq] at h
      obtain ⟨rfl, rfl⟩ := h
      rw [assertedFields]
      cases b
      · simp only [Bool.false_eq_true, if_false, iff_false]
        exact fun h => hn.1 (assertedFields_sub _ _ _ h)
      · simp
    · have hf : f ∈ fs := (List.of_mem_zip h).1
      have hne : f ≠ g := fun e => hn.1 (e ▸ hf)
      rw [assertedFields, ← mem_assertedFields fs bs f b hn.2 h]
      split <;> simp [hne]

end Sys2Proof.Machine
end

