-- ==== Sys2Proof/Laws/Quiet.lean ====
section
/-! SUPPORT. Gaps and resets with no enable asserted (42_datapath.md R188), and the expansions of the
controller's operations one transaction at a time. -/

namespace Sys2Proof.Machine

/-- What DAC_SINK alone can have done: words of FIFO DacOut played, oldest first. -/
def Sunk (s t : State) : Prop :=
  ∃ (ws rest : List Word) (d : Nat), s.fifo.dacOut = ws ++ rest ∧
    t = { s with fifo := { s.fifo with dacOut := rest }, dacOut := s.dacOut ++ ws, draws := d }

theorem Sunk.refl (s : State) : Sunk s s :=
  ⟨[], s.fifo.dacOut, s.draws, rfl, by simp⟩

theorem Sunk.trans {s t u : State} (h : Sunk s t) (k : Sunk t u) : Sunk s u := by
  obtain ⟨ws, rest, d, h1, rfl⟩ := h
  obtain ⟨ws', rest', d', h2, rfl⟩ := k
  refine ⟨ws ++ ws', rest', d', ?_, ?_⟩
  · rw [h1, List.append_assoc, ← h2]
  · simp

theorem takeDraw_sunk (s : State) : Sunk s (takeDraw s) :=
  ⟨[], s.fifo.dacOut, s.draws + 1, rfl, by simp [takeDraw, State.setDraws]⟩

/-- With no enable asserted only DAC_SINK can run (R188). -/
theorem hwEnabled_quiet {s : State} (hq : anyEnable s.ctrl = false) {h : HwStep}
    (he : hwEnabled s h = true) : h = .dacSink := by
  simp only [anyEnable, Bool.or_eq_false_iff] at hq
  obtain ⟨⟨⟨h1, h2⟩, h3⟩, h4⟩ := hq
  cases h <;> simp_all [hwEnabled]

theorem hwStep_quiet {s : State} (hq : anyEnable s.ctrl = false) (h : HwStep) :
    Sunk s (hwStep h s) := by
  unfold hwStep
  split
  · rename_i he
    simp only [Bool.and_eq_true] at he
    obtain rfl := hwEnabled_quiet hq he.1
    simp only [hwEffect, dacSinkEffect]
    split
    · exact .refl s
    · rename_i w ws hf
      exact ⟨[w], ws, s.draws, hf, rfl⟩
  · exact .refl s

theorem runSteps_quiet {s : State} (hq : anyEnable s.ctrl = false) (hs : List HwStep) :
    Sunk s (runSteps hs s) :=
  (runSteps_keeps_prop (P := fun t => t.ctrl = s.ctrl ∧ Sunk s t)
    (fun h _ t ht => ⟨(hwStep_keeps h t).ctrl.trans ht.1,
      ht.2.trans (hwStep_quiet (by rw [ht.1]; exact hq) h)⟩) ⟨rfl, .refl s⟩).2

theorem runHw_quiet {s : State} (hq : anyEnable s.ctrl = false) : Sunk s (runHw s) :=
  (takeDraw_sunk s).trans (runSteps_quiet (s := takeDraw s) hq _)

/-- Quiet steps leave a state whose FIFO DacOut is empty as it is, but for the draws. -/
theorem Sunk.empty {s t : State} (h : Sunk s t) (he : s.fifo.dacOut = []) :
    ∃ d, t = { s with draws := d } := by
  obtain ⟨ws, rest, d, h1, rfl⟩ := h
  rw [he] at h1
  obtain ⟨rfl, rfl⟩ := List.append_eq_nil_iff.1 h1.symm
  refine ⟨d, ?_⟩
  obtain ⟨_, ⟨_, _, _, _⟩, _, _, _, _, _, _, _, _, _, _, _⟩ := s
  simp only at he
  subst he
  simp

/-! ### Pulses with no enable asserted -/

theorem pulse_quiet {s : State} (hq : anyEnable s.ctrl = false) (t : Trig) : pulse t s =
    match t with
    | .rstDacIn => { s with fifo := { s.fifo with dacIn := [] } }
    | .rstDacOut => { s with fifo := { s.fifo with dacOut := [] } }
    | .rstAdcIn => { s with fifo := { s.fifo with adcIn := [] }, adcOverrun := false }
    | .rstAdcOut => { s with fifo := { s.fifo with adcOut := [] } }
    | .rstPtr => { s with ptr := ⟨0, 0, 0, 0⟩, adcFill := 0 } := by
  have hq' := hq
  simp only [anyEnable, Bool.or_eq_false_iff] at hq'
  obtain ⟨⟨⟨h1, h2⟩, h3⟩, h4⟩ := hq'
  cases t <;> simp only [pulse, hq, h1, h2, h3, h4, Bool.false_eq_true, if_false] <;> rfl

/-- The state with its four FIFOs empty, some words of FIFO DacOut having been played first. -/
def Emptied (s t : State) : Prop :=
  ∃ (ws : List Word) (d : Nat), ws <+: s.fifo.dacOut ∧
    t = { s with
      fifo := ⟨[], [], [], []⟩, dacOut := s.dacOut ++ ws, adcOverrun := false, draws := d }

/-- `reset_fifo(all)` with no enable asserted (41_controller_ops.md R171). -/
theorem resetAll_quiet {s : State} (hq : anyEnable s.ctrl = false) :
    Emptied s (issue resetAllTxns s) := by
  show Emptied s (pulse .rstAdcOut (runHw (pulse .rstAdcIn (runHw (pulse .rstDacOut (runHw
    (pulse .rstDacIn s)))))))
  rw [pulse_quiet hq .rstDacIn]
  obtain ⟨ws, rest, d1, e1, g1⟩ := runHw_quiet
    (s := { s with fifo := { s.fifo with dacIn := [] } }) hq
  rw [g1, pulse_quiet (t := .rstDacOut) (by exact hq)]
  obtain ⟨d2, g2⟩ := (runHw_quiet
    (s := { s with
      fifo := { s.fifo with dacIn := [], dacOut := [] }, dacOut := s.dacOut ++ ws, draws := d1 })
    hq).empty rfl
  simp only at g2 ⊢
  rw [g2, pulse_quiet (t := .rstAdcIn) (by exact hq)]
  obtain ⟨d3, g3⟩ := (runHw_quiet
    (s := { s with
      fifo := { s.fifo with dacIn := [], dacOut := [], adcIn := [] }, dacOut := s.dacOut ++ ws
      adcOverrun := false, draws := d2 }) hq).empty rfl
  simp only at g3 ⊢
  rw [g3, pulse_quiet (t := .rstAdcOut) (by exact hq)]
  exact ⟨ws, d3, ⟨rest, e1.symm⟩, rfl⟩

/-- The two resets of `write_setup` and `repeat_setup` with no enable asserted (R171, R172). -/
theorem resets_quiet {s : State} (hq : anyEnable s.ctrl = false) :
    ∃ (ws : List Word) (d : Nat), ws <+: s.fifo.dacOut ∧
      runTxn (.pulse .rstPtr) (runHw (issue resetAllTxns s)) = { s with
        fifo := ⟨[], [], [], []⟩, ptr := ⟨0, 0, 0, 0⟩, adcFill := 0, dacOut := s.dacOut ++ ws
        adcOverrun := false, draws := d } := by
  obtain ⟨ws, d, hws, e⟩ := resetAll_quiet hq
  rw [e]
  obtain ⟨d2, g2⟩ := (runHw_quiet
    (s := { s with
      fifo := ⟨[], [], [], []⟩, dacOut := s.dacOut ++ ws, adcOverrun := false, draws := d })
    hq).empty rfl
  simp only at g2
  rw [g2]
  refine ⟨ws, d2, hws, ?_⟩
  show pulse .rstPtr _ = _
  rw [pulse_quiet (by exact hq)]

end Sys2Proof.Machine
end

