-- ==== Sys2Proof/Laws/WriteBuf.lean ====
section
/-! SUPPORT. `write_buf` one stage at a time (41_controller_ops.md R164, R165): what its first three
transactions leave, what the transfer and the clearing of DacWrite leave, and the option. -/

namespace Sys2Proof.Machine

/-- Clearing DacWrite or DacRead never sets the mark, whatever the state (R142). -/
theorem clearBit_exclusive {s : State} (hv : s.cfg.Valid) {f : Flag} (h : f = .dacWrite ∨ f = .dacRead) :
    clearBit f s = s.setCtrl (s.ctrl.set f false) := by
  have hp : flagPresent s.cfg f = true := by rcases h with rfl | rfl <;> rfl
  rw [clearBit, writeCtrl, ctrlAfter_clearBit hv hp]
  apply ctrlChecks_quiet
  · rcases h with rfl | rfl <;> simp [PerFlag.set]
  · rcases h with rfl | rfl <;> cases h1 : s.ctrl.adcWrite <;> cases h2 : s.ctrl.dacRead <;>
      cases h3 : s.ctrl.adcTransfer <;> simp [allT3, anyT3, PerFlag.set, h1, h2, h3]

/-- SET_BIT(DacWrite) where DacRead is clear (R141). -/
theorem setBit_dacWrite {s : State} (hv : s.cfg.Valid) (h : s.ctrl.dacRead = false) :
    setBit .dacWrite s = s.setCtrl (s.ctrl.set .dacWrite true) := by
  rw [setBit_eq hv rfl]
  apply ctrlChecks_quiet
  · simp [PerFlag.set, h]
  · simp [allT3, PerFlag.set, h]

/-- The capture side along operations that leave AdcWrite as it is. -/
theorem CaptureStopped.trans_adc {s t u : State} (hc : t.ctrl.adcWrite = s.ctrl.adcWrite)
    (h : CaptureStopped s t) (k : CaptureStopped t u) : CaptureStopped s u := fun e => by
  obtain ⟨a1, a2, a3, a4⟩ := h e
  obtain ⟨b1, b2, b3, b4⟩ := k (by rw [hc]; exact e)
  exact ⟨b1.trans a1, b2.trans a2, b3.trans a3, b4.trans a4⟩

theorem CaptureStopped.setCtrl (s : State) (v : PerFlag Bool) : CaptureStopped s (s.setCtrl v) :=
  fun _ => ⟨rfl, rfl, rfl, rfl⟩

theorem pulse_rstDacIn_capture (s : State) : CaptureStopped s (pulse .rstDacIn s) := by
  simp only [pulse]
  split
  · exact fun _ => ⟨rfl, rfl, rfl, rfl⟩
  · exact fun _ => ⟨rfl, rfl, rfl, rfl⟩

/-- What `write_buf` has done when its transfer begins (R164): DacRead clear, DacWrite asserted, no other
flag, no mark and nothing of a stopped capture side changed. -/
structure BufferOpen (s t : State) : Prop where
  ctrl : t.ctrl = { s.ctrl with dacWrite := true, dacRead := false }
  cfg : t.cfg = s.cfg
  program : t.program = s.program
  fault : t.fault = s.fault
  capture : CaptureStopped s t

theorem BufferOpen.gap {s t : State} (h : BufferOpen s t) : BufferOpen s (runHw t) := by
  have k := runHw_keeps t
  exact ⟨k.ctrl.trans h.ctrl, k.cfg.trans h.cfg, k.program.trans h.program, k.fault.trans h.fault,
    h.capture.trans_adc (by rw [h.ctrl]) (runHw_stopped t).capture⟩

theorem writeBufPrelude_open {s : State} (hv : s.cfg.Valid) :
    BufferOpen s (issue writeBufPrelude s) := by
  show BufferOpen s (setBit .dacWrite (runHw (pulse .rstDacIn (runHw (clearBit .dacRead s)))))
  rw [clearBit_exclusive hv (.inr rfl)]
  set a := s.setCtrl (s.ctrl.set .dacRead false) with ha
  have k1 := runHw_keeps a
  have k2 := pulse_keeps .rstDacIn (runHw a)
  have k3 := runHw_keeps (pulse .rstDacIn (runHw a))
  set b := runHw (pulse .rstDacIn (runHw a)) with hb
  have bc : b.ctrl = s.ctrl.set .dacRead false := by rw [k3.ctrl, k2.ctrl, k1.ctrl]; rfl
  have bcfg : b.cfg = s.cfg := by rw [k3.cfg, k2.cfg, k1.cfg]; rfl
  have cap : CaptureStopped s b :=
    (((CaptureStopped.setCtrl s _).trans_adc rfl (runHw_stopped a).capture).trans_adc
      (by rw [k1.ctrl]; rfl) (pulse_rstDacIn_capture _)).trans_adc
      (by rw [k2.ctrl, k1.ctrl]; rfl) (runHw_stopped _).capture
  rw [setBit_dacWrite (by rw [bcfg]; exact hv) (by rw [bc]; rfl)]
  refine ⟨by rw [State.ctrl_setCtrl, bc]; rfl, bcfg, ?_, ?_,
    cap.trans_adc (by rw [bc]; rfl) (CaptureStopped.setCtrl b _)⟩
  · show b.program = _; rw [k3.program, k2.program, k1.program]; rfl
  · show b.fault = _; rw [k3.fault, k2.fault, k1.fault]; rfl

/-- No step fills FIFO DacIn: where it is empty the write path stands still. -/
theorem hwStep_emptyDacIn {s : State} (h : s.fifo.dacIn = []) (k : HwStep) :
    (hwStep k s).fifo.dacIn = [] ∧ (hwStep k s).ptr.dacWr = s.ptr.dacWr ∧
      (hwStep k s).ddrDac = s.ddrDac := by
  by_cases hk : k = .dacFill
  · subst hk
    have : hwEnabled s .dacFill = false := by simp [hwEnabled, h]
    rw [hwStep, this]
    exact ⟨h, rfl, rfl⟩
  · obtain ⟨a, b, c⟩ := hwStep_write hk s
    exact ⟨a.trans h, b, c⟩

theorem runSteps_emptyDacIn (hs : List HwStep) {s : State} (h : s.fifo.dacIn = []) :
    (runSteps hs s).fifo.dacIn = [] ∧ (runSteps hs s).ptr.dacWr = s.ptr.dacWr ∧
      (runSteps hs s).ddrDac = s.ddrDac :=
  runSteps_keeps_prop (P := fun t => t.fifo.dacIn = [] ∧ t.ptr.dacWr = s.ptr.dacWr ∧
      t.ddrDac = s.ddrDac)
    (fun k _ t ht => by
      obtain ⟨a, b, c⟩ := hwStep_emptyDacIn ht.1 k
      exact ⟨a, b.trans ht.2.1, c.trans ht.2.2⟩) ⟨h, rfl, rfl⟩

theorem runHw_emptyDacIn {s : State} (h : s.fifo.dacIn = []) :
    (runHw s).fifo.dacIn = [] ∧ (runHw s).ptr.dacWr = s.ptr.dacWr ∧ (runHw s).ddrDac = s.ddrDac :=
  runSteps_emptyDacIn _ (s := takeDraw s) h

/-- Entered with DacWrite clear, the transfer begins with FIFO DacIn empty and the write pointer and the
DAC region as they were. -/
theorem writeBufPrelude_write {s : State} (hv : s.cfg.Valid) (hw : s.ctrl.dacWrite = false) :
    (runHw (issue writeBufPrelude s)).fifo.dacIn = [] ∧
    (runHw (issue writeBufPrelude s)).ptr.dacWr = s.ptr.dacWr ∧
    (runHw (issue writeBufPrelude s)).ddrDac = s.ddrDac := by
  have hb := writeBufPrelude_open hv
  revert hb
  rw [show issue writeBufPrelude s
    = setBit .dacWrite (runHw (pulse .rstDacIn (runHw (clearBit .dacRead s)))) from rfl,
    clearBit_exclusive hv (.inr rfl)]
  set a := s.setCtrl (s.ctrl.set .dacRead false) with ha
  have aw : a.ctrl.dacWrite = false := hw
  have k1 := runHw_keeps a
  obtain ⟨g1, g2, g3⟩ := (runHw_stopped a).write aw
  have hp : pulse .rstDacIn (runHw a) = setFifo .dacIn [] (runHw a) := by
    rw [pulse, k1.ctrl, aw]; rfl
  rw [hp]
  set b := setFifo .dacIn [] (runHw a) with hb
  have bw : b.ctrl.dacWrite = false := by show (runHw a).ctrl.dacWrite = false; rw [k1.ctrl, aw]
  have k3 := runHw_keeps b
  obtain ⟨e1, e2, e3⟩ := (runHw_stopped b).write bw
  have cc : (runHw b).ctrl = s.ctrl.set .dacRead false := by
    rw [k3.ctrl]; show (runHw a).ctrl = _; rw [k1.ctrl]; rfl
  have cv : (runHw b).cfg.Valid := by rw [k3.cfg]; show (runHw a).cfg.Valid; rw [k1.cfg]; exact hv
  rw [setBit_dacWrite cv (by rw [cc]; rfl)]
  intro _
  obtain ⟨f1, f2, f3⟩ := runHw_emptyDacIn (s := (runHw b).setCtrl ((runHw b).ctrl.set .dacWrite true)) e1
  exact ⟨f1, f2.trans (e2.trans g2), f3.trans (e3.trans g3)⟩

/-- FIFO DacIn, ptr[DacWr] and the DAC region are as before. -/
structure WriteKept (s t : State) : Prop where
  dacIn : t.fifo.dacIn = s.fifo.dacIn
  dacWr : t.ptr.dacWr = s.ptr.dacWr
  ddrDac : t.ddrDac = s.ddrDac

theorem WriteKept.trans {s t u : State} (h : WriteKept s t) (k : WriteKept t u) : WriteKept s u :=
  ⟨k.1.trans h.1, k.2.trans h.2, k.3.trans h.3⟩

theorem havocFifo_write (q : Fifo) (hq : q ≠ .dacIn) (s : State) : WriteKept s (havocFifo q s) := by
  cases q <;> first | exact absurd rfl hq | exact ⟨rfl, rfl, rfl⟩

theorem havocPtr_write (q : Ptr) (hq : q ≠ .dacWr) (s : State) : WriteKept s (havocPtr q s) := by
  cases q <;> first | exact absurd rfl hq | exact ⟨rfl, rfl, rfl⟩

theorem havocFill_write (s : State) : WriteKept s (havocFill s) := ⟨rfl, rfl, rfl⟩

theorem havocAdc_write (s : State) : WriteKept s (havocAdc s) := ⟨rfl, rfl, rfl⟩

/-- A non-atomic entry to Streaming leaves the write path alone (70_reset_and_hazards.md R302). -/
theorem havocPositions_write (s : State) : WriteKept s (havocPositions s) :=
  (havocPtr_write .dacRd (by decide) s).trans <| (havocPtr_write .adcWr (by decide) _).trans <|
  (havocPtr_write .adcRd (by decide) _).trans <| (havocFill_write _).trans <|
  (havocFifo_write .dacOut (by decide) _).trans <| (havocFifo_write .adcIn (by decide) _).trans <|
  (havocFifo_write .adcOut (by decide) _).trans (havocAdc_write _)

theorem ctrlChecks_write (old : PerFlag Bool) (s : State) : WriteKept s (ctrlChecks old s) := by
  have h : WriteKept s (if s.ctrl.dacWrite && s.ctrl.dacRead then s.setFault true else s) := by
    split <;> exact ⟨rfl, rfl, rfl⟩
  unfold ctrlChecks
  simp only
  split
  · exact h.trans (havocPositions_write _)
  · exact h

/-- A form-W transaction leaves the write path alone (40_transactions.md R153). -/
theorem writeCtrl_write (mask value : Wire) (s : State) : WriteKept s (writeCtrl mask value s) :=
  have h := ctrlChecks_write s.ctrl (s.setCtrl (ctrlAfter s.cfg mask value s.ctrl))
  ⟨h.1, h.2, h.3⟩

end Sys2Proof.Machine
end

