-- ==== Sys2Proof/Laws/Bulk.lean ====
section
/-! SUPPORT. The bulk transfers as wholes: their check, what a complete write leaves, and what a read takes
(40_transactions.md R148 to R152). -/

namespace Sys2Proof.Machine

/-- The block sizes are the powers of two in [16, 16384] (20_memory.md R77). -/
theorem mem_blockSizes {bs : Nat} : bs ∈ blockSizes ↔ ∃ k, k ≤ 10 ∧ bs = 16 * 2 ^ k := by
  constructor
  · intro h
    simp only [blockSizes, List.mem_cons, List.not_mem_nil, or_false] at h
    rcases h with rfl|rfl|rfl|rfl|rfl|rfl|rfl|rfl|rfl|rfl|rfl
    exacts [⟨0, by decide⟩, ⟨1, by decide⟩, ⟨2, by decide⟩, ⟨3, by decide⟩, ⟨4, by decide⟩, ⟨5, by decide⟩,
      ⟨6, by decide⟩, ⟨7, by decide⟩, ⟨8, by decide⟩, ⟨9, by decide⟩, ⟨10, by decide⟩]
  · rintro ⟨k, hk, rfl⟩
    interval_cases k <;> decide

/-- The check of R148 and R151. -/
theorem transferOk_iff {n bs : Nat} :
    transferOk n bs = true ↔ n % 16 = 0 ∧ ∃ k, k ≤ 10 ∧ bs = 16 * 2 ^ k := by
  rw [transferOk, Bool.and_eq_true, beq_iff_eq, List.contains_iff_mem, mem_blockSizes]

theorem ptrOk_of_typed {s : State} (h : s.Typed) (p : Ptr) : ptrOk s p = true :=
  decide_eq_true (h.ptr_lt p)

/-- A complete bulk write (R149): appended to FIFO DacIn with DacWrite clear; otherwise stored in order, but
for what is stranded without A_DRAIN (R150). -/
theorem completeWrite_spec {ws : List Word} {s : State} (ht : s.ptr.dacWr < s.cfg.sampleSize) :
    (s.ctrl.dacWrite = false →
      (completeWrite ws s).fifo.dacIn = s.fifo.dacIn ++ ws ∧
      (completeWrite ws s).ptr.dacWr = s.ptr.dacWr ∧ (completeWrite ws s).ddrDac = s.ddrDac) ∧
    (s.ctrl.dacWrite = true → ∃ m, m ≤ (s.fifo.dacIn ++ ws).length ∧
      (s.cfg.aDrain = true → m = (s.fifo.dacIn ++ ws).length) ∧
      (completeWrite ws s).fifo.dacIn = (s.fifo.dacIn ++ ws).drop m ∧
      (completeWrite ws s).ptr.dacWr = (s.ptr.dacWr + m) % s.cfg.sampleSize ∧
      WordsStored s.cfg.sampleSize s.ptr.dacWr ((s.fifo.dacIn ++ ws).take m) s.ddrDac
        (completeWrite ws s).ddrDac) := by
  constructor
  · intro e
    rw [completeWrite, e]
    obtain ⟨a, b, c⟩ := pushAll_fields ws s
    obtain ⟨a', b', c'⟩ := runOthers_write (pushAll ws s)
    exact ⟨a'.trans a, b'.trans b, c'.trans c⟩
  · intro e
    set all := s.fifo.dacIn ++ ws with hall
    set m := all.length - stranded s all.length with hm
    have hcw : completeWrite ws s = runOthers (setFifo .dacIn (all.drop m)
        (storeAll (all.take m) (setFifo .dacIn [] s))) := by
      rw [completeWrite, e]; rfl
    refine ⟨m, Nat.sub_le _ _, fun h => by rw [hm, stranded_drain h]; rfl, ?_⟩
    rw [hcw]
    obtain ⟨a', b', c'⟩ := runOthers_write (setFifo .dacIn (all.drop m)
      (storeAll (all.take m) (setFifo .dacIn [] s)))
    obtain ⟨x, y, z⟩ := storeAll_stored (ws := all.take m) (s := setFifo .dacIn [] s) ht
    refine ⟨a'.trans rfl, b'.trans (y.trans ?_), ?_⟩
    · rw [List.length_take, Nat.min_eq_left (Nat.sub_le _ _)]; rfl
    · rw [c']; exact x

theorem bytesOf_length (ws : List Word) : (bytesOf ws).length = 16 * ws.length := by
  induction ws with
  | nil => rfl
  | cons w ws ih =>
    show (w.bytes ++ bytesOf ws).length = _
    rw [List.length_append, ih, w.len, List.length_cons]; omega

/-- The paths a bulk read does not act on (R152). -/
structure ReadStopped (s t : State) : Prop where
  ctrl : t.ctrl = s.ctrl
  write : WriteStopped s t
  play : PlayStopped s t
  capture : CaptureStopped s t

theorem ReadStopped.refl (s : State) : ReadStopped s s := ⟨rfl, .refl s, .refl s, .refl s⟩

theorem ReadStopped.trans {s t u : State} (h : ReadStopped s t) (k : ReadStopped t u) :
    ReadStopped s u :=
  ⟨k.ctrl.trans h.ctrl, h.write.trans h.ctrl k.write, h.play.trans h.ctrl k.play,
    h.capture.trans h.ctrl k.capture⟩

theorem Stopped.read {s t : State} (h : Stopped s t) : ReadStopped s t :=
  ⟨h.ctrl, h.write, h.play, h.capture⟩

/-- An operation that writes FIFO AdcOut, ptr[AdcRd] and `adc_fill` alone. -/
theorem ReadStopped.of_read {s t : State} (hc : t.ctrl = s.ctrl) (h1 : t.fifo.dacIn = s.fifo.dacIn)
    (h2 : t.ptr.dacWr = s.ptr.dacWr) (h3 : t.ddrDac = s.ddrDac) (h4 : t.ptr.dacRd = s.ptr.dacRd)
    (h5 : t.dacOut = s.dacOut) (h6 : t.fifo.dacOut = s.fifo.dacOut) (h7 : t.fifo.adcIn = s.fifo.adcIn)
    (h8 : t.ptr.adcWr = s.ptr.adcWr) (h9 : t.ddrAdc = s.ddrAdc) (h10 : t.adcOverrun = s.adcOverrun) :
    ReadStopped s t :=
  ⟨hc, fun _ => ⟨h1, h2, h3⟩, fun _ => ⟨h4, by rw [h5, h6]⟩, fun _ => ⟨h7, h8, h9, h10⟩⟩

theorem takes_stopped {m : Nat} {s : State} {ws : List Word} {t : State}
    (h : takes m s = some (ws, t)) : ReadStopped s t :=
  takes_keeps_prop (P := ReadStopped s)
    (fun u hu => hu.trans (runHw_stopped u).read)
    (fun _ _ _ _ hu => hu.trans (.of_read rfl rfl rfl rfl rfl rfl rfl rfl rfl rfl rfl)) h (.refl s)

theorem failedRead_stopped (m : Nat) (s : State) : ReadStopped s (failedRead m s) :=
  failedRead_keeps_prop (P := ReadStopped s) (fun u hu => hu.trans (takeDraw_stopped u).read)
    (fun u hu => hu.trans (runHw_stopped u).read)
    (fun _ hu => hu.trans (.of_read rfl rfl rfl rfl rfl rfl rfl rfl rfl rfl rfl))
    (fun _ hu => hu.trans (.of_read rfl rfl rfl rfl rfl rfl rfl rfl rfl rfl rfl))
    (fun _ hu => hu.trans (.of_read rfl rfl rfl rfl rfl rfl rfl rfl rfl rfl rfl))
    (fun _ hu => hu.trans (.of_read rfl rfl rfl rfl rfl rfl rfl rfl rfl rfl rfl)) m (.refl s)

/-- With AdcTransfer clear a complete read takes the oldest words of FIFO AdcOut. -/
theorem takes_still {m : Nat} {s : State} {ws : List Word} {t : State}
    (h : takes m s = some (ws, t)) (hc : s.ctrl.adcTransfer = false) :
    s.fifo.adcOut = ws ++ t.fifo.adcOut ∧ t.ptr.adcRd = s.ptr.adcRd := by
  induction m generalizing s ws with
  | zero =>
    simp only [takes, Option.some.injEq, Prod.mk.injEq] at h
    obtain ⟨rfl, rfl⟩ := h
    exact ⟨rfl, rfl⟩
  | succ m ih =>
    obtain ⟨w, rest, r, hf, hr, rfl⟩ := takes_succ h
    have st := runHw_stopped s
    obtain ⟨a, b, -⟩ := st.transfer hc
    have hc2 : (setFifo .adcOut rest (runHw s)).ctrl.adcTransfer = false := by
      show (runHw s).ctrl.adcTransfer = false
      rw [st.ctrl, hc]
    obtain ⟨i1, i2⟩ := ih hr hc2
    refine ⟨?_, i2.trans b⟩
    rw [← a, hf, List.cons_append, ← i1]; rfl

end Sys2Proof.Machine
end

