-- ==== Sys2Proof/Laws/Capture.lean ====
section
/-! SUPPORT. What one step does to the words captured and not yet read (20_memory.md R75, 42_datapath.md
R193). -/

namespace Sys2Proof.Machine

/-- The words stored in the ADC region and not yet fetched, oldest first. -/
def regionWordsOf (s : State) : List (Option Word) :=
  (List.range s.adcFill).map
    fun i => Memory.readWord s.ddrAdc ((s.ptr.adcRd + i) % s.cfg.adcBufWords)

theorem captured_eq (s : State) :
    s.captured = s.fifo.adcOut.map some ++ regionWordsOf s ++ s.fifo.adcIn.map some := rfl

/-- The captured words gain some at the end and lose none; with AdcWrite clear they stay as they are. -/
def Captured (s t : State) : Prop :=
  t.Linked ∧ ∃ new : List Word, t.captured = s.captured ++ new.map some ∧
    (s.ctrl.adcWrite = false → new = [])

theorem Captured.refl {s : State} (h : s.Linked) : Captured s s := ⟨h, [], by simp, fun _ => rfl⟩

theorem Captured.trans {s t u : State} (hc : t.ctrl = s.ctrl) (h : Captured s t) (k : Captured t u) :
    Captured s u := by
  obtain ⟨-, n1, e1, z1⟩ := h
  obtain ⟨l, n2, e2, z2⟩ := k
  refine ⟨l, n1 ++ n2, by rw [e2, e1, List.map_append, List.append_assoc], fun e => ?_⟩
  rw [z1 e, z2 (by rw [hc]; exact e)]; rfl

/-- A change that touches nothing of the capture side. -/
theorem Captured.of_eq {s t : State} (h : s.Linked) (h1 : t.ptr.adcWr = s.ptr.adcWr)
    (h2 : t.ptr.adcRd = s.ptr.adcRd) (h3 : t.adcFill = s.adcFill) (h4 : t.ddrAdc = s.ddrAdc)
    (h5 : t.cfg = s.cfg) (h6 : t.fifo.adcOut = s.fifo.adcOut) (h7 : t.fifo.adcIn = s.fifo.adcIn) :
    Captured s t := by
  have hl : t.Linked :=
    ⟨by rw [h1, h2, h3, h5]; exact h.apart, by rw [h2, h3, h4, h5]; exact h.written⟩
  refine ⟨hl, [], ?_, fun _ => rfl⟩
  simp only [State.captured, h2, h3, h4, h5, h6, h7, List.map_nil, List.append_nil]

theorem mod_ne_of_lt {n p i j : Nat} (hi : i < j) (hj : j < n) : (p + i) % n ≠ (p + j) % n := by
  intro e
  have h : i % n = j % n := Nat.ModEq.add_left_cancel' p e
  rw [Nat.mod_eq_of_lt (by omega), Nat.mod_eq_of_lt hj] at h
  omega

/-- ADC_STORE moves the oldest word of FIFO AdcIn to the end of the stored words (R182). -/
theorem adcStore_captured {s : State} (hl : s.Linked) {w : Word} {ws : List Word}
    (hf : s.fifo.adcIn = w :: ws) (hlt : s.adcFill < s.cfg.adcBufWords) :
    Captured s ((storeAdc w (setFifo .adcIn ws s)).setAdcFill (s.adcFill + 1)) := by
  set t := (storeAdc w (setFifo .adcIn ws s)).setAdcFill (s.adcFill + 1) with ht
  have tm : t.ddrAdc = Memory.writeWord s.ddrAdc s.ptr.adcWr w := rfl
  have tr : t.ptr.adcRd = s.ptr.adcRd := rfl
  have tw : t.ptr.adcWr = (s.ptr.adcWr + 1) % s.cfg.adcBufWords := rfl
  have old : ∀ i, i < s.adcFill →
      Memory.readWord t.ddrAdc ((s.ptr.adcRd + i) % s.cfg.adcBufWords)
        = Memory.readWord s.ddrAdc ((s.ptr.adcRd + i) % s.cfg.adcBufWords) := by
    intro i hi
    rw [tm, Memory.readWord_writeWord_ne]
    rw [hl.apart]
    exact mod_ne_of_lt hi hlt
  have new : Memory.readWord t.ddrAdc ((s.ptr.adcRd + s.adcFill) % s.cfg.adcBufWords) = some w := by
    rw [tm, ← hl.apart, Memory.readWord_writeWord_same]
  have tl : t.Linked := by
    constructor
    · show t.ptr.adcWr = (s.ptr.adcRd + (s.adcFill + 1)) % s.cfg.adcBufWords
      rw [tw, hl.apart, Nat.mod_add_mod, Nat.add_assoc]
    · intro i hi
      have hi' : i < s.adcFill + 1 := hi
      show (Memory.readWord t.ddrAdc ((s.ptr.adcRd + i) % s.cfg.adcBufWords)).isSome = true
      rcases Nat.lt_succ_iff_lt_or_eq.1 hi' with h | rfl
      · rw [old i h]; exact hl.written i h
      · rw [new]; rfl
  refine ⟨tl, [], ?_, fun _ => rfl⟩
  have hr : regionWordsOf t = regionWordsOf s ++ [some w] := by
    show (List.range (s.adcFill + 1)).map
      (fun i => Memory.readWord t.ddrAdc ((s.ptr.adcRd + i) % s.cfg.adcBufWords)) = _
    rw [List.range_succ, List.map_append, List.map_singleton, new]
    congr 1
    exact List.map_congr_left fun i hi => old i (List.mem_range.1 hi)
  rw [captured_eq, captured_eq, hr]
  show s.fifo.adcOut.map some ++ (regionWordsOf s ++ [some w]) ++ ws.map some = _
  rw [hf]
  simp

/-- ADC_FETCH moves the oldest stored word to the end of FIFO AdcOut (R183). -/
theorem adcFetch_captured {s : State} (hl : s.Linked) (hpos : 0 < s.adcFill)
    (hr : s.ptr.adcRd < s.cfg.adcBufWords) : Captured s (adcFetchEffect s) := by
  have h0 := hl.written 0 hpos
  rw [Nat.add_zero, Nat.mod_eq_of_lt hr] at h0
  obtain ⟨w, hw⟩ := Option.isSome_iff_exists.1 h0
  obtain ⟨k, hk⟩ : ∃ k, s.adcFill = k + 1 := ⟨s.adcFill - 1, by omega⟩
  set t := adcFetchEffect s with ht
  have tr : t.ptr.adcRd = (s.ptr.adcRd + 1) % s.cfg.adcBufWords := rfl
  have tf : t.adcFill = k := by show s.adcFill - 1 = k; omega
  have tq : t.fifo.adcOut = s.fifo.adcOut ++ [w] := by
    show s.fifo.adcOut ++ [(Memory.readWord s.ddrAdc s.ptr.adcRd).getD (freeWord s.draws 0)] = _
    rw [hw]; rfl
  have hmod : ∀ i, ((s.ptr.adcRd + 1) % s.cfg.adcBufWords + i) % s.cfg.adcBufWords
      = (s.ptr.adcRd + (i + 1)) % s.cfg.adcBufWords := fun i => by
    rw [Nat.mod_add_mod]; congr 1; omega
  have tl : t.Linked := by
    constructor
    · show s.ptr.adcWr = (t.ptr.adcRd + t.adcFill) % s.cfg.adcBufWords
      rw [hl.apart, tr, tf, hmod, hk]
    · intro i hi
      show (Memory.readWord s.ddrAdc ((t.ptr.adcRd + i) % s.cfg.adcBufWords)).isSome = true
      rw [tr, hmod]
      exact hl.written (i + 1) (by omega)
  refine ⟨tl, [], ?_, fun _ => rfl⟩
  have hreg : regionWordsOf s = some w :: regionWordsOf t := by
    show (List.range s.adcFill).map _ = some w :: (List.range t.adcFill).map
      (fun i => Memory.readWord s.ddrAdc ((t.ptr.adcRd + i) % s.cfg.adcBufWords))
    rw [hk, List.range_succ_eq_map, List.map_cons, List.map_map, tf, tr, Nat.add_zero,
      Nat.mod_eq_of_lt hr, hw]
    congr 1
    exact List.map_congr_left fun i _ => by rw [hmod]; rfl
  rw [captured_eq, captured_eq, hreg, tq]
  show _ ++ s.fifo.adcIn.map some = _
  simp

/-- ADC_SOURCE adds at most one captured word at the end (R185). -/
theorem adcSource_captured {s : State} (hl : s.Linked) (he : s.ctrl.adcWrite = true) :
    Captured s (adcSourceEffect s) := by
  unfold adcSourceEffect
  split
  · refine ⟨⟨hl.apart, hl.written⟩, [freeWord s.draws 0], ?_, fun h => by rw [he] at h; cases h⟩
    rw [captured_eq, captured_eq]
    show s.fifo.adcOut.map some ++ regionWordsOf s ++ (s.fifo.adcIn ++ [_]).map some = _
    simp
  · exact .of_eq hl rfl rfl rfl rfl rfl rfl rfl

/-- No step drops, repeats or reorders a captured word. -/
theorem hwStep_captured (k : HwStep) {s : State} (ht : s.Typed) (hl : s.Linked) :
    Captured s (hwStep k s) := by
  unfold hwStep
  split
  · rename_i he
    simp only [Bool.and_eq_true] at he
    obtain ⟨he, -⟩ := he
    cases k
    · simp only [hwEffect, dacFillEffect]
      split
      · exact .refl hl
      · exact .of_eq hl rfl rfl rfl rfl rfl rfl rfl
    · exact .of_eq hl rfl rfl rfl rfl rfl rfl rfl
    · simp only [hwEnabled, Bool.and_eq_true, decide_eq_true_eq] at he
      simp only [hwEffect, adcStoreEffect]
      split
      · exact .refl hl
      · rename_i w ws hf
        exact adcStore_captured hl hf he.2
    · simp only [hwEnabled, Bool.and_eq_true, decide_eq_true_eq] at he
      exact adcFetch_captured hl he.1.2 (ht.ptr_lt .adcRd)
    · simp only [hwEffect, dacSinkEffect]
      split
      · exact .refl hl
      · exact .of_eq hl rfl rfl rfl rfl rfl rfl rfl
    · exact adcSource_captured hl he
  · exact .refl hl

end Sys2Proof.Machine
end

