-- ==== Sys2Proof/Laws/Codec.lean ====
section
/-! SUPPORT. Laws of the codec's operations: the two bytes of a code, where an interleave puts each byte,
what gathering reads, consecutive differences, and dictionary entries. -/

namespace Sys2Proof.Machine

/-! ### Bytes of a code -/

theorem u16_eq (lo hi : Byte) : u16 lo hi = lo.toNat + 256 * hi.toNat := by
  simp only [u16, Nat.shiftLeft_eq]; omega

theorem u16_le (lo hi : Byte) : u16 lo hi ≤ 65535 := by
  have := lo.isLt; have := hi.isLt
  rw [u16_eq]; omega

theorem lowByte_eq (v : Nat) : lowByte v = BitVec.ofNat 8 (v % 256) := by
  have h : v &&& 0xFF = v % 256 := Nat.and_two_pow_sub_one_eq_mod v 8
  rw [lowByte, h]

theorem highByte_eq (v : Nat) : highByte v = BitVec.ofNat 8 (v / 256) := by
  rw [highByte, Nat.shiftRight_eq_div_pow]

theorem u16_bytes {v : Nat} (h : v ≤ 65535) : u16 (lowByte v) (highByte v) = v := by
  rw [u16_eq, lowByte_eq, highByte_eq, BitVec.toNat_ofNat, BitVec.toNat_ofNat]; omega

theorem lowByte_u16 (lo hi : Byte) : lowByte (u16 lo hi) = lo := by
  apply BitVec.eq_of_toNat_eq
  have := lo.isLt
  rw [lowByte_eq, u16_eq, BitVec.toNat_ofNat]; omega

theorem highByte_u16 (lo hi : Byte) : highByte (u16 lo hi) = hi := by
  apply BitVec.eq_of_toNat_eq
  have := lo.isLt; have := hi.isLt
  rw [highByte_eq, u16_eq, BitVec.toNat_ofNat]; omega

@[simp] theorem codeBytes_length (v : Nat) : (codeBytes v).length = 2 := rfl

/-! ### Records of one length, one after the other -/

theorem flatMap_range_length {α : Type} (f : Nat → List α) {m : Nat} (h : ∀ k, (f k).length = m)
    (n : Nat) : ((List.range n).flatMap f).length = m * n := by
  induction n with
  | zero => simp
  | succ n ih => simp [List.range_succ, ih, h, Nat.mul_succ]

theorem flatMap_range_getElem? {α : Type} (f : Nat → List α) {m : Nat} (h : ∀ k, (f k).length = m)
    {n k i : Nat} (hk : k < n) (hi : i < m) :
    ((List.range n).flatMap f)[m * k + i]? = (f k)[i]? := by
  induction n with
  | zero => omega
  | succ n ih =>
    rw [List.range_succ, List.flatMap_append]
    by_cases hkn : k < n
    · have : m * k + m ≤ m * n := by
        rw [← Nat.mul_succ]; exact Nat.mul_le_mul_left m hkn
      rw [List.getElem?_append_left (by rw [flatMap_range_length f h]; omega)]
      exact ih hkn
    · obtain rfl : k = n := by omega
      rw [List.getElem?_append_right (by rw [flatMap_range_length f h]; omega),
        flatMap_range_length f h]
      simp

/-! ### Interleaving -/

theorem interleaveRecord_length (n : Nat) (p : List Nat) (chans : List (List Nat)) (k : Nat) :
    (interleaveRecord n p chans k).length = 2 * n :=
  flatMap_range_length _ (fun _ => codeBytes_length _) n

theorem interleave_length (n : Nat) (p : List Nat) (chans : List (List Nat)) :
    (interleave n p chans).length = 2 * n * channelLength chans :=
  flatMap_range_length _ (interleaveRecord_length n p chans) _

/-- The two bytes in slot i of record k. -/
theorem interleave_getElem? {n : Nat} (p : List Nat) {chans : List (List Nat)} {i k : Nat}
    (hk : k < channelLength chans) (hi : i < n) :
    (interleave n p chans)[2 * n * k + 2 * i]? = some (lowByte (codeAt chans (p.idxOf i) k)) ∧
    (interleave n p chans)[2 * n * k + 2 * i + 1]?
      = some (highByte (codeAt chans (p.idxOf i) k)) := by
  have hr := interleaveRecord_length n p chans
  have hs : ∀ j, j < 2 → (interleave n p chans)[2 * n * k + (2 * i + j)]?
      = (codeBytes (codeAt chans (p.idxOf i) k))[j]? := by
    intro j hj
    rw [interleave, flatMap_range_getElem? _ hr hk (by omega), interleaveRecord,
      flatMap_range_getElem? _ (fun _ => codeBytes_length _) hi hj]
  exact ⟨hs 0 (by omega), hs 1 (by omega)⟩

/-! ### Gathering -/

@[simp] theorem gather_length (n : Nat) (p : List Nat) (d : List Byte) : (gather n p d).length = n := by
  simp [gather]

theorem gather_getElem {n : Nat} (p : List Nat) (d : List Byte) {j : Nat} (hj : j < n) :
    (gather n p d).getD j []
      = (List.range (d.length / (2 * n))).map fun k => rawCode n d (p.getD j 0) k := by
  simp [gather, List.getD_eq_getElem?_getD, hj]

theorem gather_codeAt {n : Nat} (p : List Nat) (d : List Byte) {j k : Nat} (hj : j < n)
    (hk : k < d.length / (2 * n)) : codeAt (gather n p d) j k = rawCode n d (p.getD j 0) k := by
  rw [codeAt, gather_getElem p d hj]
  simp [List.getD_eq_getElem?_getD, hk]

theorem gather_mem {n : Nat} {p : List Nat} {d : List Byte} {c : List Nat} (hc : c ∈ gather n p d) :
    c.length = d.length / (2 * n) ∧ ∀ v ∈ c, v ≤ 65535 := by
  simp only [gather, List.mem_map, List.mem_range] at hc
  obtain ⟨j, -, rfl⟩ := hc
  refine ⟨by simp, fun v hv => ?_⟩
  simp only [List.mem_map] at hv
  obtain ⟨k, -, rfl⟩ := hv
  exact u16_le _ _

theorem gather_channelLength {n : Nat} (p : List Nat) (d : List Byte) (hn : 0 < n) :
    channelLength (gather n p d) = d.length / (2 * n) := by
  rw [channelLength, gather_getElem p d hn]; simp

/-- What gathering returns is in the domain of interleaving. -/
theorem gather_channelsOk {n : Nat} (p : List Nat) (d : List Byte) (hn : 0 < n) :
    channelsOk n (gather n p d) = true := by
  simp only [channelsOk, gather_length, gather_channelLength p d hn, beq_self_eq_true, Bool.true_and,
    List.all_eq_true, Bool.and_eq_true, beq_iff_eq, decide_eq_true_eq]
  exact fun c hc => gather_mem hc

/-! ### Channels in the domain -/

theorem channelsOk_iff {n : Nat} {chans : List (List Nat)} : channelsOk n chans = true ↔
    chans.length = n ∧ ∀ c ∈ chans, c.length = channelLength chans ∧ ∀ v ∈ c, v ≤ 65535 := by
  simp [channelsOk]

theorem channelLength_of {n len : Nat} {chans : List (List Nat)} (hn : 0 < n) (hl : chans.length = n)
    (h : ∀ c ∈ chans, c.length = len) : channelLength chans = len := by
  obtain _ | ⟨c, cs⟩ := chans
  · simp at hl; omega
  · exact h c (by simp)

theorem channelsOk_of {n len : Nat} {chans : List (List Nat)} (hn : 0 < n) (hl : chans.length = n)
    (h : ∀ c ∈ chans, c.length = len ∧ ∀ v ∈ c, v ≤ 65535) : channelsOk n chans = true := by
  rw [channelsOk_iff, channelLength_of hn hl fun c hc => (h c hc).1]
  exact ⟨hl, h⟩

theorem codeAt_le {chans : List (List Nat)} (h : ∀ c ∈ chans, ∀ v ∈ c, v ≤ 65535) (j k : Nat) :
    codeAt chans j k ≤ 65535 := by
  simp only [codeAt, List.getD_eq_getElem?_getD]
  cases hc : chans[j]? with
  | none => simp
  | some l =>
    show (l[k]?).getD 0 ≤ 65535
    by_cases hk : k < l.length
    · simpa [hk] using h l (List.mem_of_getElem? hc) _ (List.getElem_mem hk)
    · simp [hk]

/-! ### Slot maps -/

section perm
variable {n : Nat} {p : List Nat} (hp : p.Perm (List.range n))
include hp

theorem slot_length : p.length = n := by rw [hp.length_eq, List.length_range]

theorem slot_nodup : p.Nodup := hp.nodup_iff.2 List.nodup_range

theorem slot_of_getElem? {j i : Nat} (h : p[j]? = some i) : j < n ∧ i < n ∧ p.idxOf i = j := by
  obtain ⟨hj, rfl⟩ := List.getElem?_eq_some_iff.1 h
  refine ⟨slot_length hp ▸ hj, ?_, (slot_nodup hp).idxOf_getElem j hj⟩
  simpa using hp.mem_iff.1 (List.getElem_mem hj)

theorem slot_getD {j : Nat} (h : j < n) : p[j]? = some (p.getD j 0) := by
  have : j < p.length := by rw [slot_length hp]; exact h
  simp [List.getD_eq_getElem?_getD, this]

theorem slot_idxOf {i : Nat} (h : i < n) : p.idxOf i < n ∧ p[p.idxOf i]? = some i := by
  have hm : i ∈ p := hp.mem_iff.2 (by simpa using h)
  have hl := List.idxOf_lt_length_iff.2 hm
  exact ⟨slot_length hp ▸ hl, by simp [hl]⟩

end perm

/-! ### Fields of the second stage -/

theorem shiftLeft_literal (a b c : Nat) :
    a + (b <<< 16) + (c <<< 32) = a + 65536 * b + 4294967296 * c := by
  rw [Nat.shiftLeft_eq, Nat.shiftLeft_eq]; omega

/-- One timestamp, the shifts as products. -/
theorem timestamps_getD (chan : List (List Nat)) (l : Layout) {c i : Nat} (hi : i < c) :
    (timestamps chan l c).getD i 0 = codeAt chan l.ts0.ch (5 * i + l.ts0.ph)
      + 65536 * codeAt chan l.ts1.ch (5 * i + l.ts1.ph)
      + 4294967296 * codeAt chan l.ts2.ch (5 * i + l.ts2.ph) := by
  rw [← shiftLeft_literal, timestamps, List.getD_eq_getElem?_getD, List.getElem?_map,
    List.getElem?_range hi]
  rfl

theorem counter_getD (chan : List (List Nat)) (f : SeqField) {m i : Nat} (hi : i < m) :
    (counter chan f m).getD i 0 = codeAt chan f.ch (10 * i + f.ph) / 2 ^ f.sh % 32 := by
  have h : ∀ x, x &&& 0x1F = x % 32 := fun x => Nat.and_two_pow_sub_one_eq_mod x 5
  simp [counter, List.getD_eq_getElem?_getD, hi, h, Nat.shiftRight_eq_div_pow]

/-! ### Differences and dictionary entries -/

theorem mem_deltas {ts : List Nat} {x : Int} : x ∈ deltas ts ↔
    ∃ i, i + 1 < ts.length ∧ x = (ts.getD (i + 1) 0 : Int) - ts.getD i 0 := by
  induction ts with
  | nil => simp [deltas]
  | cons a ts ih =>
    cases ts with
    | nil => simp [deltas]
    | cons b ts =>
      rw [deltas, List.mem_cons, ih]
      constructor
      · rintro (rfl | ⟨i, hi, rfl⟩)
        · exact ⟨0, by simp, by simp⟩
        · exact ⟨i + 1, by simp at hi ⊢; omega, by simp⟩
      · rintro ⟨_ | i, hi, rfl⟩
        · exact .inl (by simp)
        · exact .inr ⟨i, by simp at hi ⊢; omega, by simp⟩

theorem timingSkip_iff {ts : List Nat} : timingSkip ts = true ↔
    ∃ x ∈ deltas ts, ∃ y ∈ deltas ts, x ≠ y := by
  simp [timingSkip]

theorem putSub_same (e : SubChannel) (d : List SubChannel) :
    (putSub e d).find? (fun x => x.source == e.source && x.key == e.key) = some e := by
  induction d with
  | nil => simp [putSub]
  | cons x xs ih =>
    by_cases h : x.source = e.source ∧ x.key = e.key
    · rw [putSub, if_pos h]; simp
    · rw [putSub, if_neg h, List.find?_cons, ih]
      have : (x.source == e.source && x.key == e.key) = false := by
        simpa [Bool.and_eq_false_iff, not_and_or] using h
      rw [this]

theorem putSub_other (e : SubChannel) {source key : Name} (h : ¬ (e.source = source ∧ e.key = key))
    (d : List SubChannel) :
    (putSub e d).find? (fun x => x.source == source && x.key == key)
      = d.find? fun x => x.source == source && x.key == key := by
  have he : (e.source == source && e.key == key) = false := by
    simpa [Bool.and_eq_false_iff, not_and_or] using h
  induction d with
  | nil => simp [putSub, he]
  | cons x xs ih =>
    by_cases hx : x.source = e.source ∧ x.key = e.key
    · have : (x.source == source && x.key == key) = false := by rw [hx.1, hx.2]; exact he
      rw [putSub, if_pos hx, List.find?_cons, List.find?_cons, he, this]
    · rw [putSub, if_neg hx, List.find?_cons, List.find?_cons, ih]

end Sys2Proof.Machine
end

