-- ==== Sys2Proof/Laws/Decode.lean ====
section
/-! SUPPORT. Reading back what the encoder wrote: words, lists, layout records and headers; and which
row a form-W or form-T transaction is. -/

namespace Sys2Proof

@[simp] theorem except_bind_ok {ε α β : Type} (a : α) (f : α → Except ε β) :
    (Except.ok a >>= f) = f a := rfl

theorem takeWord_encWord {n : Nat} (h : n < 4294967296) (r : List Byte) :
    takeWord (encWord n ++ r) = .ok (n, r) := by
  simp only [encWord, List.cons_append, List.nil_append, takeWord, Except.ok.injEq, Prod.mk.injEq,
    and_true, BitVec.toNat_ofNat]
  omega

theorem takeBytes_append (d r : List Byte) : takeBytes d.length (d ++ r) = .ok (d, r) := by
  simp [takeBytes]

/-- `n` things read back one after the other. -/
theorem takeMany_flatMap {α : Type} {one : List Byte → Except DecodeError (α × List Byte)}
    {enc : α → List Byte} {xs : List α} (h : ∀ x ∈ xs, ∀ r, one (enc x ++ r) = .ok (x, r))
    (r : List Byte) : takeMany one xs.length (xs.flatMap enc ++ r) = .ok (xs, r) := by
  induction xs with
  | nil => rfl
  | cons x xs ih =>
    rw [List.length_cons, List.flatMap_cons, List.append_assoc, takeMany,
      h x List.mem_cons_self]
    simp only [except_bind_ok]
    rw [ih fun y hy => h y (List.mem_cons_of_mem _ hy)]
    rfl

theorem fits_iff {n : Nat} : fits n = true ↔ n < 4294967296 := by simp [fits]

theorem takeCodes_encCodes {l : List Nat} (h : codesFit l = true) (r : List Byte) :
    takeCodes (encCodes l ++ r) = .ok (l, r) := by
  simp only [codesFit, Bool.and_eq_true, List.all_eq_true] at h
  rw [takeCodes, encCodes, List.append_assoc, takeWord_encWord (fits_iff.1 h.1)]
  exact takeMany_flatMap (fun x hx r => takeWord_encWord (fits_iff.1 (h.2 x hx)) r) r

theorem takeChannels {l : List (List Nat)} (h : channelsFit l = true) (r : List Byte) :
    takeMany takeCodes l.length (l.flatMap encCodes ++ r) = .ok (l, r) := by
  simp only [channelsFit, Bool.and_eq_true, List.all_eq_true] at h
  exact takeMany_flatMap (fun x hx r => takeCodes_encCodes (h.2 x hx) r) r

theorem channelsFit_length {l : List (List Nat)} (h : channelsFit l = true) :
    l.length < 4294967296 := by
  simp only [channelsFit, Bool.and_eq_true] at h
  exact fits_iff.1 h.1

theorem takeName_encBytes {n : Name} (h : fits n.length = true) (r : List Byte) :
    takeName (encBytes n ++ r) = .ok (n, r) := by
  rw [takeName, encBytes, List.append_assoc, takeWord_encWord (fits_iff.1 h)]
  exact takeBytes_append n r

theorem takeBool_encBool (b : Bool) (r : List Byte) :
    takeBool (encWord (encBool b) ++ r) = .ok (b, r) := by
  cases b <;> (rw [takeBool, takeWord_encWord (by simp [encBool])]; rfl)

theorem takeFlag_flagCode (f : Flag) (r : List Byte) :
    takeFlag (encWord (flagCode f) ++ r) = .ok (f, r) := by
  cases f <;> (rw [takeFlag, takeWord_encWord (by simp [flagCode])]; rfl)

theorem takeVersion_encVersion {v : VersionArg} (h : v.wf = true) (r : List Byte) :
    takeVersion (encVersion v ++ r) = .ok (v, r) := by
  cases v with
  | version v =>
    rw [takeVersion, encVersion, List.append_assoc, takeWord_encWord (by omega)]
    simp only [except_bind_ok]
    rw [takeWord_encWord (fits_iff.1 h)]
    rfl
  | notAVersion =>
    rw [takeVersion, encVersion, List.append_assoc, takeWord_encWord (by omega)]
    simp only [except_bind_ok]
    rw [takeWord_encWord (by omega)]
    rfl

theorem takeFieldPos_enc {f : FieldPos} (h : f.wf = true) (r : List Byte) :
    takeFieldPos (encFieldPos f ++ r) = .ok (f, r) := by
  simp only [FieldPos.wf, Bool.and_eq_true, decide_eq_true_eq] at h
  simp only [takeFieldPos, encFieldPos, List.append_assoc]
  rw [takeWord_encWord (by omega)]; simp only [except_bind_ok]
  rw [takeWord_encWord (by omega)]; rfl

theorem takeSeqField_enc {f : SeqField} (h : f.wf = true) (r : List Byte) :
    takeSeqField (encSeqField f ++ r) = .ok (f, r) := by
  simp only [SeqField.wf, Bool.and_eq_true, decide_eq_true_eq] at h
  simp only [takeSeqField, encSeqField, List.append_assoc]
  rw [takeWord_encWord (by omega)]; simp only [except_bind_ok]
  rw [takeWord_encWord (by omega)]; simp only [except_bind_ok]
  rw [takeWord_encWord (by omega)]; rfl

theorem takeConstField_enc {f : ConstField} (h : f.wf = true) (r : List Byte) :
    takeConstField (encConstField f ++ r) = .ok (f, r) := by
  simp only [ConstField.wf, Bool.and_eq_true, decide_eq_true_eq] at h
  simp only [takeConstField, encConstField, List.append_assoc]
  rw [takeWord_encWord (by omega)]; simp only [except_bind_ok]
  rw [takeWord_encWord (by omega)]; simp only [except_bind_ok]
  rw [takeWord_encWord (by omega)]; simp only [except_bind_ok]
  rw [takeWord_encWord (by omega)]; rfl

theorem takeSubField_enc {f : SubField} (h : f.wf = true) (r : List Byte) :
    takeSubField (encSubField f ++ r) = .ok (f, r) := by
  simp only [SubField.wf, Bool.and_eq_true, decide_eq_true_eq, List.contains_iff_mem,
    List.mem_cons, List.not_mem_nil, or_false] at h
  obtain ⟨⟨⟨⟨h1, h2⟩, h3⟩, h4⟩, h5⟩ := h
  simp only [takeSubField, encSubField, List.append_assoc]
  rw [takeName_encBytes h4]; simp only [except_bind_ok]
  rw [takeName_encBytes h5]; simp only [except_bind_ok]
  rw [takeWord_encWord (by omega)]; simp only [except_bind_ok]
  rw [takeWord_encWord (by omega)]; simp only [except_bind_ok]
  rw [takeWord_encWord (by omega)]; rfl

theorem takeLayout_enc {l : Layout} (h : l.wf = true) (r : List Byte) :
    takeLayout (encLayout l ++ r) = .ok (l, r) := by
  have h0 := h
  simp only [Layout.wf, Bool.and_eq_true, List.all_eq_true] at h
  obtain ⟨⟨⟨⟨⟨⟨⟨⟨⟨⟨h1, h2⟩, h3⟩, h4⟩, h5⟩, h6⟩, h7⟩, h8⟩, h9⟩, h10⟩, h11⟩ := h
  simp only [takeLayout, encLayout, List.append_assoc]
  rw [takeFieldPos_enc h1]; simp only [except_bind_ok]
  rw [takeFieldPos_enc h2]; simp only [except_bind_ok]
  rw [takeFieldPos_enc h3]; simp only [except_bind_ok]
  rw [takeSeqField_enc h4]; simp only [except_bind_ok]
  rw [takeSeqField_enc h5]; simp only [except_bind_ok]
  rw [takeConstField_enc h6]; simp only [except_bind_ok]
  rw [takeConstField_enc h7]; simp only [except_bind_ok]
  rw [takeConstField_enc h8]; simp only [except_bind_ok]
  rw [takeConstField_enc h9]; simp only [except_bind_ok]
  rw [takeWord_encWord (fits_iff.1 h10)]; simp only [except_bind_ok]
  rw [takeMany_flatMap fun x hx r => takeSubField_enc (h11 x hx) r]
  simp only [except_bind_ok]
  rw [if_pos h0]

/-- A record is read by its header first. -/
theorem decode_header (c : Cfg) {w0 w1 tag : Nat} (h0 : w0 < 4294967296) (h1 : w1 < 4294967296)
    (h2 : tag < 4294967296) (r : List Byte) :
    decode c (header w0 w1 tag ++ r) = decodeBody c w0 w1 tag r := by
  simp only [decode, header, List.append_assoc]
  rw [takeWord_encWord h0]; simp only [except_bind_ok]
  rw [takeWord_encWord h1]; simp only [except_bind_ok]
  rw [takeWord_encWord h2]; rfl

theorem bare_zero (i : Instr) (l : List Byte) : bare i 0 0 l = .ok (i, l) := rfl

theorem withBytes_append (mk : List Byte → Instr) (d r : List Byte) :
    withBytes mk d.length 0 (d ++ r) = .ok (mk d, r) := by
  rw [withBytes, takeBytes_append]; rfl

namespace Machine

theorem maskOf_inj {c : Cfg} (hv : c.Valid) {f g : Flag} : maskOf c f = maskOf c g ↔ f = g := by
  constructor
  · intro h
    have h1 := congrArg (fun w => w.getLsbD (c.pos.get f)) h
    simp only [getLsbD_maskOf hv, decide_true] at h1
    simpa using h1.symm
  · rintro rfl; rfl

theorem maskOf_ne_zero {c : Cfg} (hv : c.Valid) (f : Flag) : maskOf c f ≠ 0#32 := by
  intro h
  have h1 := congrArg (fun w => w.getLsbD (c.pos.get f)) h
  simp only [getLsbD_maskOf hv] at h1
  simp at h1

theorem maskOfList_t3_ne {c : Cfg} (hv : c.Valid) (f : Flag) :
    maskOfList c t3 ≠ maskOf c f := by
  intro h
  have h1 := congrArg (fun w => w.getLsbD (c.pos.get .adcWrite)) h
  have h2 := congrArg (fun w => w.getLsbD (c.pos.get .dacRead)) h
  simp only [getLsbD_maskOfList_pos hv, getLsbD_maskOf hv] at h1 h2
  simp [t3] at h1 h2
  exact absurd (h1.trans h2.symm) (by decide)

theorem maskOfList_t3_ne_zero {c : Cfg} (hv : c.Valid) : maskOfList c t3 ≠ 0#32 := by
  intro h
  have h1 := congrArg (fun w => w.getLsbD (c.pos.get .adcWrite)) h
  simp only [getLsbD_maskOfList_pos hv] at h1
  simp [t3] at h1

theorem pulseMask_inj {c : Cfg} (hv : c.Valid) {t u : Trig} :
    pulseMask c t = pulseMask c u ↔ t = u := by
  constructor
  · intro h
    have h1 := congrArg (fun w => w.getLsbD (c.tpos.get t)) h
    simp only [pulseMask, getLsbD_bitMask, hv.tpos_lt, decide_true, Bool.and_true] at h1
    exact hv.tpos_inj _ _ (by simpa using h1.symm)
  · rintro rfl; rfl

end Machine

open Machine

/-- W(mask(f), mask(f)) is SET_BIT(f) (opcode_table.json). -/
theorem decodeW_set {c : Cfg} (hv : c.Valid) (f : Flag) :
    decodeW c (maskOf c f) (maskOf c f) = setBitInstr f := by
  have h : Flag.all.find? (fun g => maskOf c f == maskOf c g && maskOf c f == maskOf c f) = some f := by
    cases f <;> simp [Flag.all, List.find?, maskOf_inj hv, BEq.beq]
  rw [decodeW, h]

/-- W(mask(f), 0) is CLEAR_BIT(f). -/
theorem decodeW_clear {c : Cfg} (hv : c.Valid) (f : Flag) :
    decodeW c (maskOf c f) 0#32 = clearBitInstr f := by
  have h1 : Flag.all.find? (fun g => maskOf c f == maskOf c g && 0#32 == maskOf c f) = none := by
    rw [List.find?_eq_none]
    intro g _ h
    simp only [Bool.and_eq_true, beq_iff_eq] at h
    exact maskOf_ne_zero hv f h.2.symm
  have h2 : Flag.all.find? (fun g => maskOf c f == maskOf c g && 0#32 == 0#32) = some f := by
    cases f <;> simp [Flag.all, List.find?, maskOf_inj hv, BEq.beq]
  rw [decodeW, h1]
  simp only [h2]

/-- W of the three flags of `write_finish` is the stream ATOMIC_WRITE. -/
theorem decodeW_stream {c : Cfg} (hv : c.Valid) :
    decodeW c (maskOfList c t3) (maskOfList c t3) = .atomicWriteStream := by
  have h0 := maskOfList_t3_ne hv
  have hz := maskOfList_t3_ne_zero hv
  have h1 : Flag.all.find? (fun g => maskOfList c t3 == maskOf c g
      && maskOfList c t3 == maskOfList c t3) = none := by
    simp [h0]
  have h2 : Flag.all.find? (fun g => maskOfList c t3 == maskOf c g
      && maskOfList c t3 == 0#32) = none := by
    simp [h0]
  rw [decodeW, h1]
  simp only [h2]
  simp

theorem decodeT_pulse {c : Cfg} (hv : c.Valid) (t : Trig) :
    decodeT c (pulseMask c t) = triggerInstr t := by
  have h : Trig.all.find? (fun u => pulseMask c t == pulseMask c u) = some t := by
    cases t <;> simp [Trig.all, pulseMask_inj hv]
  rw [decodeT, h]

theorem wire_toNat_lt (w : Wire) : w.toNat < 4294967296 := w.isLt

/-- A form-W record is decoded by its mask and value. -/
theorem decode_encW (c : Cfg) (mask value : Wire) (r : List Byte) :
    decode c (encW mask value ++ r) = .ok (decodeW c mask value, r) := by
  rw [encW, decode_header c (wire_toNat_lt _) (wire_toNat_lt _) (by omega)]
  simp only [decodeBody, BitVec.ofNat_toNat, BitVec.setWidth_eq]
  rw [BitVec.xor_assoc, BitVec.xor_self, BitVec.xor_zero]

end Sys2Proof
end

