-- ==== Sys2Proof/Laws/PerInstr.lean ====
section
/-! SUPPORT. The round trip of the call records, instruction by instruction: a well-formed call read
back from its record is that call. -/

namespace Sys2Proof.Laws.RoundTrip

open Machine

/-- Decoding the record of `i` gives `i` and the bytes after it, under every valid configuration. -/
def Statement (i : Instr) : Prop :=
  ∀ c : Cfg, c.Valid → i.wf = true → ∀ r : List Byte, decode c (encode c i ++ r) = .ok (i, r)

theorem bareRecord {i : Instr} {tag : Nat} (ht : tag < 4294967296)
    (he : ∀ c, encode c i = header 0 0 tag) (hd : ∀ c r, decodeBody c 0 0 tag r = .ok (i, r)) :
    Statement i := by
  intro c _ _ r
  rw [he, decode_header c (by omega) (by omega) ht, hd]

theorem setBitDacWrite : Statement .setBitDacWrite := fun c hv _ r => by
  rw [encode, decode_encW, decodeW_set hv]; rfl
theorem setBitDacRead : Statement .setBitDacRead := fun c hv _ r => by
  rw [encode, decode_encW, decodeW_set hv]; rfl
theorem setBitAdcWrite : Statement .setBitAdcWrite := fun c hv _ r => by
  rw [encode, decode_encW, decodeW_set hv]; rfl
theorem setBitAdcTransfer : Statement .setBitAdcTransfer := fun c hv _ r => by
  rw [encode, decode_encW, decodeW_set hv]; rfl
theorem setBitAdcDebug : Statement .setBitAdcDebug := fun c hv _ r => by
  rw [encode, decode_encW, decodeW_set hv]; rfl
theorem setBitAdcsConnected : Statement .setBitAdcsConnected := fun c hv _ r => by
  rw [encode, decode_encW, decodeW_set hv]; rfl
theorem clearBitDacWrite : Statement .clearBitDacWrite := fun c hv _ r => by
  rw [encode, decode_encW, decodeW_clear hv]; rfl
theorem clearBitDacRead : Statement .clearBitDacRead := fun c hv _ r => by
  rw [encode, decode_encW, decodeW_clear hv]; rfl
theorem clearBitAdcWrite : Statement .clearBitAdcWrite := fun c hv _ r => by
  rw [encode, decode_encW, decodeW_clear hv]; rfl
theorem clearBitAdcTransfer : Statement .clearBitAdcTransfer := fun c hv _ r => by
  rw [encode, decode_encW, decodeW_clear hv]; rfl
theorem clearBitAdcDebug : Statement .clearBitAdcDebug := fun c hv _ r => by
  rw [encode, decode_encW, decodeW_clear hv]; rfl
theorem clearBitAdcsConnected : Statement .clearBitAdcsConnected := fun c hv _ r => by
  rw [encode, decode_encW, decodeW_clear hv]; rfl

theorem maskedWrite (mask value : Wire) : Statement (.maskedWrite mask value) := fun c _ _ r => by
  rw [encode, decode_header c (wire_toNat_lt _) (wire_toNat_lt _) (by omega)]
  simp only [decodeBody, BitVec.ofNat_toNat, BitVec.setWidth_eq]
  rw [BitVec.xor_assoc, BitVec.xor_self, BitVec.xor_zero]

theorem atomicWrite (fields : List Flag) (values : List Bool) :
    Statement (.atomicWrite fields values) := fun c _ hw r => by
  simp only [Instr.wf, Bool.and_eq_true] at hw
  rw [encode, List.append_assoc, List.append_assoc,
    decode_header c (fits_iff.1 hw.1) (fits_iff.1 hw.2) (by omega)]
  have hf := takeMany_flatMap (one := takeFlag) (enc := fun f => encWord (flagCode f))
    (xs := fields) (fun x _ r => takeFlag_flagCode x r)
  have hb := takeMany_flatMap (one := takeBool) (enc := fun b => encWord (encBool b))
    (xs := values) (fun x _ r => takeBool_encBool x r)
  simp only [decodeBody, encWords, List.flatMap_map]
  rw [hf]; simp only [except_bind_ok]
  rw [hb]; rfl

theorem atomicWriteStream : Statement .atomicWriteStream := fun c hv _ r => by
  rw [encode, decode_encW, decodeW_stream hv]

theorem pulseRecord (t : Trig) {i : Instr} (hi : triggerInstr t = i)
    (he : ∀ c, encode c i = header (pulseMask c t).toNat 0 1) : Statement i := by
  intro c hv _ r
  rw [he, decode_header c (wire_toNat_lt _) (by omega) (by omega)]
  simp only [decodeBody, if_true, BitVec.ofNat_toNat, BitVec.setWidth_eq]
  rw [decodeT_pulse hv, hi]

theorem triggerRstDacIn : Statement .triggerRstDacIn := pulseRecord .rstDacIn rfl fun _ => rfl
theorem triggerRstDacOut : Statement .triggerRstDacOut := pulseRecord .rstDacOut rfl fun _ => rfl
theorem triggerRstAdcIn : Statement .triggerRstAdcIn := pulseRecord .rstAdcIn rfl fun _ => rfl
theorem triggerRstAdcOut : Statement .triggerRstAdcOut := pulseRecord .rstAdcOut rfl fun _ => rfl
theorem triggerRstPtr : Statement .triggerRstPtr := pulseRecord .rstPtr rfl fun _ => rfl

theorem triggerMask (mask : Wire) : Statement (.triggerMask mask) := fun c _ _ r => by
  rw [encode, decode_header c (wire_toNat_lt _) (by omega) (by omega)]
  simp only [decodeBody, if_true, BitVec.ofNat_toNat, BitVec.setWidth_eq]

theorem wireRead : Statement .wireRead := bareRecord (by omega) (fun _ => rfl) fun _ _ => rfl

theorem pipeWrite (data : List Byte) (bs : Nat) : Statement (.pipeWrite data bs) := fun c _ hw r => by
  simp only [Instr.wf, Bool.and_eq_true] at hw
  rw [encode, List.append_assoc,
    decode_header c (fits_iff.1 hw.1) (fits_iff.1 hw.2) (by omega)]
  simp only [decodeBody]
  rw [takeBytes_append]; rfl

theorem pipeRead (n bs : Nat) : Statement (.pipeRead n bs) := fun c _ hw r => by
  simp only [Instr.wf, Bool.and_eq_true] at hw
  rw [encode, decode_header c (fits_iff.1 hw.1) (fits_iff.1 hw.2) (by omega)]; rfl

theorem writeSetup : Statement .writeSetup := bareRecord (by omega) (fun _ => rfl) fun _ _ => rfl

theorem writeChannels (buffers : List (List Nat)) (start : Bool) :
    Statement (.writeChannels buffers start) := fun c _ hw r => by
  rw [encode, List.append_assoc,
    decode_header c (channelsFit_length hw) (by cases start <;> simp [encBool]) (by omega)]
  simp only [decodeBody]
  rw [takeChannels hw]
  cases start <;> rfl

theorem writeBuf (frame : List Byte) (start : Bool) : Statement (.writeBuf frame start) :=
  fun c _ hw r => by
  rw [encode, List.append_assoc,
    decode_header c (fits_iff.1 hw) (by cases start <;> simp [encBool]) (by omega)]
  simp only [decodeBody]
  rw [takeBytes_append]
  cases start <;> rfl

theorem writeFinish : Statement .writeFinish := bareRecord (by omega) (fun _ => rfl) fun _ _ => rfl
theorem repeatSetup : Statement .repeatSetup := bareRecord (by omega) (fun _ => rfl) fun _ _ => rfl
theorem setAdcDebug : Statement .setAdcDebug := bareRecord (by omega) (fun _ => rfl) fun _ _ => rfl
theorem clearAdcDebug : Statement .clearAdcDebug :=
  bareRecord (by omega) (fun _ => rfl) fun _ _ => rfl
theorem fifoStatus : Statement .fifoStatus := bareRecord (by omega) (fun _ => rfl) fun _ _ => rfl

theorem resetFifo (name : FifoArg) : Statement (.resetFifo name) := fun c _ hw r => by
  cases name with
  | one q =>
    cases q <;>
      (rw [encode, decode_header c (by simp [fifoArgCode]) (by omega) (by omega)]; rfl)
  | all => rw [encode, decode_header c (by simp [fifoArgCode]) (by omega) (by omega)]; rfl
  | unknown code =>
    simp only [Instr.wf, FifoArg.wf, Bool.and_eq_true, decide_eq_true_eq] at hw
    rw [encode, fifoArgCode, decode_header c (fits_iff.1 hw.2) (by omega) (by omega)]
    obtain ⟨k, rfl⟩ : ∃ k, code = k + 5 := ⟨code - 5, by omega⟩
    rfl

theorem resetPointers : Statement .resetPointers :=
  bareRecord (by omega) (fun _ => rfl) fun _ _ => rfl

theorem readBlock (n bs : Nat) : Statement (.readBlock n bs) := fun c _ hw r => by
  simp only [Instr.wf, Bool.and_eq_true] at hw
  rw [encode, decode_header c (fits_iff.1 hw.1) (fits_iff.1 hw.2) (by omega)]; rfl

theorem dacFill : Statement .dacFill := bareRecord (by omega) (fun _ => rfl) fun _ _ => rfl
theorem dacPlay : Statement .dacPlay := bareRecord (by omega) (fun _ => rfl) fun _ _ => rfl
theorem adcStore : Statement .adcStore := bareRecord (by omega) (fun _ => rfl) fun _ _ => rfl
theorem adcFetch : Statement .adcFetch := bareRecord (by omega) (fun _ => rfl) fun _ _ => rfl
theorem dacSink : Statement .dacSink := bareRecord (by omega) (fun _ => rfl) fun _ _ => rfl
theorem adcSource : Statement .adcSource := bareRecord (by omega) (fun _ => rfl) fun _ _ => rfl

theorem stripe (buffers : List (List Nat)) : Statement (.stripe buffers) := fun c _ hw r => by
  rw [encode, List.append_assoc, decode_header c (channelsFit_length hw) (by omega) (by omega)]
  simp only [decodeBody]
  rw [takeChannels hw]; rfl

theorem bytesRecord {mk : List Byte → Instr} {tag : Nat} (ht : tag < 4294967296)
    (hw : ∀ d, (mk d).wf = fits d.length) (he : ∀ c d, encode c (mk d) = header d.length 0 tag ++ d)
    (hd : ∀ c w l, decodeBody c w 0 tag l = withBytes mk w 0 l) (d : List Byte) :
    Statement (mk d) := by
  intro c _ h r
  rw [he, List.append_assoc, decode_header c (fits_iff.1 (hw d ▸ h)) (by omega) ht, hd,
    withBytes_append]

theorem destripe (frame : List Byte) : Statement (.destripe frame) :=
  bytesRecord (by omega) (fun _ => rfl) (fun _ _ => rfl) (fun _ _ _ => rfl) frame
theorem deswizzleLegacy (d : List Byte) : Statement (.deswizzleLegacy d) :=
  bytesRecord (by omega) (fun _ => rfl) (fun _ _ => rfl) (fun _ _ _ => rfl) d
theorem deswizzleFull (d : List Byte) : Statement (.deswizzleFull d) :=
  bytesRecord (by omega) (fun _ => rfl) (fun _ _ => rfl) (fun _ _ _ => rfl) d

theorem swizzle (dialect : Dialect) (chan : List (List Nat)) : Statement (.swizzle dialect chan) :=
  fun c _ hw r => by
  rw [encode, List.append_assoc,
    decode_header c (channelsFit_length hw) (by cases dialect <;> simp [dialectCode]) (by omega)]
  simp only [decodeBody]
  rw [takeChannels hw]
  cases dialect <;> rfl

theorem decodeFields (chan : List (List Nat)) (layout : Layout) :
    Statement (.decodeFields chan layout) := fun c _ hw r => by
  simp only [Instr.wf, Bool.and_eq_true] at hw
  rw [encode, List.append_assoc, List.append_assoc,
    decode_header c (channelsFit_length hw.1) (by omega) (by omega)]
  simp only [decodeBody]
  rw [takeChannels hw.1]; simp only [except_bind_ok]
  rw [takeLayout_enc hw.2]; rfl

theorem dialectTagOf_code {tag : DialectTag} (h : tag.wf = true) :
    dialectTagOf (dialectTagCode tag) = tag ∧ dialectTagCode tag < 4294967296 := by
  cases tag with
  | known d => cases d <;> exact ⟨rfl, by simp [dialectTagCode, dialectCode]⟩
  | unknown code =>
    simp only [DialectTag.wf, Bool.and_eq_true, decide_eq_true_eq] at h
    obtain ⟨k, rfl⟩ : ∃ k, code = k + 2 := ⟨code - 2, by omega⟩
    exact ⟨rfl, fits_iff.1 h.2⟩

theorem decode (tag : DialectTag) (version : VersionArg) (d : List Byte) :
    Statement (.decode tag version d) := fun c _ hw r => by
  simp only [Instr.wf, Bool.and_eq_true] at hw
  obtain ⟨ht, hc⟩ := dialectTagOf_code hw.1.1
  rw [encode, List.append_assoc, List.append_assoc,
    decode_header c (fits_iff.1 hw.2) hc (by omega)]
  simp only [decodeBody]
  rw [takeVersion_encVersion hw.1.2]; simp only [except_bind_ok]
  rw [takeBytes_append]; simp only [except_bind_ok]
  rw [ht]

end Sys2Proof.Laws.RoundTrip
end

