-- ==== Sys2Proof/Laws/Pulse.lean ====
section
/-! SUPPORT. Pulses on several TRIG bits at one instant (30_encoding.md R104): which bits a mask names, and
what each pulse leaves alone. -/

namespace Sys2Proof.Machine

theorem Trig.mem_all (t : Trig) : t ∈ Trig.all := by cases t <;> decide

/-- The bits a pulse mask names. -/
theorem mem_trigsOf {c : Cfg} {mask : Wire} {t : Trig} :
    t ∈ trigsOf c mask ↔ mask.getLsbD (c.tpos.get t) = true := by
  simp [trigsOf, Trig.mem_all]

/-- The trigger positions are the five of CFG.TPOS (30_encoding.md R108). -/
theorem getLsbD_trigsMask (c : Cfg) (i : Nat) :
    (trigsMask c).getLsbD i = Trig.all.any fun t => decide (i = c.tpos.get t) && decide (i < 32) := by
  have h : ∀ t, (pulseMask c t).getLsbD i = (decide (i = c.tpos.get t) && decide (i < 32)) := by
    intro t
    rw [pulseMask, getLsbD_bitMask]
    by_cases e : i = c.tpos.get t <;> simp [e]
  simp [trigsMask, Trig.all, h, Bool.or_assoc]

/-- The mask of one bit names that bit alone. -/
theorem trigsOf_pulseMask {c : Cfg} (hv : c.Valid) (t : Trig) : trigsOf c (pulseMask c t) = [t] := by
  have h : ∀ u, (pulseMask c t).getLsbD (c.tpos.get u) = decide (u = t) := by
    intro u
    rw [pulseMask, getLsbD_bitMask]
    by_cases e : u = t
    · simp [e, hv.tpos_lt]
    · simp [e]
      exact fun h => absurd (hv.tpos_inj _ _ h) e
  simp only [trigsOf, h]
  cases t <;> rfl

/-- The mask of one bit is inside the trigger positions. -/
theorem pulseMask_inside (c : Cfg) (t : Trig) : pulseMask c t &&& ~~~ trigsMask c = 0#32 := by
  apply BitVec.eq_of_getLsbD_eq
  intro i hi
  rw [BitVec.getLsbD_and, BitVec.getLsbD_not, getLsbD_trigsMask, pulseMask, getLsbD_bitMask]
  by_cases e : i = c.tpos.get t
  · simp [hi]
    exact fun _ _ => ⟨t, Trig.mem_all t, e⟩
  · simp [e]

/-- A property every pulse of a list keeps. -/
theorem pulseAll_keeps_prop {P : State → Prop} {ts : List Trig} (h : ∀ t ∈ ts, ∀ s, P s → P (pulse t s))
    {s : State} (h0 : P s) : P (pulseAll ts s) := by
  induction ts generalizing s with
  | nil => exact h0
  | cons t ts ih =>
    exact ih (fun u hu => h u (List.mem_cons_of_mem _ hu)) (h t List.mem_cons_self s h0)

/-! ### One lemma that says what pulses leave alone (70_reset_and_hazards.md R303) -/

/-- What pulses of the bits `ts` leave alone between `s` and `u`, and the FIFOs of stopped paths they empty. -/
structure PulseFrame (ts : List Trig) (s u : State) : Prop where
  keeps : KeepsControl s u
  played : u.dacOut = s.dacOut
  fifo : ∀ q, rstOf q ∉ ts → u.fifo.get q = s.fifo.get q
  emptied : ∀ q, rstOf q ∈ ts → s.ctrl.get (gate q) = false → u.fifo.get q = []
  overrun : .rstAdcIn ∉ ts → u.adcOverrun = s.adcOverrun
  dacWr : .rstPtr ∉ ts → (.rstDacIn ∈ ts → s.ctrl.dacWrite = false) → u.ptr.dacWr = s.ptr.dacWr
  dacRd : .rstPtr ∉ ts → (.rstDacOut ∈ ts → s.ctrl.dacRead = false) → u.ptr.dacRd = s.ptr.dacRd
  adcWr : .rstPtr ∉ ts → u.ptr.adcWr = s.ptr.adcWr
  adcRd : .rstPtr ∉ ts → (.rstAdcOut ∈ ts → s.ctrl.adcTransfer = false) →
    u.ptr.adcRd = s.ptr.adcRd ∧ u.adcFill = s.adcFill
  ddrDac : (.rstPtr ∈ ts ∨ .rstDacIn ∈ ts → s.ctrl.dacWrite = false) → u.ddrDac = s.ddrDac
  ddrAdc : (.rstPtr ∈ ts → s.ctrl.adcWrite = false) → u.ddrAdc = s.ddrAdc

theorem PulseFrame.nil (s : State) : PulseFrame [] s s := by
  constructor <;> first | exact .refl s | simp

theorem PulseFrame.trans {ts us : List Trig} {s u v : State} (h : PulseFrame ts s u)
    (k : PulseFrame us u v) : PulseFrame (ts ++ us) s v where
  keeps := h.keeps.trans k.keeps
  played := k.played.trans h.played
  fifo q m := by
    rw [List.mem_append, not_or] at m
    exact (k.fifo q m.2).trans (h.fifo q m.1)
  emptied q m e := by
    by_cases i : rstOf q ∈ us
    · exact k.emptied q i (by rw [h.keeps.ctrl]; exact e)
    · rw [k.fifo q i]
      exact h.emptied q ((List.mem_append.1 m).resolve_right i) e
  overrun m := by
    rw [List.mem_append, not_or] at m
    exact (k.overrun m.2).trans (h.overrun m.1)
  dacWr m e := by
    rw [List.mem_append, not_or] at m
    exact (k.dacWr m.2 fun i => by rw [h.keeps.ctrl]; exact e (List.mem_append_right _ i)).trans
      (h.dacWr m.1 fun i => e (List.mem_append_left _ i))
  dacRd m e := by
    rw [List.mem_append, not_or] at m
    exact (k.dacRd m.2 fun i => by rw [h.keeps.ctrl]; exact e (List.mem_append_right _ i)).trans
      (h.dacRd m.1 fun i => e (List.mem_append_left _ i))
  adcWr m := by
    rw [List.mem_append, not_or] at m
    exact (k.adcWr m.2).trans (h.adcWr m.1)
  adcRd m e := by
    rw [List.mem_append, not_or] at m
    obtain ⟨a, b⟩ := h.adcRd m.1 fun i => e (List.mem_append_left _ i)
    obtain ⟨c, d⟩ := k.adcRd m.2 fun i => by rw [h.keeps.ctrl]; exact e (List.mem_append_right _ i)
    exact ⟨c.trans a, d.trans b⟩
  ddrDac e := by
    simp only [List.mem_append] at e
    exact (k.ddrDac fun i => by rw [h.keeps.ctrl]; exact e (i.imp .inr .inr)).trans
      (h.ddrDac fun i => e (i.imp .inl .inl))
  ddrAdc e := by
    simp only [List.mem_append] at e
    exact (k.ddrAdc fun i => by rw [h.keeps.ctrl]; exact e (.inr i)).trans
      (h.ddrAdc fun i => e (.inl i))

theorem pointerHavoc_frame (s : State) : PulseFrame [.rstPtr] s (pointerHavoc s) := by
  have k := pointerHavoc_keeps s
  revert k
  cases h1 : s.ctrl.dacWrite <;> cases h2 : s.ctrl.adcWrite <;>
    simp only [pointerHavoc, h1, h2, Bool.false_eq_true, if_false, if_true] <;> intro k
  all_goals
    constructor
    case keeps => exact k
    case fifo | emptied =>
      intro q
      cases q <;>
        simp [rstOf, havocAdc, havocDac, havocPtr, havocFill, setPtr, takeDraw]
    all_goals
      simp [h1, h2, havocAdc, havocDac, havocPtr, havocFill, setPtr, takeDraw]

theorem pulse_frame (t : Trig) (s : State) : PulseFrame [t] s (pulse t s) := by
  have k := pulse_keeps t s
  revert k
  cases t <;> simp only [pulse] <;> split <;> rename_i hc <;> intro k
  case rstPtr.isTrue => exact pointerHavoc_frame s
  all_goals
    constructor
    case keeps => exact k
    case fifo | emptied =>
      intro q
      cases q <;>
        simp [rstOf, gate, hc, fifoReset, havocDac, havocPtr, havocFifo, havocFill, havocOverrun,
          pointerReset, setFifo, setPtr, takeDraw]
    all_goals
      simp [hc, fifoReset, havocDac, havocPtr, havocFifo, havocFill, havocOverrun, pointerReset,
        setFifo, setPtr, takeDraw]

theorem pulseAll_frame (ts : List Trig) (s : State) : PulseFrame ts s (pulseAll ts s) := by
  induction ts generalizing s with
  | nil => exact .nil s
  | cons t ts ih => exact (pulse_frame t s).trans (ih (pulse t s))

/-- Pulses keep a well-typed state well typed. -/
theorem pulseAll_typed (ts : List Trig) {s : State} (ht : s.Typed) (hv : s.cfg.Valid) :
    (pulseAll ts s).Typed := by
  induction ts generalizing s with
  | nil => exact ht
  | cons t ts ih => exact ih (ht.pulse hv t) (by rw [(pulse_keeps t s).cfg]; exact hv)

/-- A FIFO reset whose path is stopped (42_datapath.md R186). -/
theorem pulse_stopped_fifo {s : State} {q : Fifo} (h : s.ctrl.get (gate q) = false) :
    pulse (rstOf q) s = fifoReset q s := by
  cases q <;> simp only [gate, PerFlag.get] at h <;> simp [rstOf, pulse, h]

end Sys2Proof.Machine
end

