-- ==== Sys2Proof/Laws/Setup.lean ====
section
/-! SUPPORT. The three clears `write_setup` and `repeat_setup` begin with (41_controller_ops.md R160,
R167), entered with DacWrite clear. -/

namespace Sys2Proof.Machine

/-- The two orders in which the three flags are cleared. -/
def ClearOrder (f1 f2 f3 : Flag) : Prop :=
  (f1 = .dacRead ∧ f2 = .adcWrite ∧ f3 = .adcTransfer) ∨
  (f1 = .adcTransfer ∧ f2 = .adcWrite ∧ f3 = .dacRead)

/-- What the three clears, each followed by a gap, leave. -/
structure ThreeCleared (s u : State) : Prop where
  ctrl : u.ctrl = { s.ctrl with dacRead := false, adcWrite := false, adcTransfer := false }
  cfg : u.cfg = s.cfg
  program : u.program = s.program
  fault : u.fault = s.fault
  result : u.result = s.result
  ddrDac : u.ddrDac = s.ddrDac
  ddrAdc : s.ctrl.adcWrite = false → u.ddrAdc = s.ddrAdc
  played : Played s u
  sunk : s.ctrl.dacRead = false → u.dacOut ++ u.fifo.dacOut = s.dacOut ++ s.fifo.dacOut

/-- The flags after CLEAR_BIT(f), whatever the mark (40_transactions.md R142). -/
theorem runTxn_clear_ctrl {s : State} (hv : s.cfg.Valid) {f : Flag} (hf : f ≠ .adcDebug) :
    (runTxn (.clear f) s).ctrl = s.ctrl.set f false := by
  show (writeCtrl _ _ s).ctrl = _
  rw [writeCtrl_ctrl, ctrlAfter_clearBit hv (flagPresent_of fun e => absurd e hf)]

/-- The flags after the transaction of `write_finish` (41_controller_ops.md R166). -/
theorem runTxn_stream_ctrl {s : State} (hv : s.cfg.Valid) :
    (runTxn (.atomic t3 [true, true, true]) s).ctrl
      = { s.ctrl with dacRead := true, adcWrite := true, adcTransfer := true } := by
  show (writeCtrl _ _ s).ctrl = _
  rw [writeCtrl_ctrl]
  exact ctrlAfter_stream hv _

theorem runTxn_pulse_keeps (t : Trig) (s : State) : KeepsControl s (runTxn (.pulse t) s) :=
  pulse_keeps t s

/-- The resets change no flag and no mark, whatever is asserted (R171, R172). -/
theorem resets_keeps (s : State) :
    KeepsControl s (runTxn (.pulse .rstPtr) (runHw (issue resetAllTxns s))) := by
  have h1 : KeepsControl s (issue resetAllTxns s) :=
    issue_keeps_prop (P := KeepsControl s) (fun t ht u hu => by
        simp only [resetAllTxns, List.mem_cons, List.not_mem_nil, or_false] at ht
        rcases ht with rfl | rfl | rfl | rfl <;> exact hu.trans (runTxn_pulse_keeps _ u))
      (fun u hu => hu.trans (runHw_keeps u)) (KeepsControl.refl _)
  exact (h1.trans (runHw_keeps _)).trans (runTxn_pulse_keeps .rstPtr _)

/-- `write_setup` and `repeat_setup`, transaction by transaction (R160, R167). -/
theorem issue_writeSetup (s : State) : issue writeSetupTxns s
    = runTxn (.pulse .rstPtr) (runHw (issue resetAllTxns (runHw (runTxn (.clear .adcTransfer)
        (runHw (runTxn (.clear .adcWrite) (runHw (runTxn (.clear .dacRead) s)))))))) := rfl

theorem issue_repeatSetup (s : State) : issue repeatSetupTxns s
    = runTxn (.atomic t3 [true, true, true]) (runHw (runTxn (.pulse .rstPtr) (runHw
        (issue resetAllTxns (runHw (runTxn (.clear .dacRead) (runHw (runTxn (.clear .adcWrite)
          (runHw (runTxn (.clear .adcTransfer) s)))))))))) := rfl

theorem clearBit_present {s : State} (hv : s.cfg.Valid) (hx : s.Excl) (f : Flag)
    (hf : f ≠ .adcDebug) : runTxn (.clear f) s = s.setCtrl (s.ctrl.set f false) :=
  clearBit_eq hv hx (flagPresent_of fun e => absurd e hf)

theorem threeClears {s : State} (hv : s.cfg.Valid) {f1 f2 f3 : Flag} (hset : ClearOrder f1 f2 f3)
    (hw : s.ctrl.dacWrite = false) :
    ThreeCleared s (runHw (runTxn (.clear f3) (runHw (runTxn (.clear f2) (runHw
      (runTxn (.clear f1) s)))))) := by
  have excl : ∀ u : State, u.ctrl.dacWrite = false → u.Excl := fun u h e => by rw [h] at e; cases e
  set u := runHw (runTxn (.clear f3) (runHw (runTxn (.clear f2) (runHw (runTxn (.clear f1) s)))))
    with hu
  have hf : f1 ≠ .adcDebug ∧ f2 ≠ .adcDebug ∧ f3 ≠ .adcDebug ∧ f1 ≠ .dacWrite ∧ f2 ≠ .dacWrite ∧ f3 ≠ .dacWrite := by
    rcases hset with ⟨rfl, rfl, rfl⟩ | ⟨rfl, rfl, rfl⟩ <;> decide
  obtain ⟨n1, n2, n3, m1, m2, m3⟩ := hf
  have w : ∀ (p : PerFlag Bool) f, f ≠ .dacWrite → (p.set f false).dacWrite = p.dacWrite := fun p f h => by
    rw [← PerFlag.get_dacWrite, PerFlag.get_set_ne _ _ h.symm]; rfl
  have a1 := clearBit_present hv (excl s hw) f1 n1
  set a := runTxn (.clear f1) s with ha
  have s1 := runHw_stopped a
  have k1 := runHw_keeps a
  have p1 := runHw_played a
  set g := runHw a with hg
  have gw : g.ctrl.dacWrite = false := by rw [k1.ctrl, a1]; show (s.ctrl.set f1 false).dacWrite = false; rw [w _ _ m1, hw]
  have gv : g.cfg.Valid := by rw [k1.cfg, a1]; exact hv
  have a2 := clearBit_present gv (excl g gw) f2 n2
  set b := runTxn (.clear f2) g with hb
  have s2 := runHw_stopped b
  have k2 := runHw_keeps b
  have p2 := runHw_played b
  set h := runHw b with hh
  have hhw : h.ctrl.dacWrite = false := by rw [k2.ctrl, a2]; show (g.ctrl.set f2 false).dacWrite = false; rw [w _ _ m2, gw]
  have hhv : h.cfg.Valid := by rw [k2.cfg, a2]; exact gv
  have a3 := clearBit_present hhv (excl h hhw) f3 n3
  set c := runTxn (.clear f3) h with hc
  have s3 := runHw_stopped c
  have k3 := runHw_keeps c
  have p3 := runHw_played c
  have cw : c.ctrl.dacWrite = false := by rw [a3]; show (h.ctrl.set f3 false).dacWrite = false; rw [w _ _ m3, hhw]
  have aw : a.ctrl.dacWrite = false := by rw [a1]; show (s.ctrl.set f1 false).dacWrite = false; rw [w _ _ m1, hw]
  have bw : b.ctrl.dacWrite = false := by rw [a2]; show (g.ctrl.set f2 false).dacWrite = false; rw [w _ _ m2, gw]
  have ectrl : u.ctrl = ((s.ctrl.set f1 false).set f2 false).set f3 false := by
    show (runHw c).ctrl = _
    rw [k3.ctrl, a3]
    show h.ctrl.set f3 false = _
    rw [k2.ctrl, a2]
    show (g.ctrl.set f2 false).set f3 false = _
    rw [k1.ctrl, a1]; rfl
  refine ⟨?_, ?_, ?_, ?_, ?_, ?_, ?_, ?_, ?_⟩
  · rw [ectrl]; rcases hset with ⟨rfl, rfl, rfl⟩ | ⟨rfl, rfl, rfl⟩ <;> rfl
  · show (runHw c).cfg = _; rw [k3.cfg, a3]; show h.cfg = _; rw [k2.cfg, a2]; show g.cfg = _; rw [k1.cfg, a1]; rfl
  · show (runHw c).program = _; rw [k3.program, a3]; show h.program = _; rw [k2.program, a2]; show g.program = _; rw [k1.program, a1]; rfl
  · show (runHw c).fault = _; rw [k3.fault, a3]; show h.fault = _; rw [k2.fault, a2]; show g.fault = _; rw [k1.fault, a1]; rfl
  · show (runHw c).result = _; rw [k3.result, a3]; show h.result = _; rw [k2.result, a2]; show g.result = _; rw [k1.result, a1]; rfl
  · show (runHw c).ddrDac = _; rw [(s3.write cw).2.2, a3]; show h.ddrDac = _; rw [(s2.write bw).2.2, a2]; show g.ddrDac = _; rw [(s1.write aw).2.2, a1]; rfl
  · intro e
    have aa : a.ctrl.adcWrite = false := by rw [a1]; rcases hset with ⟨rfl, rfl, rfl⟩ | ⟨rfl, rfl, rfl⟩ <;> exact e
    have ga : g.ctrl.adcWrite = false := by rw [k1.ctrl, aa]
    have ba : b.ctrl.adcWrite = false := by rw [a2]; rcases hset with ⟨rfl, rfl, rfl⟩ | ⟨rfl, rfl, rfl⟩ <;> rfl
    have ca : c.ctrl.adcWrite = false := by rw [a3]; rcases hset with ⟨rfl, rfl, rfl⟩ | ⟨rfl, rfl, rfl⟩ <;> (show h.ctrl.adcWrite = false; rw [k2.ctrl, ba])
    show (runHw c).ddrAdc = _; rw [(s3.capture ca).2.2.1, a3]; show h.ddrAdc = _; rw [(s2.capture ba).2.2.1, a2]; show g.ddrAdc = _; rw [(s1.capture aa).2.2.1, a1]; rfl
  · have q1 : Played s a := by rw [a1]; exact .of_eq rfl
    have q2 : Played g b := by rw [a2]; exact .of_eq rfl
    have q3 : Played h c := by rw [a3]; exact .of_eq rfl
    exact q1.trans (p1.trans (q2.trans (p2.trans (q3.trans p3))))
  · intro e
    have aa : a.ctrl.dacRead = false := by rw [a1]; rcases hset with ⟨rfl, rfl, rfl⟩ | ⟨rfl, rfl, rfl⟩ <;> first | rfl | exact e
    have ga : g.ctrl.dacRead = false := by rw [k1.ctrl, aa]
    have ba : b.ctrl.dacRead = false := by rw [a2]; rcases hset with ⟨rfl, rfl, rfl⟩ | ⟨rfl, rfl, rfl⟩ <;> exact ga
    have ha' : h.ctrl.dacRead = false := by rw [k2.ctrl, ba]
    have ca : c.ctrl.dacRead = false := by rw [a3]; rcases hset with ⟨rfl, rfl, rfl⟩ | ⟨rfl, rfl, rfl⟩ <;> first | rfl | exact ha'
    show (runHw c).dacOut ++ (runHw c).fifo.dacOut = _
    rw [(s3.play ca).2, a3]; show h.dacOut ++ h.fifo.dacOut = _; rw [(s2.play ba).2, a2]; show g.dacOut ++ g.fifo.dacOut = _; rw [(s1.play aa).2, a1]; rfl

end Sys2Proof.Machine
end

