-- ==== Sys2Proof/Laws/Status.lean ====
section
/-! SUPPORT. The STATUS word bit by bit (30_encoding.md R110): where each flag and the count stand, and that
no two of them share a bit. -/

namespace Sys2Proof.Machine

theorem Fifo.mem_all (q : Fifo) : q ∈ Fifo.all := by cases q <;> simp [Fifo.all]

theorem getLsbD_orAll (l : List Wire) (i : Nat) :
    (orAll l).getLsbD i = l.any fun w => w.getLsbD i := by
  have h := foldl_or_getLsbD (fun w : Wire => w) l 0#32 i
  simpa [orAll] using h

theorem getLsbD_bitIf (b : Bool) (p i : Nat) :
    (bitIf b p).getLsbD i = (b && decide (i = p) && decide (p < 32)) := by
  cases b
  · simp [bitIf]
  · simp [bitIf, getLsbD_bitMask]

theorem mem_statusPositions {c : Cfg} {i : Nat} : i ∈ c.statusPositions ↔
    (∃ q, c.emptyPos.get q = i) ∨ (∃ q, c.fullPos.get q = i) ∨
      (c.countLo ≤ i ∧ i < c.countLo + c.countWidth) := by
  simp only [Cfg.statusPositions, List.mem_append, List.mem_map, List.mem_range'_1, or_assoc]
  constructor
  · rintro (⟨q, -, h⟩ | ⟨q, -, h⟩ | h)
    · exact .inl ⟨q, h⟩
    · exact .inr (.inl ⟨q, h⟩)
    · exact .inr (.inr h)
  · rintro (⟨q, h⟩ | ⟨q, h⟩ | h)
    · exact .inl ⟨q, Fifo.mem_all q, h⟩
    · exact .inr (.inl ⟨q, Fifo.mem_all q, h⟩)
    · exact .inr (.inr h)

theorem getLsbD_statusKnown {c : Cfg} (hv : c.Valid) (i : Nat) :
    (statusKnown c).getLsbD i = true ↔ i ∈ c.statusPositions := by
  rw [statusKnown, getLsbD_orAll, List.any_map, List.any_eq_true]
  constructor
  · rintro ⟨p, hp, h⟩
    simp only [Function.comp_apply, getLsbD_bitMask, Bool.and_eq_true, decide_eq_true_eq] at h
    exact h.1 ▸ hp
  · intro h
    exact ⟨i, h, by simp [getLsbD_bitMask, hv.status_lt i h]⟩

/-- The specified bits of STATUS do not depend on the draw (40_transactions.md R146). -/
theorem getLsbD_statusWord {s : State} (hv : s.cfg.Valid) {i : Nat} (h : i ∈ s.cfg.statusPositions) :
    (statusWord s).getLsbD i = (statusFields s).getLsbD i := by
  have hk := (getLsbD_statusKnown hv i).2 h
  simp [statusWord, hk]

theorem getLsbD_statusFields {s : State} (i : Nat) : (statusFields s).getLsbD i = true ↔
    (∃ q, s.cfg.emptyPos.get q = i ∧ i < 32 ∧ isEmpty s q = true) ∨
    (∃ q, s.cfg.fullPos.get q = i ∧ i < 32 ∧ isFull s q = true) ∨
    (s.cfg.countLo ≤ i ∧ i < 32 ∧
      ((s.fifo.get s.cfg.countFifo).length % 2 ^ s.cfg.countWidth).testBit (i - s.cfg.countLo) = true) := by
  simp only [statusFields, BitVec.getLsbD_or, Bool.or_eq_true, getLsbD_orAll, List.any_map,
    List.any_eq_true, Function.comp_apply, getLsbD_bitIf, Bool.and_eq_true, decide_eq_true_eq,
    BitVec.getLsbD_shiftLeft, BitVec.getLsbD_ofNat, Bool.not_eq_true', decide_eq_false_iff_not,
    or_assoc]
  constructor
  · rintro (⟨q, -, ⟨hb, rfl⟩, hl⟩ | ⟨q, -, ⟨hb, rfl⟩, hl⟩ | ⟨⟨hi, hlo⟩, -, ht⟩)
    · exact .inl ⟨q, rfl, hl, hb⟩
    · exact .inr (.inl ⟨q, rfl, hl, hb⟩)
    · exact .inr (.inr ⟨by omega, hi, ht⟩)
  · rintro (⟨q, rfl, hl, hb⟩ | ⟨q, rfl, hl, hb⟩ | ⟨hlo, hi, ht⟩)
    · exact .inl ⟨q, Fifo.mem_all q, ⟨hb, rfl⟩, hl⟩
    · exact .inr (.inl ⟨q, Fifo.mem_all q, ⟨hb, rfl⟩, hl⟩)
    · exact .inr (.inr ⟨⟨hi, by omega⟩, by omega, ht⟩)

/-- The nine fields of STATUS share no bit (00_scope.md R6). -/
theorem statusPositions_apart {c : Cfg} (hv : c.Valid) :
    (∀ q r, c.emptyPos.get q = c.emptyPos.get r → q = r) ∧
    (∀ q r, c.fullPos.get q = c.fullPos.get r → q = r) ∧
    (∀ q r, c.emptyPos.get q ≠ c.fullPos.get r) ∧
    (∀ q, ¬ (c.countLo ≤ c.emptyPos.get q ∧ c.emptyPos.get q < c.countLo + c.countWidth)) ∧
    (∀ q, ¬ (c.countLo ≤ c.fullPos.get q ∧ c.fullPos.get q < c.countLo + c.countWidth)) := by
  have h := hv.status_nodup
  rw [Cfg.statusPositions, List.nodup_append] at h
  obtain ⟨h12, -, h3⟩ := h
  rw [List.nodup_append] at h12
  obtain ⟨h1, h2, h4⟩ := h12
  have inj : ∀ f : Fifo → Nat, (Fifo.all.map f).Nodup → ∀ q r, f q = f r → q = r := fun f hf q r e =>
    List.inj_on_of_nodup_map hf (Fifo.mem_all q) (Fifo.mem_all r) e
  refine ⟨inj _ h1, inj _ h2, fun q r e => ?_, fun q hq => ?_, fun q hq => ?_⟩
  · exact h4 _ (List.mem_map_of_mem (Fifo.mem_all q)) _ (List.mem_map_of_mem (Fifo.mem_all r)) e
  · exact h3 _ (List.mem_append.2 (.inl (List.mem_map_of_mem (Fifo.mem_all q)))) _
      (List.mem_range'_1.2 hq) rfl
  · exact h3 _ (List.mem_append.2 (.inr (List.mem_map_of_mem (Fifo.mem_all q)))) _
      (List.mem_range'_1.2 hq) rfl

theorem count_testBit_out {n w i lo : Nat} (hlo : lo ≤ i) (h : ¬ (lo ≤ i ∧ i < lo + w)) :
    (n % 2 ^ w).testBit (i - lo) = false := by
  apply Nat.testBit_lt_two_pow
  have h1 : n % 2 ^ w < 2 ^ w := Nat.mod_lt _ (Nat.two_pow_pos w)
  have h2 : 2 ^ w ≤ 2 ^ (i - lo) := Nat.pow_le_pow_right (by omega) (by omega)
  omega

/-- The empty bit of a FIFO (R110). -/
theorem statusWord_empty {s : State} (hv : s.cfg.Valid) (q : Fifo) :
    (statusWord s).getLsbD (s.cfg.emptyPos.get q) = isEmpty s q := by
  have hm : s.cfg.emptyPos.get q ∈ s.cfg.statusPositions := mem_statusPositions.2 (.inl ⟨q, rfl⟩)
  obtain ⟨a1, a2, a3, a4, a5⟩ := statusPositions_apart hv
  rw [getLsbD_statusWord hv hm, Bool.eq_iff_iff, getLsbD_statusFields]
  constructor
  · rintro (⟨r, e, -, h⟩ | ⟨r, e, -, -⟩ | ⟨hlo, -, h⟩)
    · exact a1 _ _ e ▸ h
    · exact absurd e.symm (a3 q r)
    · rw [count_testBit_out hlo (a4 q)] at h; cases h
  · intro h; exact .inl ⟨q, rfl, hv.status_lt _ hm, h⟩

/-- The full bit of a FIFO (R110). -/
theorem statusWord_full {s : State} (hv : s.cfg.Valid) (q : Fifo) :
    (statusWord s).getLsbD (s.cfg.fullPos.get q) = isFull s q := by
  have hm : s.cfg.fullPos.get q ∈ s.cfg.statusPositions :=
    mem_statusPositions.2 (.inr (.inl ⟨q, rfl⟩))
  obtain ⟨a1, a2, a3, a4, a5⟩ := statusPositions_apart hv
  rw [getLsbD_statusWord hv hm, Bool.eq_iff_iff, getLsbD_statusFields]
  constructor
  · rintro (⟨r, e, -, -⟩ | ⟨r, e, -, h⟩ | ⟨hlo, -, h⟩)
    · exact absurd e (a3 r q)
    · exact a2 _ _ e ▸ h
    · rw [count_testBit_out hlo (a5 q)] at h; cases h
  · intro h; exact .inr (.inl ⟨q, rfl, hv.status_lt _ hm, h⟩)

/-- The count field (R110, R111: "the count is never truncated"). -/
theorem statusWord_count {s : State} (hv : s.cfg.Valid) (ht : s.Typed) :
    ((statusWord s).toNat >>> s.cfg.countLo) % 2 ^ s.cfg.countWidth
      = (s.fifo.get s.cfg.countFifo).length := by
  have hlt : (s.fifo.get s.cfg.countFifo).length < 2 ^ s.cfg.countWidth :=
    lt_of_le_of_lt (ht.fifo_le _) hv.count_fits
  obtain ⟨a1, a2, a3, a4, a5⟩ := statusPositions_apart hv
  apply Nat.eq_of_testBit_eq
  intro j
  rw [Nat.testBit_mod_two_pow, Nat.testBit_shiftRight]
  by_cases hj : j < s.cfg.countWidth
  · have hm : s.cfg.countLo + j ∈ s.cfg.statusPositions :=
      mem_statusPositions.2 (.inr (.inr ⟨by omega, by omega⟩))
    rw [BitVec.testBit_toNat, getLsbD_statusWord hv hm]
    simp only [hj, decide_true, Bool.true_and]
    rw [Bool.eq_iff_iff, getLsbD_statusFields, Nat.mod_eq_of_lt hlt]
    constructor
    · rintro (⟨r, e, -, -⟩ | ⟨r, e, -, -⟩ | ⟨-, -, h⟩)
      · exact absurd ⟨by omega, by omega⟩ (a4 r)
      · exact absurd ⟨by omega, by omega⟩ (a5 r)
      · simpa using h
    · intro h
      exact .inr (.inr ⟨by omega, hv.status_lt _ hm, by simpa using h⟩)
  · simp only [hj, decide_false, Bool.false_and]
    symm
    apply Nat.testBit_lt_two_pow
    exact lt_of_lt_of_le hlt (Nat.pow_le_pow_right (by omega) (by omega))

end Sys2Proof.Machine
end

