-- ==== Sys2Proof/Tests/Slice0.lean ====
section
/-! SUPPORT. The model's own tests. Expected results are taken from 95_test_vectors.md (the vector's name
stands in the comment) or from the encodings of 30_encoding.md; witnesses show that the hypotheses of the
statements can be met together. -/

namespace Sys2Proof.Tests

open Machine

/-! ### Helpers -/

/-- The state of a next outcome. -/
def nextState : Host.Outcome State Fault Refusal → Option State
  | .next s => some s
  | .fault _ => none
  | .refused _ => none

/-- A word of one byte sixteen times. -/
def w (n : Nat) : Word := Word.ofFn fun _ => BitVec.ofNat 8 n

/-- The reset state with the CTRL word `v` under CFG_TEST. -/
def st (v : Nat) : State :=
  let b := fun i => v.testBit i
  { State.reset with ctrl := ⟨b 0, b 1, b 2, b 3, b 4, b 5⟩ }

/-- The CTRL word after a call, and the mark. -/
def ctrlOf (o : Host.Outcome State Fault Refusal) : Option (Nat × Bool) :=
  (nextState o).map fun s => ((ctrlWord s.cfg s.ctrl).toNat, s.fault)

/-- A field of the next state. -/
def field {α : Type} (f : State → α) (o : Host.Outcome State Fault Refusal) : Option α :=
  (nextState o).map f

/-- The buffers of vector V-S2. -/
def bufsS2 : List (List Nat) :=
  (List.range 8).map fun c => (List.range 4).map fun k => 0x1000 * c + 0x100 * k + 0x2A

/-- A frame of 64 zero bytes. -/
def zeros (n : Nat) : List Byte := List.replicate n 0#8

/-! ### Configuration and reset -/

theorem cfg_test_valid : Cfg.test.Valid where
  sampleSize_pos := by decide
  adcBufWords_pos := by decide
  fifoDepth_pos := by intro q; cases q <;> decide
  pos_lt := by intro f; cases f <;> decide
  pos_inj := by intro f g; cases f <;> cases g <;> decide
  tpos_lt := by intro t; cases t <;> decide
  tpos_inj := by intro t u; cases t <;> cases u <;> decide
  status_lt := by decide
  status_nodup := by decide
  count_fits := by decide
  stripe_perm := by decide
  legacy_perm := by decide
  full_perm := by decide
  defaults_excl := by decide
  block_ok := by decide
  codes_neg := by decide
  layoutA_wf := by decide
  layoutB_wf := by decide
  layoutA_two := by decide
  layoutB_two := by decide
  layout_versions := by decide

theorem reset_typed : State.reset.Typed where
  fifo_le := by intro q; cases q <;> decide
  ptr_lt := by intro p; cases p <;> decide
  fill_le := by decide
  dac_wf := List.Pairwise.nil
  dac_within := by intro x hx; cases hx
  adc_wf := List.Pairwise.nil
  adc_within := by intro x hx; cases hx

theorem st_typed (v : Nat) : (st v).Typed := reset_typed.setCtrl _

theorem reset_linked : State.reset.Linked := ⟨by decide, fun i h => absurd h (Nat.not_lt_zero i)⟩

/-! ### WellFormed: an ill-formed term for each check -/

theorem test_wf_atomic_ok : (Instr.atomicWrite [.dacRead] [true]).wf = true := by decide
theorem test_wf_pipeRead_count : (Instr.pipeRead 4294967296 16).wf = false := by decide
theorem test_wf_pipeWrite_block : (Instr.pipeWrite [] 4294967296).wf = false := by decide
theorem test_wf_readBlock_block : (Instr.readBlock 16 4294967296).wf = false := by decide
theorem test_wf_channels_code : (Instr.stripe [[4294967296]]).wf = false := by decide
theorem test_wf_swizzle_code : (Instr.swizzle .full [[4294967296]]).wf = false := by decide
theorem test_wf_writeChannels_code :
    (Instr.writeChannels [[4294967296]] true).wf = false := by decide
theorem test_wf_fifo_name : (Instr.resetFifo (.unknown 4)).wf = false := by decide
theorem test_wf_fifo_code : (Instr.resetFifo (.unknown 4294967296)).wf = false := by decide
theorem test_wf_dialect_tag : (Instr.decode (.unknown 1) .notAVersion []).wf = false := by decide
theorem test_wf_version :
    (Instr.decode (.known .full) (.version 4294967296) []).wf = false := by decide
theorem test_wf_layout_channel :
    (Instr.decodeFields [] { Layout.testA with ts0 := ⟨8, 0⟩ }).wf = false := by decide
theorem test_wf_layout_phase :
    (Instr.decodeFields [] { Layout.testA with ts2 := ⟨7, 5⟩ }).wf = false := by decide
theorem test_wf_layout_counter :
    (Instr.decodeFields [] { Layout.testA with seq0 := ⟨7, 4, 12⟩ }).wf = false := by decide
theorem test_wf_layout_const :
    (Instr.decodeFields [] { Layout.testA with const0 := ⟨6, 2, 65536, 0⟩ }).wf = false := by decide
theorem test_wf_layout_sub :
    (Instr.decodeFields [] { Layout.testA with sub := [⟨adcName, keyA, 0, 2, 0⟩] }).wf = false := by
  decide
/-- A layout whose timestamp is drawn from three channels (45_field_decode.md R231). -/
theorem test_layout_two_channels :
    { Layout.testA with ts0 := ⟨0, 0⟩, ts1 := ⟨1, 0⟩ }.twoChannels = false := by decide
/-- Two layouts that differ in nothing are no pair of versions (R242). -/
theorem test_layout_versions : Layout.testA.versionsOf Layout.testA = false := by decide

/-! ### Decoding: words and records written out from 30_encoding.md -/

-- the words of opcode_table.json, bit i of the CTRL word by R106
theorem test_word_set_dacWrite : decodeTableWord 8 0b000001 = some .setBitDacWrite := by decide
theorem test_word_set_dacRead : decodeTableWord 8 0b000010 = some .setBitDacRead := by decide
theorem test_word_set_adcWrite : decodeTableWord 8 0b000100 = some .setBitAdcWrite := by decide
theorem test_word_set_adcTransfer : decodeTableWord 8 0b001000 = some .setBitAdcTransfer := by decide
theorem test_word_set_adcDebug : decodeTableWord 8 0b010000 = some .setBitAdcDebug := by decide
theorem test_word_set_adcsConnected :
    decodeTableWord 8 0b100000 = some .setBitAdcsConnected := by decide
theorem test_word_stream : decodeTableWord 8 0b001110 = some .atomicWriteStream := by decide
-- W(mask, value) as value, mask xor value, tag 0 (log entry 1)
theorem test_rec_clear_dacWrite :
    decode Cfg.test [0, 0, 0, 0, 1, 0, 0, 0, 0, 0, 0, 0] = .ok (.clearBitDacWrite, []) := by decide
theorem test_rec_clear_dacRead :
    decode Cfg.test [0, 0, 0, 0, 2, 0, 0, 0, 0, 0, 0, 0] = .ok (.clearBitDacRead, []) := by decide
theorem test_rec_clear_adcWrite :
    decode Cfg.test [0, 0, 0, 0, 4, 0, 0, 0, 0, 0, 0, 0] = .ok (.clearBitAdcWrite, []) := by decide
theorem test_rec_clear_adcTransfer :
    decode Cfg.test [0, 0, 0, 0, 8, 0, 0, 0, 0, 0, 0, 0] = .ok (.clearBitAdcTransfer, []) := by decide
theorem test_rec_clear_adcDebug :
    decode Cfg.test [0, 0, 0, 0, 16, 0, 0, 0, 0, 0, 0, 0] = .ok (.clearBitAdcDebug, []) := by decide
theorem test_rec_clear_adcsConnected :
    decode Cfg.test [0, 0, 0, 0, 32, 0, 0, 0, 0, 0, 0, 0] = .ok (.clearBitAdcsConnected, []) := by
  decide
-- W(0x0E, 0x00), V-T4: no other row, so MASKED_WRITE
theorem test_rec_masked : decode Cfg.test [0, 0, 0, 0, 14, 0, 0, 0, 0, 0, 0, 0]
    = .ok (.maskedWrite 0x0E#32 0x00#32, []) := by decide
theorem test_rec_masked_tag : decode Cfg.test [2, 0, 0, 0, 0, 0, 0, 0, 5, 0, 0, 0]
    = .ok (.maskedWrite 0x02#32 0x02#32, []) := by decide
theorem test_rec_atomic : decode Cfg.test
    [1, 0, 0, 0, 1, 0, 0, 0, 6, 0, 0, 0, 2, 0, 0, 0, 1, 0, 0, 0]
    = .ok (.atomicWrite [.adcWrite] [true], []) := by decide
-- T(mask) of R109, tag 1
theorem test_rec_rstDacIn :
    decode Cfg.test [1, 0, 0, 0, 0, 0, 0, 0, 1, 0, 0, 0] = .ok (.triggerRstDacIn, []) := by decide
theorem test_rec_rstDacOut :
    decode Cfg.test [2, 0, 0, 0, 0, 0, 0, 0, 1, 0, 0, 0] = .ok (.triggerRstDacOut, []) := by decide
theorem test_rec_rstAdcIn :
    decode Cfg.test [4, 0, 0, 0, 0, 0, 0, 0, 1, 0, 0, 0] = .ok (.triggerRstAdcIn, []) := by decide
theorem test_rec_rstAdcOut :
    decode Cfg.test [8, 0, 0, 0, 0, 0, 0, 0, 1, 0, 0, 0] = .ok (.triggerRstAdcOut, []) := by decide
theorem test_rec_rstPtr :
    decode Cfg.test [16, 0, 0, 0, 0, 0, 0, 0, 1, 0, 0, 0] = .ok (.triggerRstPtr, []) := by decide
theorem test_rec_all_fifos :
    decode Cfg.test [15, 0, 0, 0, 0, 0, 0, 0, 1, 0, 0, 0] = .ok (.triggerMask 15#32, []) := by decide
-- the other classes: one record each
theorem test_rec_wireRead :
    decode Cfg.test [0, 0, 0, 0, 0, 0, 0, 0, 2, 0, 0, 0] = .ok (.wireRead, []) := by decide
theorem test_rec_pipeWrite : decode Cfg.test [1, 0, 0, 0, 16, 0, 0, 0, 3, 0, 0, 0, 0xAA]
    = .ok (.pipeWrite [0xAA] 16, []) := by decide
theorem test_rec_pipeRead : decode Cfg.test [0x20, 0, 0, 0, 0, 1, 0, 0, 4, 0, 0, 0]
    = .ok (.pipeRead 32 256, []) := by decide
theorem test_rec_writeSetup : decode Cfg.test [0, 0, 0, 0, 0, 0, 0, 0, 7, 0, 0, 0, 9]
    = .ok (.writeSetup, [9]) := by decide
theorem test_rec_writeBuf : decode Cfg.test [1, 0, 0, 0, 1, 0, 0, 0, 9, 0, 0, 0, 7]
    = .ok (.writeBuf [7] true, []) := by decide
theorem test_rec_resetFifo_all : decode Cfg.test [4, 0, 0, 0, 0, 0, 0, 0, 15, 0, 0, 0]
    = .ok (.resetFifo .all, []) := by decide
theorem test_rec_dacFill :
    decode Cfg.test [0, 0, 0, 0, 0, 0, 0, 0, 18, 0, 0, 0] = .ok (.dacFill, []) := by decide
theorem test_rec_deswizzleFull : decode Cfg.test [1, 0, 0, 0, 0, 0, 0, 0, 27, 0, 0, 0, 5]
    = .ok (.deswizzleFull [5], []) := by decide
theorem test_rec_bad_tag :
    decode Cfg.test [0, 0, 0, 0, 0, 0, 0, 0, 32, 0, 0, 0] = .error (.unknownTag 32) := by decide
theorem test_rec_truncated : decode Cfg.test [0, 0, 0] = .error .truncated := by decide

/-! ### Register primitives (95_test_vectors.md 2.1) -/

-- V-T1
theorem test_vt1 : ctrlOf (exec .setBitDacWrite (st 0x00)) = some (0x01, false) := by decide
-- V-T3
theorem test_vt3 : ctrlOf (exec .clearBitDacRead (st 0x0E)) = some (0x0C, false) := by decide
-- V-T4
theorem test_vt4 : ctrlOf (exec (.maskedWrite 0x0E 0x00) (st 0x0E)) = some (0x00, false) := by decide
-- V-T5
theorem test_vt5 : ctrlOf (exec .atomicWriteStream (st 0x00)) = some (0x0E, false) := by decide
theorem test_vt5_atomic :
    ctrlOf (exec (.atomicWrite [.adcWrite, .dacRead, .adcTransfer] [true, true, true]) (st 0x00))
      = some (0x0E, false) := by decide
-- V-T6: the positions are lost, so draws are used up
theorem test_vt6 : field (fun s => (ctrlWord s.cfg s.ctrl, s.draws != 0))
    (exec .writeFinish (st 0x0A)) = some (0x0E#32, true) := by decide
-- V-T7
theorem test_vt7 : field (fun s => (ctrlWord s.cfg s.ctrl, s.draws != 0))
    (exec .setBitAdcWrite (st 0x0A)) = some (0x0E#32, true) := by decide
-- V-T8
theorem test_vt8 : field (fun s => (ctrlWord s.cfg s.ctrl, s.draws))
    (exec .atomicWriteStream (st 0x0E)) = some (0x0E#32, 0) := by decide
-- V-T9
theorem test_vt9 : ctrlOf (exec .setBitDacWrite (st 0x02)) = some (0x03, true) := by decide
-- V-T10
theorem test_vt10 : ctrlOf (exec .writeFinish (st 0x01)) = some (0x0F, true) := by decide
-- V-T11
theorem test_vt11 : ctrlOf (exec .setBitAdcDebug (st 0x0E)) = some (0x1E, false) := by decide
theorem test_vt11_phase : field phase (exec .setBitAdcDebug (st 0x0E)) = some .streaming := by decide
-- V-T12
theorem test_vt12 : ctrlOf (exec .setBitAdcsConnected (st 0x00)) = some (0x20, false) := by decide
-- V-T13
theorem test_vt13 :
    exec (.maskedWrite 0x40 0x40) (st 0x0E) = .refused (.maskOutsideFields 0x40) := by rfl
-- V-T14
theorem test_vt14 :
    exec (.maskedWrite 0x02 0x06) (st 0x0E) = .refused (.valueOutsideMask 0x02 0x06) := by rfl
-- V-T15
theorem test_vt15 : exec (.atomicWrite [.dacRead, .dacRead] [true, true]) (st 0x00)
    = .next { st 0x00 with result := .error .configurationError } := by rfl
-- V-T16
theorem test_vt16 : field (fun s => (s.ptr, s.adcFill))
    (exec .triggerRstPtr { st 0x00 with ptr := ⟨1, 2, 7, 5⟩, adcFill := 2 })
      = some (⟨0, 0, 0, 0⟩, 0) := by decide
-- V-T17
theorem test_vt17 : field (fun s => s.fifo.adcOut)
    (exec .triggerRstAdcOut { st 0x00 with fifo := ⟨[], [], [], [w 1, w 2]⟩ }) = some [] := by decide
-- V-T19
theorem test_vt19 : field (fun s => (s.fifo.adcIn, s.adcOverrun))
    (exec .triggerRstAdcIn { st 0x00 with adcOverrun := true }) = some ([], false) := by decide
-- R104, R109: T(0x0F) is one pulse on all four FIFOs
theorem test_all_fifos : field (fun s => (s.fifo, s.ptr.adcWr, s.draws))
    (exec (.triggerMask 0x0F) { st 0x00 with
      fifo := ⟨[w 1], [w 2], [w 3], [w 4]⟩, ptr := ⟨0, 0, 7, 0⟩ })
    = some (⟨[], [], [], []⟩, 7, 0) := by decide
theorem test_no_pulse : exec (.triggerMask 0x00) (st 0x0F)
    = .next { st 0x0F with result := .done } := by rfl
-- V-R2: the eight flags and the count of the fill levels 0, 8, 1, 3
theorem test_vr2 : (statusFields { st 0x00 with
    fifo := ⟨[], List.replicate 8 (w 0), [w 0], List.replicate 3 (w 0)⟩ }).toNat = 0x000321 := by
  decide
-- V-R3
theorem test_vr3 : (statusFields { st 0x00 with
    fifo := ⟨[], List.replicate 8 (w 0), List.replicate 8 (w 0), List.replicate 8 (w 0)⟩ }).toNat
      = 0x0008E1 := by decide
-- V-R1
theorem test_vr1 : statusKnown Cfg.test = 0xFFFFFF#32 ∧ statusFields State.reset = 0x00000F#32 := by
  decide

/-! ### Bulk transfers (2.2) and operations (2.3) -/

-- V-P2
theorem test_vp2 : field (fun s => (s.ptr.dacWr, Memory.readWord s.ddrDac 3,
      Memory.readWord s.ddrDac 0))
    (.next (storeDac (w 2) (storeDac (w 1) { st 0x01 with ptr := ⟨3, 0, 0, 0⟩ })))
      = some (1, some (w 1), some (w 2)) := by decide
-- V-P7, V-P8, V-P9, V-P10
theorem test_vp7 : transferOk 40 16 = false := by decide
theorem test_vp8 : transferOk 64 24 = false := by decide
theorem test_vp9 : transferOk 64 8 = false ∧ transferOk 64 32768 = false := by decide
theorem test_vp10 : transferOk 48 32 = true := by decide
-- V-P11
theorem test_vp11 : field (·.result) (exec (.pipeWrite [] 16) (st 0x01)) = some (.count 0) := by
  decide
-- V-P4, V-P5
theorem test_vp5 : writeAllowed 64 (st 0x00) = true ∧
    writeAllowed 64 { st 0x00 with fifo := ⟨List.replicate 6 (w 0), [], [], []⟩ } = false := by decide
-- V-O2
theorem test_vo2 : writeSetupTxns = [.clear .dacRead, .clear .adcWrite, .clear .adcTransfer,
    .pulse .rstDacIn, .pulse .rstDacOut, .pulse .rstAdcIn, .pulse .rstAdcOut, .pulse .rstPtr] := by
  decide
-- V-O10
theorem test_vo10 : repeatSetupTxns = [.clear .adcTransfer, .clear .adcWrite, .clear .dacRead,
    .pulse .rstDacIn, .pulse .rstDacOut, .pulse .rstAdcIn, .pulse .rstAdcOut, .pulse .rstPtr,
    .atomic [.adcWrite, .dacRead, .adcTransfer] [true, true, true]] := by decide
-- V-O8
theorem test_vo8 : field (·.result) (exec (.writeBuf (zeros 48) false) (st 0x00))
    = some (.error .configurationError) := by decide
-- V-O12, V-O13, V-O14
theorem test_vo12 : ctrlOf (exec .setAdcDebug (st 0x0E)) = some (0x1E, false) := by decide
theorem test_vo13 : field (·.ctrl) (exec .setAdcDebug
    { st 0x0E with cfg := { Cfg.test with hasAdcDebug := false } }) = some (st 0x0E).ctrl := by decide
theorem test_vo14 : ctrlOf (exec .clearAdcDebug (st 0x1E)) = some (0x0E, false) := by decide
-- V-O16
theorem test_vo16 : field (·.result) (exec (.resetFifo (.unknown 5)) (st 0x00))
    = some (.error .configurationError) := by decide
-- V-O17
theorem test_vo17 : field (·.result) (exec (.readBlock 24 16) (st 0x00))
    = some (.error .configurationError) := by decide
-- V-O18
theorem test_vo18 : buffersOk Cfg.test (bufsS2.take 7) = false ∧
    buffersOk Cfg.test ([1, 2, 3] :: bufsS2.tail) = false ∧
    buffersOk Cfg.test ([65536, 0, 0, 0] :: bufsS2.tail) = false ∧
    buffersOk Cfg.test bufsS2 = true := by decide

/-! ### Hardware steps (2.4) -/

-- V-H1
theorem test_vh1 : field (fun s => (s.ptr.dacWr, s.fifo.dacIn, Memory.readWord s.ddrDac 3))
    (exec .dacFill { st 0x01 with ptr := ⟨3, 0, 0, 0⟩, fifo := ⟨[w 1], [], [], []⟩ })
      = some (0, [], some (w 1)) := by decide
-- V-H2
theorem test_vh2 : hwEnabled { st 0x00 with fifo := ⟨[w 1], [], [], []⟩ } .dacFill = false := by
  decide
-- V-H3
theorem test_vh3 : field (fun s => (s.ptr.dacRd, s.fifo.dacOut))
    (exec .dacPlay { st 0x02 with
      ptr := ⟨0, 3, 0, 0⟩, ddrDac := Memory.writeWord [] 3 (w 4), fifo := ⟨[], [w 2, w 3], [], []⟩ })
      = some (0, [w 2, w 3, w 4]) := by decide
-- V-H4: a word nothing has written is a draw
theorem test_vh4 : field (fun s => (s.draws, s.ddrDac, s.fifo.dacOut.length))
    (exec .dacPlay (st 0x02)) = some (1, [], 1) := by decide
-- V-H5
theorem test_vh5 : hwEnabled { st 0x02 with fifo := ⟨[], List.replicate 8 (w 0), [], []⟩ } .dacPlay
    = false := by decide
-- V-H6
theorem test_vh6 : field (fun s => (s.dacOut, s.fifo.dacOut))
    (exec .dacSink { st 0x00 with fifo := ⟨[], [w 2, w 3], [], []⟩ }) = some ([w 2], [w 3]) := by
  decide
-- V-H7
theorem test_vh7 : field (fun s => (s.fifo.adcIn.length, s.adcOverrun)) (exec .adcSource (st 0x04))
    = some (1, false) := by decide
-- V-H8
theorem test_vh8 : field (fun s => (s.fifo.adcIn.length, s.adcOverrun))
    (exec .adcSource { st 0x04 with fifo := ⟨[], [], List.replicate 8 (w 0), []⟩ })
      = some (8, true) := by decide
-- V-H9
theorem test_vh9 : hwEnabled (st 0x0A) .adcSource = false := by decide
-- V-H10
theorem test_vh10 : field (fun s => (s.ptr.adcWr, s.adcFill, s.fifo.adcIn,
      Memory.readWord s.ddrAdc 15))
    (exec .adcStore { st 0x04 with
      ptr := ⟨0, 0, 15, 0⟩, adcFill := 2, fifo := ⟨[], [], [w 9], []⟩ })
      = some (0, 3, [], some (w 9)) := by decide
-- V-H11
theorem test_vh11 : hwEnabled { st 0x04 with adcFill := 16, fifo := ⟨[], [], [w 9], []⟩ } .adcStore
    = false := by decide
-- V-H12
theorem test_vh12 : field (fun s => (s.ptr.adcRd, s.adcFill, s.fifo.adcOut))
    (exec .adcFetch { st 0x08 with adcFill := 3, ddrAdc := Memory.writeWord [] 0 (w 9) })
      = some (1, 2, [w 9]) := by decide
-- V-H13
theorem test_vh13 : hwEnabled { st 0x04 with adcFill := 3 } .adcFetch = false := by decide
/-- A pointer outside its region stops the step (log entry 9). -/
theorem test_pointer_fault : exec .dacPlay { st 0x02 with ptr := ⟨0, 4, 0, 0⟩ }
    = .fault (.ddrAddress .dac 4) := by rfl

/-! ### The codec (2.5 to 2.7) -/

/-- The frame of V-S1 and the block of V-D2. -/
def frameS1 : List Byte :=
  [0x0A, 0x66, 0x0A, 0x77, 0x0A, 0x44, 0x0A, 0x55, 0x0A, 0x22, 0x0A, 0x33, 0x0A, 0x00, 0x0A, 0x11]

-- V-S1
theorem test_vs1 :
    stripe Cfg.test ((List.range 8).map fun c => [0x1100 * c + 0x0A]) = frameS1 := by decide
theorem test_vs1_destripe :
    destripe Cfg.test frameS1 = (List.range 8).map fun c => [0x1100 * c + 0x0A] := by decide
-- V-S2, the words F0 and F3
theorem test_vs2 : (stripe Cfg.test bufsS2).take 16
    = [0x2A, 0x60, 0x2A, 0x70, 0x2A, 0x40, 0x2A, 0x50, 0x2A, 0x20, 0x2A, 0x30, 0x2A, 0x00, 0x2A, 0x10]
    ∧ (stripe Cfg.test bufsS2).drop 48
    = [0x2A, 0x63, 0x2A, 0x73, 0x2A, 0x43, 0x2A, 0x53, 0x2A, 0x23, 0x2A, 0x33, 0x2A, 0x03, 0x2A, 0x13]
    := by decide
-- V-S3, the identity map
theorem test_vs3 :
    stripe { Cfg.test with stripeSlot := List.range 8 }
      ((List.range 8).map fun c => [0x1100 * c + 0x0A])
    = [0x0A, 0x00, 0x0A, 0x11, 0x0A, 0x22, 0x0A, 0x33, 0x0A, 0x44, 0x0A, 0x55, 0x0A, 0x66, 0x0A, 0x77]
    := by decide

/-- The block of V-D1. -/
def blockD1 : List Byte :=
  [0x01, 0x00, 0x02, 0x00, 0x03, 0x00, 0x04, 0x00, 0x11, 0x00, 0x12, 0x00, 0x13, 0x00, 0x14, 0x00]

-- V-D1
theorem test_vd1 : deswizzle Cfg.test .legacy blockD1
    = [[0x03, 0x13], [0x04, 0x14], [0x01, 0x11], [0x02, 0x12]] := by decide
theorem test_vd1_back :
    swizzle Cfg.test .legacy [[0x03, 0x13], [0x04, 0x14], [0x01, 0x11], [0x02, 0x12]] = blockD1 := by
  decide
-- V-D2
theorem test_vd2 : deswizzle Cfg.test .full frameS1
    = [[0x000A], [0x110A], [0x220A], [0x330A], [0x440A], [0x550A], [0x660A], [0x770A]] := by decide
-- V-D4
theorem test_vd4 : deswizzle Cfg.test .legacy (blockD1 ++ [0xAA, 0xBB, 0xCC, 0xDD])
    = deswizzle Cfg.test .legacy blockD1 ∧
    deswizzle Cfg.test .full (zeros 15) = [[], [], [], [], [], [], [], []] := by decide
-- V-D5
theorem test_vd5 : deswizzle { Cfg.test with permLegacy := [1, 2, 3, 0] } .legacy (blockD1.take 8)
    = [[2], [3], [4], [1]] := by decide
-- V-D6
theorem test_vd6 : codeAt (deswizzle Cfg.test .full (zeros 13 ++ [0x80, 0, 0])) 0 0 = 32768 := by
  decide

/-- Ten records of the channels of V-F1. -/
def chanF : List (List Nat) :=
  ((List.range 6).map fun c => (List.range 10).map fun k => 0x1000 * c + (if c = 0 then 0x100 else
    if c < 4 then 0x100 else 0) + k) ++
  [[0xFFF0, 0xFFFF, 0xAA55, 0x6003, 0x6004, 0x0010, 0x0000, 0x55AA, 0x6008, 0x6009],
   [0x0001, 0x7001, 0x2877, 0x7003, 0x00F6, 0x0002, 0x7006, 0xCDAB, 0x7008, 0xF703]]

-- V-F6, ten records: two timestamps, one of each counter, no flag
theorem test_vf6 : (decodeFields chanF Layout.testA).timestamp = [8589934576, 8589934608] ∧
    (decodeFields chanF Layout.testA).seq = [[22], [23]] := by decide
theorem test_vf6_flags : decodeFlags (decodeFields chanF Layout.testA) = [] := by decide
-- V-F1, sub-channels of ten records
theorem test_vf1_sub : subOf (decodeFields chanF Layout.testA) adsName keyB = some [0x5001, 0x5006] ∧
    subOf (decodeFields chanF Layout.testB) adsName keyB = some [0x5002, 0x5007] := by decide
-- V-F2: chan[7][2] is 0x2977
theorem test_vf2 : decodeFlags (decodeFields (chanF.set 7 ((chanF.getD 7 []).set 2 0x2977))
    Layout.testA) = [.dataIntegrityError] := by decide
-- V-F3 and V-F7: the deltas alone
theorem test_vf3 : timingSkip [0x0001FFFFFFF0, 0x000200000010, 0x000200000031, 0x000200000050] = true
    ∧ timingSkip [0x0001FFFFFFF0, 0x000200000010, 0x000200000030, 0x000200000050] = false := by decide
theorem test_vf7 : deltas [0xFFFFFFFFFFF0, 0x10, 0x30] = [-281474976710624, 32] := by decide
-- V-F8
theorem test_vf8 : counter [[0x001F]] ⟨0, 0, 0⟩ 1 = [31] := by decide
-- R244: version 0 selects LAYOUT_TEST_A, version 1 LAYOUT_TEST_B
theorem test_versions : layoutOfVersion Cfg.test 0 = Layout.testA ∧
    layoutOfVersion Cfg.test 1 = Layout.testB := by decide
-- R210
theorem test_decode_bad_tag : field (·.result) (exec (.decode (.unknown 2) (.version 0) []) (st 0x00))
    = some (.error .configurationError) := by decide

/-! ### The step -/

theorem test_first_step : field (fun s => (s.ctrl.dacWrite, s.program, s.result))
    (step (State.reset.withFetchWord 8 0x01)) = some (true, [], .done) := by decide
theorem test_idle : field (fun s => decide (s = State.reset)) (step State.reset) = some true := by
  decide
theorem test_core : core.reset = State.reset := by rfl

/-! ### Witnesses: values that meet the hypotheses of each statement together, clause by clause -/

theorem st_valid (v : Nat) : (st v).cfg.Valid := cfg_test_valid
theorem st_excl {v : Nat} (h : ((st v).ctrl.dacWrite && (st v).ctrl.dacRead) = false) : (st v).Excl := by
  intro a b; rw [a, b] at h; exact absurd h (by decide)

/-- The reset state with words in FIFO DacIn and FIFO DacOut and DacWrite asserted, one word short of
full, and the write pointer on the last word of its region. -/
def stBusy : State :=
  { st 0x01 with
    fifo := ⟨List.replicate 7 (w 1), [w 2, w 3], [], [w 4, w 5]⟩
    ptr := ⟨3, 0, 0, 0⟩ }

theorem stBusy_typed : stBusy.Typed where
  fifo_le := by intro q; cases q <;> decide
  ptr_lt := by intro p; cases p <;> decide
  fill_le := by decide
  dac_wf := List.Pairwise.nil
  dac_within := by intro x hx; cases hx
  adc_wf := List.Pairwise.nil
  adc_within := by intro x hx; cases hx

/-- The configuration without the AdcDebug feature. -/
def cfgPlain : Cfg := { Cfg.test with hasAdcDebug := false }

theorem cfgPlain_valid : cfgPlain.Valid := { cfg_test_valid with }

/-- The DAC region holding four written words. -/
def ddr4 : List Host.Cell :=
  Memory.writeWord (Memory.writeWord (Memory.writeWord (Memory.writeWord [] 0 (w 1)) 1 (w 2)) 2 (w 3)) 3 (w 4)

/-- Eight buffers of four codes, the largest code among them. -/
def bufsTop : List (List Nat) := List.replicate 8 [0, 1, 65535, 256]

theorem witness_DecodeEncode : Cfg.test.Valid ∧ (Instr.readBlock 4294967295 4294967295).wf = true :=
  ⟨cfg_test_valid, by decide⟩

theorem witness_DecodedIsWellFormed :
    decode Cfg.test ([0xFF, 0xFF, 0xFF, 0xFF, 0x10, 0, 0, 0, 17, 0, 0, 0] ++ [9])
      = .ok (.readBlock 4294967295 16, [9]) := by decide

theorem witness_FormWRowsAgree : (st 0x0A).cfg.Valid := st_valid _

theorem witness_StepRunsTheDecodedCall :
    decode (st 0).cfg (State.reset.withFetchWord 8 0x01).program = .ok (.setBitDacWrite, []) ∧
    (st 0).program = [] ∧
    (([7] : List Byte) ≠ [] ∧ decode (st 0).cfg [7] = .error .truncated) := by decide

theorem witness_ResetValues : Cfg.test.Valid := cfg_test_valid
theorem witness_ResetIsGood :
    Cfg.test.Valid ∧ anyEnable Cfg.test.defaults = false := ⟨cfg_test_valid, by decide⟩

theorem witness_StepKeepsGood : State.reset.Good ∧ step State.reset = .next State.reset :=
  ⟨⟨cfg_test_valid, reset_typed, st_excl (v := 0) rfl⟩, rfl⟩
theorem witness_StepKeepsGood_full :
    stBusy.Good ∧ ∃ t, step { stBusy with program := encode Cfg.test .dacFill } = .next t :=
  ⟨⟨cfg_test_valid, stBusy_typed, fun _ h => absurd h (by decide)⟩, _, rfl⟩

theorem witness_EveryCallKeeps : { st 0x03 with fault := true }.fault = true ∧
    ∃ t, exec .dacFill { st 0x03 with fault := true } = .next t := ⟨rfl, _, rfl⟩

theorem witness_FlagsChangeOnlyWhereNamed :
    namesFlags .dacFill = false ∧ ∃ t, exec .dacFill stBusy = .next t := ⟨rfl, _, rfl⟩

theorem witness_DocumentedCallsKeepDacWriteClear :
    (st 0x0E).cfg.Valid ∧ (st 0x0E).ctrl.dacWrite = false ∧
    (∀ i ∈ [Instr.writeFinish, .setAdcDebug], documented i = true) ∧
    ∃ t, runCalls [Instr.writeFinish, .setAdcDebug] (st 0x0E) = .next t :=
  ⟨cfg_test_valid, by decide, by decide, _, rfl⟩

theorem witness_AdcsConnectedWrittenByPrimitivesOnly :
    (st 0x20).cfg.Valid ∧ (∃ t, exec .writeFinish (st 0x20) = .next t) ∧
      documented .writeFinish = true ∧ namesFlags .wireRead = false ∧
      ∃ t, exec .wireRead (st 0x20) = .next t :=
  ⟨cfg_test_valid, ⟨_, rfl⟩, by decide, by decide, _, rfl⟩

theorem witness_OverrunClearedByAdcInResetOnly :
    ∃ t, exec .triggerRstAdcIn { st 0 with adcOverrun := true } = .next t ∧
      { st 0 with adcOverrun := true }.adcOverrun = true ∧ t.adcOverrun = false :=
  ⟨_, rfl, by decide, by decide⟩

theorem witness_AdcDebugAbsent :
    let s := { st 0x00 with cfg := cfgPlain }
    s.cfg.hasAdcDebug = false ∧ (∃ t, exec .writeFinish s = .next t) ∧ s.cfg.Valid ∧ s.Excl ∧
    (0x12#32 &&& ~~~ fieldsMask s.cfg = 0#32 ∧ 0x12#32 &&& ~~~ 0x12#32 = 0#32) :=
  ⟨rfl, ⟨_, rfl⟩, cfgPlain_valid, fun h => absurd h (by decide), by decide, by decide⟩

theorem witness_ConfigurationErrorChangesNothing :
    isHwTurn (.pipeRead 24 16) = false ∧
    ∃ t, exec (.pipeRead 24 16) (st 0x0E) = .next t ∧ t.result = .error .configurationError :=
  ⟨rfl, _, rfl, rfl⟩

theorem witness_SetBit : (st 0x0A).cfg.Valid ∧ (Flag.adcDebug = .adcDebug →
    (st 0x0A).cfg.hasAdcDebug = true) := ⟨cfg_test_valid, fun _ => rfl⟩
theorem witness_ClearBit : (st 0x0E).cfg.Valid ∧ (st 0x0E).Excl ∧ (Flag.dacRead = .adcDebug →
    (st 0x0E).cfg.hasAdcDebug = true) := ⟨cfg_test_valid, st_excl rfl, fun h => by cases h⟩
theorem witness_MaskedWrite : (st 0x0E).cfg.Valid ∧ (st 0x0E).cfg.hasAdcDebug = true ∧
    0x3F#32 &&& ~~~ fieldsMask (st 0x0E).cfg = 0#32 ∧ 0x20#32 &&& ~~~ 0x3F#32 = 0#32 :=
  ⟨cfg_test_valid, rfl, by decide, by decide⟩
theorem witness_RefusedTransactions :
    0x40#32 &&& ~~~ fieldsMask (st 0).cfg ≠ 0#32 ∧
    (0x02#32 &&& ~~~ fieldsMask (st 0).cfg = 0#32 ∧ 0x06#32 &&& ~~~ 0x02#32 ≠ 0#32) ∧
    ((0x21#32).getLsbD 5 = true ∧ ∀ t, (st 0).cfg.tpos.get t ≠ 5) :=
  ⟨by decide, by decide, by decide, fun t => by cases t <;> decide⟩
theorem witness_AtomicWrite :
    ((st 0x0A).cfg.Valid ∧ [Flag.adcWrite, .adcDebug].length = [true, false].length ∧
      [Flag.adcWrite, .adcDebug].Nodup ∧ (.adcDebug ∈ [Flag.adcWrite, .adcDebug] →
        (st 0x0A).cfg.hasAdcDebug = true)) ∧
    ([Flag.dacRead].length ≠ ([] : List Bool).length ∧ ¬ [Flag.dacRead, .dacRead].Nodup) :=
  ⟨⟨cfg_test_valid, rfl, by decide, fun _ => rfl⟩, by decide, by decide⟩
theorem witness_WriteFinish :
    .atomicWriteStream ∈ [Instr.writeFinish, .atomicWriteStream] ∧ (st 0x01).cfg.Valid ∧
    anyEnable (st 0x30).ctrl = false ∧ (st 0x01).ctrl.dacWrite = true ∧
    phase (st 0x0E) = .streaming := ⟨by decide, cfg_test_valid, by decide, by decide, by decide⟩

theorem witness_PulsesOnStoppedPaths :
    (.triggerRstDacIn ∈ [triggerInstr (rstOf .dacIn), .resetFifo (.one .dacIn)] ∧
      (st 0x0E).ctrl.get (gate .dacIn) = false) ∧
    (.resetPointers ∈ [Instr.triggerRstPtr, .resetPointers] ∧ anyEnable (st 0x30).ctrl = false) := by
  decide
theorem witness_PulsesOnMovingPaths : (st 0x0F).cfg.Valid ∧ (st 0x0F).ctrl.dacWrite = true ∧
    (st 0x0F).ctrl.dacRead = true ∧ (st 0x0F).ctrl.adcWrite = true ∧
    (st 0x0F).ctrl.adcTransfer = true ∧ anyEnable (st 0x08).ctrl = true :=
  ⟨cfg_test_valid, by decide⟩

theorem witness_TriggerMask : (st 0x0E).cfg.Valid ∧
    0x11#32 &&& ~~~ trigsMask (st 0x0E).cfg = 0#32 ∧ (st 0x0E).Typed ∧
    (0x0F#32 &&& ~~~ trigsMask (st 0x08).cfg = 0#32 ∧ (st 0x08).ctrl.get (gate .adcIn) = false) ∧
    (0x07#32 &&& ~~~ trigsMask (st 0x08).cfg = 0#32 ∧
      (∀ q, (0x07#32).getLsbD ((st 0x08).cfg.tpos.get (rstOf q)) = true →
        (st 0x08).ctrl.get (gate q) = false) ∧
      (0x07#32).getLsbD ((st 0x08).cfg.tpos.get .rstPtr) = false) ∧
    anyEnable (st 0x30).ctrl = false :=
  ⟨cfg_test_valid, by decide, st_typed _, by decide,
    ⟨by decide, fun q => by cases q <;> decide, by decide⟩, by decide⟩

theorem witness_WireRead : stBusy.cfg.Valid ∧ stBusy.Typed := ⟨cfg_test_valid, stBusy_typed⟩
theorem witness_FifoStatusDecodes : (st 0).cfg.Valid ∧ (st 0).Typed := ⟨cfg_test_valid, st_typed 0⟩

theorem witness_TransferChecks :
    ((zeros 17).length % 16 ≠ 0 ∧ ¬ ∃ k, k ≤ 10 ∧ 24 = 16 * 2 ^ k) ∧
    (¬ ∃ k, k ≤ 10 ∧ 32768 = 16 * 2 ^ k) ∧ 0 ≤ 10 ∧ 10 ≤ 10 := by
  refine ⟨⟨by decide, ?_⟩, ?_, by decide, by decide⟩ <;>
    · rintro ⟨k, hk, h⟩
      interval_cases k <;> revert h <;> decide
theorem witness_PipeWriteCompletes : stBusy.cfg.Valid ∧ stBusy.Typed ∧ zeros 80 ≠ [] ∧
    (zeros 80).length % 16 = 0 ∧ 10 ≤ 10 := ⟨cfg_test_valid, stBusy_typed, by decide⟩
theorem witness_PipeWriteComplete : stBusy.cfg.Valid ∧ stBusy.Typed ∧ zeros 16 ≠ [] ∧
    (zeros 16).length % 16 = 0 ∧ 0 ≤ 10 ∧ stBusy.ctrl.dacWrite = true ∧ stBusy.cfg.aDrain = true ∧
    (st 0x0E).Typed ∧ (st 0x0E).ctrl.dacWrite = false :=
  ⟨cfg_test_valid, stBusy_typed, by decide, by decide, by decide, by decide, by decide, st_typed _,
    by decide⟩
theorem witness_PipeReadCompletes : stBusy.cfg.Valid ∧ stBusy.Typed ∧ 32 ≠ 0 ∧ 32 % 16 = 0 ∧ 0 ≤ 10 ∧
    stBusy.ctrl.adcTransfer = false := ⟨cfg_test_valid, stBusy_typed, by decide⟩
theorem witness_ReadBlock : 17 % 16 ≠ 0 ∧ 0 % 16 = 0 ∧ 32 % 16 = 0 ∧ 10 ≤ 10 := by decide

theorem witness_WriteSetup : stBusy.cfg.Valid ∧ stBusy.ctrl.dacWrite = true ∧
    (st 0x0A).ctrl.dacWrite = false ∧ (st 0x0A).ctrl.adcWrite = false ∧
    (st 0x04).ctrl.dacWrite = false ∧ (st 0x04).ctrl.dacRead = false :=
  ⟨cfg_test_valid, by decide⟩
theorem witness_RepeatSetup : (st 0x03).cfg.Valid ∧ (st 0x03).ctrl.dacWrite = true ∧
    (st 0x0A).ctrl.dacWrite = false ∧ (st 0x0A).ctrl.adcWrite = false ∧
    (st 0x0C).ctrl.dacWrite = false ∧ (st 0x0C).ctrl.dacRead = false :=
  ⟨cfg_test_valid, by decide⟩
theorem witness_WriteChecks :
    (zeros 63).length ≠ (st 0).cfg.sampleSize * 8 * 2 ∧
    ¬ (bufsS2.tail.length = 8 ∧ ∀ b ∈ bufsS2.tail, b.length = (st 0).cfg.sampleSize ∧ ∀ v ∈ b, v ≤ 65535) ∧
    (bufsTop.length = 8 ∧ ∀ b ∈ bufsTop, b.length = (st 0).cfg.sampleSize ∧ ∀ v ∈ b, v ≤ 65535) := by
  decide
theorem witness_WriteBufEnds : stBusy.cfg.Valid ∧ stBusy.Typed ∧
    (zeros 64).length = stBusy.cfg.sampleSize * 8 * 2 ∧
    (bufsTop.length = 8 ∧ ∀ b ∈ bufsTop, b.length = stBusy.cfg.sampleSize ∧ ∀ v ∈ b, v ≤ 65535) :=
  ⟨cfg_test_valid, stBusy_typed, by decide⟩
theorem witness_WriteBufLoadsTheFrame : (st 0x0E).cfg.Valid ∧ (st 0x0E).Typed ∧
    (st 0x0E).cfg.aDrain = true ∧ (st 0x0E).ctrl.dacWrite = false ∧
    (zeros 64).length = (st 0x0E).cfg.sampleSize * 8 * 2 ∧
    stBusy.Typed ∧ stBusy.ctrl.dacWrite = true :=
  ⟨cfg_test_valid, st_typed _, by decide, by decide, by decide, stBusy_typed, by decide⟩
theorem witness_WriteBufFromDraining : (st 0x30).cfg.Valid ∧ (st 0x30).Typed ∧
    (st 0x30).cfg.aDrain = true ∧ phase (st 0x30) = .draining ∧
    (zeros 64).length = (st 0x30).cfg.sampleSize * 8 * 2 := ⟨cfg_test_valid, st_typed _, by decide⟩
theorem witness_SequenceProperty : (st 0x0E).cfg.Valid ∧ (st 0x0E).Typed ∧
    (st 0x0E).ctrl.dacWrite = false ∧ (zeros 64).length = (st 0x0E).cfg.sampleSize * 8 * 2 ∧
    (st 0x0E).cfg.aDrain = true := ⟨cfg_test_valid, st_typed _, by decide⟩
theorem witness_AdcDebugOperations : ((st 0x0E).cfg.Valid ∧ (st 0x0E).Excl ∧
    (st 0x0E).cfg.hasAdcDebug = true) ∧ ({ st 0x0E with cfg := cfgPlain }.cfg.Valid ∧
    { st 0x0E with cfg := cfgPlain }.Excl ∧ { st 0x0E with cfg := cfgPlain }.cfg.hasAdcDebug = false) :=
  ⟨⟨cfg_test_valid, st_excl rfl, rfl⟩, cfgPlain_valid, fun h => absurd h (by decide), rfl⟩
theorem witness_ResetFifoAll : anyEnable { stBusy with ctrl := (st 0x30).ctrl }.ctrl = false := by
  decide

theorem witness_DacFill : stBusy.ctrl.dacWrite = true ∧
    stBusy.fifo.dacIn = w 1 :: List.replicate 6 (w 1) ∧ stBusy.ptr.dacWr < stBusy.cfg.sampleSize := by
  decide
theorem witness_DacPlay :
    let s := { st 0x02 with ddrDac := ddr4, ptr := ⟨0, 3, 0, 0⟩, fifo := ⟨[], List.replicate 7 (w 0), [], []⟩ }
    s.ctrl.dacRead = true ∧ s.fifo.dacOut.length < s.cfg.fifoDepth.dacOut ∧
      s.ptr.dacRd < s.cfg.sampleSize ∧ Memory.readWord s.ddrDac s.ptr.dacRd = some (w 4) := by decide
theorem witness_DacSink : stBusy.fifo.dacOut = w 2 :: [w 3] := by decide
theorem witness_AdcSource : (st 0x04).ctrl.adcWrite = true ∧
    (st 0x04).fifo.adcIn.length < (st 0x04).cfg.fifoDepth.adcIn ∧
    ¬ { st 0x04 with fifo := ⟨[], [], List.replicate 8 (w 0), []⟩ }.fifo.adcIn.length
      < (st 0x04).cfg.fifoDepth.adcIn := by decide
theorem witness_AdcStore :
    let s := { st 0x04 with ptr := ⟨0, 0, 15, 0⟩, adcFill := 15, fifo := ⟨[], [], [w 9], []⟩ }
    s.ctrl.adcWrite = true ∧ s.fifo.adcIn = w 9 :: [] ∧ s.adcFill < s.cfg.adcBufWords ∧
      s.ptr.adcWr < s.cfg.adcBufWords := by decide
theorem witness_AdcFetch :
    let s := { st 0x08 with ptr := ⟨0, 0, 0, 15⟩, adcFill := 1, ddrAdc := Memory.writeWord [] 15 (w 9) }
    s.ctrl.adcTransfer = true ∧ 0 < s.adcFill ∧ s.fifo.adcOut.length < s.cfg.fifoDepth.adcOut ∧
      s.ptr.adcRd < s.cfg.adcBufWords ∧ Memory.readWord s.ddrAdc s.ptr.adcRd = some (w 9) := by decide
theorem witness_Quiescence :
    (anyEnable { stBusy with ctrl := (st 0x30).ctrl }.ctrl = false ∧
      hwEnabled { stBusy with ctrl := (st 0x30).ctrl } .dacSink = true) ∧
    (anyEnable (st 0x30).ctrl = false ∧ drained (st 0x30) = true) := by decide
theorem witness_TurnsThatDoNotRun :
    hwEnabled (st 0x01) .dacFill = false ∧
    (hwPtr .dacFill = some .dacWr ∧ hwEnabled { stBusy with ptr := ⟨4, 0, 0, 0⟩ } .dacFill = true ∧
      ¬ { stBusy with ptr := ⟨4, 0, 0, 0⟩ }.ptr.get .dacWr
        < regionWords stBusy.cfg (ptrRegion .dacWr)) := by decide
theorem witness_PlaybackOrder :
    let s := { st 0x02 with ddrDac := ddr4 }
    s.cfg.Valid ∧ s.Typed ∧ drained s = true ∧ s.ctrl.dacRead = true ∧ s.ctrl.dacWrite = false ∧
      ∀ k, k < s.cfg.sampleSize → Memory.readWord s.ddrDac k = some (w (k + 1)) := by
  refine ⟨cfg_test_valid, ?_, by decide, by decide, by decide, by decide⟩
  exact { st_typed 0x02 with
    dac_wf := by decide
    dac_within := by decide }
theorem witness_CaptureOrder : drained (st 0x0E) = true ∧ (st 0x0E).cfg.Valid ∧ (st 0x0E).Typed ∧
    (st 0x0E).Linked ∧ 32 % 16 = 0 ∧ 10 ≤ 10 :=
  ⟨by decide, cfg_test_valid, st_typed _, ⟨by decide, fun i h => absurd h (Nat.not_lt_zero i)⟩,
    by decide, by decide⟩

theorem witness_CodecIsPure : isCodec (.stripe []) = true ∧ isCodec (.decode (.unknown 2) .notAVersion []) = true := by
  decide
theorem witness_ThreeViewsOfABlock : (zeros 32).length % 16 = 0 ∧ 7 < 8 ∧ 1 < (zeros 32).length / 16 ∧
    3 < 4 ∧ 3 < (zeros 32).length / 8 := by decide
theorem witness_Stripe : (st 0).cfg.Valid ∧ bufsTop.length = 8 ∧
    (∀ b ∈ bufsTop, b.length = 4 ∧ ∀ v ∈ b, v ≤ 65535) ∧ 3 < 4 ∧
    (st 0).cfg.stripeSlot[7]? = some 1 := ⟨cfg_test_valid, by decide⟩
theorem witness_Destripe : frameS1.length % 16 = 0 ∧ 0 < frameS1.length / 16 ∧
    (st 0).cfg.stripeSlot[7]? = some 1 ∧ 7 < 8 ∧ Cfg.test.Valid ∧ channelsOk 8 bufsTop = true :=
  ⟨by decide, by decide, by decide, by decide, cfg_test_valid, by decide⟩
theorem witness_Deswizzle : (st 0).cfg.Valid ∧ 1 < blockD1.length / 8 ∧ 0 < blockD1.length / 16 ∧
    (st 0).cfg.permLegacy[3]? = some 1 ∧ (st 0).cfg.permFull[7]? = some 1 :=
  ⟨cfg_test_valid, by decide⟩
theorem witness_Swizzle : (st 0).cfg.Valid ∧
    bufsTop.length = dialectChannels .full ∧ (∀ c ∈ bufsTop, c.length = 4 ∧ ∀ v ∈ c, v ≤ 65535) ∧
    3 < 4 ∧ (dialectPerm (st 0).cfg .full)[7]? = some 1 := ⟨cfg_test_valid, by decide⟩
theorem witness_SwizzleRoundTrip : Cfg.test.Valid ∧
    channelsOk (dialectChannels .legacy) (bufsTop.take 4) = true := ⟨cfg_test_valid, by decide⟩
theorem witness_DecodeFieldsValues : chanF.length = 8 ∧
    (∀ c ∈ chanF, c.length = 10 ∧ ∀ v ∈ c, v ≤ 65535) ∧ Layout.testA.wf = true ∧
    Layout.testA.sub = (Layout.testA.sub.take 7) ++ ⟨adsName, keyB, 5, 5, 1⟩ :: [] := by decide
theorem witness_DecodeFieldsFlags : chanF.length = 8 ∧
    (∀ c ∈ chanF, c.length = 10 ∧ ∀ v ∈ c, v ≤ 65535) := by decide


end Sys2Proof.Tests
end

section
/-! The step as the host runs it: one equation for each answer of the decoder (00_scope.md R12,
10_state.md R21; log entry 1). -/

namespace Sys2Proof

/-- A record is at least a header, so the empty stream holds none. -/
theorem decode_nil (c : Cfg) : decode c [] = .error .truncated := rfl

theorem ne_nil_of_decode_ok {c : Cfg} {l r : List Byte} {i : Instr} (h : decode c l = .ok (i, r)) :
    l ≠ [] := by
  rintro rfl
  simp [decode_nil] at h

namespace Machine

theorem fetch_of_decode_ok {s : State} {i : Instr} {r : List Byte}
    (h : decode s.cfg s.program = .ok (i, r)) : fetch s = .ok (i, s.setProgram r) := by
  simp [fetch, h]

theorem fetch_of_decode_error {s : State} {e : DecodeError}
    (h : decode s.cfg s.program = .error e) : fetch s = .error e := by
  simp [fetch, h]

theorem step_of_program_nil {s : State} (h : s.program = []) : step s = .next s := if_pos h

theorem step_of_decode_ok {s : State} {i : Instr} {r : List Byte}
    (h : decode s.cfg s.program = .ok (i, r)) : step s = exec i (s.setProgram r) := by
  rw [step, if_neg (ne_nil_of_decode_ok h), fetch_of_decode_ok h]

theorem step_of_decode_error {s : State} {e : DecodeError} (hne : s.program ≠ [])
    (h : decode s.cfg s.program = .error e) : step s = .refused (.badRecord e) := by
  rw [step, if_neg hne, fetch_of_decode_error h]

/-- Settles O5, from the step's three equations; that a decoded record is not the empty program is
what makes the first two exclude each other. -/
theorem stepRunsTheDecodedCall : Obligations.StepRunsTheDecodedCall :=
  ⟨fun _ _ _ => step_of_decode_ok, fun _ => step_of_program_nil, fun _ _ => step_of_decode_error⟩

end Machine
end Sys2Proof
end

section
/-! What every step keeps of a good state (10_state.md section 4): the invariant behind O8, as a property that
each building block of a call keeps. -/

namespace Sys2Proof.Machine

theorem State.Good.typedValid {s : State} (h : s.Good) : s.TypedValid := ⟨h.typed, h.valid⟩

/-- I-EXCL reads the flags and the mark alone, so where neither changes a typed state stays good. -/
theorem State.Good.of_typedValid {s t : State} (h : s.Good) (ht : t.TypedValid)
    (hc : t.ctrl = s.ctrl) (hf : t.fault = s.fault) : t.Good where
  valid := ht.2
  typed := ht.1
  excl := by rw [State.Excl, hc, hf]; exact h.excl

theorem State.Good.setProgram {s : State} (h : s.Good) (p : List Byte) : (s.setProgram p).Good :=
  h.of_typedValid ⟨h.typed.setProgram p, h.valid⟩ rfl rfl

/-- A form-W transaction sets the mark itself where it leaves DacWrite and DacRead both asserted
(40_transactions.md R153 step 3), whatever the state before. -/
theorem writeCtrl_excl (mask value : Wire) (s : State) : (writeCtrl mask value s).Excl := by
  intro hw hr
  rw [writeCtrl_fault, hw, hr, Bool.and_self, Bool.or_true]

theorem State.Good.writeCtrl {s : State} (h : s.Good) (mask value : Wire) :
    (writeCtrl mask value s).Good where
  valid := by rw [writeCtrl_cfg]; exact h.valid
  typed := h.typed.writeCtrl h.valid mask value
  excl := writeCtrl_excl mask value s

/-- Every building block of a call keeps a good state good. -/
theorem State.Good.keeps : Keeps State.Good where
  result r _ h := h.of_typedValid ⟨h.typed.setResult r, h.valid⟩ rfl rfl
  draw _ h := h.of_typedValid (takeDraw_typedValid h.typedValid) rfl rfl
  pulse x s h :=
    have k := pulse_keeps x s
    h.of_typedValid (runTxn_typedValid (.pulse x) h.typedValid) k.ctrl k.fault
  step x s h :=
    have k := hwStep_keeps x s
    h.of_typedValid (h.typedValid.hwStep x) k.ctrl k.fault
  write data s h :=
    have k := pipeWrite_keeps data s
    h.of_typedValid (pipeWrite_typedValid data h.typedValid) k.ctrl k.fault
  read n s h :=
    have k := pipeRead_keeps n s
    h.of_typedValid (pipeRead_typedValid n h.typedValid) k.ctrl k.fault
  form mask value _ h := h.writeCtrl mask value

/-- What a step that goes on has done: nothing, with no record left, or the call at the front. -/
theorem step_next_cases {s t : State} (h : step s = .next t) :
    t = s ∨ ∃ i r, decode s.cfg s.program = .ok (i, r) ∧ exec i (s.setProgram r) = .next t := by
  by_cases hp : s.program = []
  · rw [step_of_program_nil hp] at h
    exact .inl (Host.Outcome.next.inj h).symm
  · cases hd : decode s.cfg s.program with
    | error e => rw [step_of_decode_error hp hd] at h; cases h
    | ok p =>
      obtain ⟨i, r⟩ := p
      rw [step_of_decode_ok hd] at h
      exact .inr ⟨i, r, rfl, h⟩

/-- Settles O8: taking the record off the program keeps a good state good, and so does every building
block of the call it holds. -/
theorem stepKeepsGood : Obligations.StepKeepsGood := by
  intro s t hs h
  obtain rfl | ⟨i, r, -, he⟩ := step_next_cases h
  · exact hs
  · exact State.Good.keeps.exec he (hs.setProgram r)

end Sys2Proof.Machine
end

section
/-! Flags and the calls that write them: properties of the control side of the state, and the flag a
configuration does not have (10_state.md R26, R31). -/

namespace Sys2Proof.Machine

/-- What reads the flags, the mark and the configuration alone is kept by every building block that names
no flag (10_state.md R26). -/
theorem KeepsPath.of_control {P : State → Prop}
    (hP : ∀ s t : State, t.ctrl = s.ctrl → t.fault = s.fault → t.cfg = s.cfg → P s → P t) :
    KeepsPath P :=
  have of {s t : State} (k : KeepsControl s t) : P s → P t := hP s t k.ctrl k.fault k.cfg
  { result := fun _ s => hP s _ rfl rfl rfl
    draw := fun s => of (takeDraw_keeps s)
    pulse := fun x s => of (pulse_keeps x s)
    step := fun x s => of (hwStep_keeps x s)
    write := fun data s => of (pipeWrite_keeps data s)
    read := fun n s => of (pipeRead_keeps n s) }

/-- Settles O10: nothing a call that names no flag is built of writes the flags or the mark. -/
theorem flagsChangeOnlyWhereNamed : Obligations.FlagsChangeOnlyWhereNamed := by
  intro i s t hi he
  have k : KeepsPath fun u => u.ctrl = s.ctrl ∧ u.fault = s.fault :=
    .of_control fun _ _ hc hf _ h => ⟨hc.trans h.1, hf.trans h.2⟩
  exact k.exec hi he ⟨rfl, rfl⟩

/-! ### The flag of a feature the hardware has not (log entry 12) -/

theorem flagAfter_of_present {c : Cfg} {f : Flag} (h : flagPresent c f = true) (mask value : Wire)
    (old : PerFlag Bool) : flagAfter c mask value old f
      = if mask.getLsbD (c.pos.get f) then value.getLsbD (c.pos.get f) else old.get f := by
  simp [flagAfter, h]

theorem flagAfter_adcDebug_absent {c : Cfg} (h : c.hasAdcDebug = false) (mask value : Wire)
    (old : PerFlag Bool) : flagAfter c mask value old .adcDebug = old.adcDebug := by
  simp [flagAfter, h]

/-- A mask that names the absent flag alone writes nothing. -/
theorem ctrlAfter_adcDebug_absent {c : Cfg} (hv : c.Valid) (h : c.hasAdcDebug = false) (value : Wire)
    (old : PerFlag Bool) : ctrlAfter c (maskOf c .adcDebug) value old = old := by
  apply PerFlag.ext_get
  intro f
  rw [ctrlAfter_get]
  by_cases hf : f = .adcDebug
  · rw [hf]; exact flagAfter_adcDebug_absent h _ value old
  · simp [flagAfter, getLsbD_maskOf hv, hf]

/-- Writing the flags as they are changes nothing: the checks of R153 find no entry into a state. -/
theorem ctrlChecks_same {s : State} (hx : s.Excl) : ctrlChecks s.ctrl (s.setCtrl s.ctrl) = s :=
  ctrlChecks_quiet hx (by simp)

theorem writeCtrl_adcDebug_absent {s : State} (hv : s.cfg.Valid) (hx : s.Excl)
    (h : s.cfg.hasAdcDebug = false) (value : Wire) :
    writeCtrl (maskOf s.cfg .adcDebug) value s = s := by
  rw [writeCtrl, ctrlAfter_adcDebug_absent hv h, ctrlChecks_same hx]

/-- No building block of a call writes AdcDebug where the feature is absent. -/
theorem keeps_adcDebug (b : Bool) :
    Keeps fun s => s.cfg.hasAdcDebug = false ∧ s.ctrl.adcDebug = b where
  toKeepsPath := .of_control fun s t hc _ hg h => by rw [hc, hg]; exact h
  form mask value s := fun ⟨ha, hb⟩ => by
    refine ⟨by rw [writeCtrl_cfg]; exact ha, ?_⟩
    rw [writeCtrl_ctrl]
    exact (flagAfter_adcDebug_absent ha mask value s.ctrl).trans hb

theorem formW_of_inside {s : State} {mask value : Wire} (hm : mask &&& ~~~ fieldsMask s.cfg = 0#32)
    (hw : value &&& ~~~ mask = 0#32) :
    formW mask value s = .next (finish .done (writeCtrl mask value s)) := by
  rw [formW, if_neg (not_not.2 hm), if_neg (not_not.2 hw)]

/-- Settles O14: an absent flag reads as before after every form-W write, so a mask of it alone writes
nothing and a larger mask writes its other fields. -/
theorem adcDebugAbsent : Obligations.AdcDebugAbsent := by
  refine ⟨fun i s t ha he => ((keeps_adcDebug s.ctrl.adcDebug).exec he ⟨ha, rfl⟩).2,
    fun s hv hx ha => ⟨?_, ?_⟩, fun s mask value hv ha hm hw => ?_⟩
  · show Host.Outcome.next (finish .done (setBit .adcDebug s)) = _
    rw [setBit, writeCtrl_adcDebug_absent hv hx ha]; rfl
  · show Host.Outcome.next (finish .done (clearBit .adcDebug s)) = _
    rw [clearBit, writeCtrl_adcDebug_absent hv hx ha]; rfl
  · refine ⟨ctrlAfter s.cfg mask value s.ctrl, _, formW_of_inside hm hw,
      writeCtrl_flagsWritten hv mask value, ?_, fun f hf => ?_⟩
    · exact flagAfter_adcDebug_absent ha mask value s.ctrl
    · rw [ctrlAfter_get, flagAfter_of_present (flagPresent_of fun e => absurd e hf)]

end Sys2Proof.Machine
end

section
/-! Which register transactions a call issues (30_encoding.md R127), and what therefore holds after it: a
property that those transactions keep, and that draws, steps and bulk transfers keep. -/

namespace Sys2Proof.Machine

/-- The resets of `reset_fifo(name)` (41_controller_ops.md R171). -/
def resetFifoTxns : FifoArg → List Txn
  | .one q => [.pulse (rstOf q)]
  | .all => resetAllTxns
  | .unknown _ => []

/-- The register transactions a call's meaning may issue, but for the free mask of MASKED_WRITE. -/
def mayIssue (c : Cfg) : Instr → List Txn
  | .setBitDacWrite => [.set .dacWrite]
  | .setBitDacRead => [.set .dacRead]
  | .setBitAdcWrite => [.set .adcWrite]
  | .setBitAdcTransfer => [.set .adcTransfer]
  | .setBitAdcDebug => [.set .adcDebug]
  | .setBitAdcsConnected => [.set .adcsConnected]
  | .clearBitDacWrite => [.clear .dacWrite]
  | .clearBitDacRead => [.clear .dacRead]
  | .clearBitAdcWrite => [.clear .adcWrite]
  | .clearBitAdcTransfer => [.clear .adcTransfer]
  | .clearBitAdcDebug => [.clear .adcDebug]
  | .clearBitAdcsConnected => [.clear .adcsConnected]
  | .atomicWrite fields values => [.atomic fields values]
  | .atomicWriteStream => [.atomic t3 [true, true, true]]
  | .triggerRstDacIn => [.pulse .rstDacIn]
  | .triggerRstDacOut => [.pulse .rstDacOut]
  | .triggerRstAdcIn => [.pulse .rstAdcIn]
  | .triggerRstAdcOut => [.pulse .rstAdcOut]
  | .triggerRstPtr => [.pulse .rstPtr]
  | .triggerMask mask => (trigsOf c mask).map .pulse
  | .writeSetup => writeSetupTxns
  | .writeChannels _ _ | .writeBuf _ _ => writeBufPrelude ++ .clear .dacWrite :: writeBufStart
  | .writeFinish => writeFinishTxns
  | .repeatSetup => repeatSetupTxns
  | .setAdcDebug => [.set .adcDebug]
  | .clearAdcDebug => [.clear .adcDebug]
  | .resetFifo name => resetFifoTxns name
  | .resetPointers => resetPointersTxns
  | .maskedWrite _ _ | .wireRead | .pipeWrite _ _ | .pipeRead _ _ | .fifoStatus | .readBlock _ _ => []
  | .dacFill | .dacPlay | .adcStore | .adcFetch | .dacSink | .adcSource => []
  | .stripe _ | .destripe _ | .deswizzleLegacy _ | .deswizzleFull _ | .swizzle _ _
  | .decodeFields _ _ | .decode _ _ _ => []

/-- A property kept by what a call does beside its register transactions. -/
structure KeepsRest (P : State → Prop) : Prop where
  result : ∀ r s, P s → P (s.setResult r)
  draw : ∀ s, P s → P (takeDraw s)
  step : ∀ h s, P s → P (hwStep h s)
  write : ∀ data s, P s → P (pipeWrite data s).2
  read : ∀ n s, P s → P (pipeRead n s).2.2

theorem KeepsPath.rest {P : State → Prop} (k : KeepsPath P) : KeepsRest P := { k with }

theorem KeepsRest.gap {P : State → Prop} (k : KeepsRest P) (s : State) (h : P s) : P (runHw s) :=
  runHw_keeps_prop k.step (k.draw s h)

/-- A call that hands its caller a result keeps what the state it ends in keeps. -/
theorem KeepsRest.next {P : State → Prop} (k : KeepsRest P) {r : Result} {u t : State}
    (he : (.next (u.setResult r) : Host.Outcome State Fault Refusal) = .next t) (h : P u) : P t :=
  Host.Outcome.next.inj he ▸ k.result r u h

theorem KeepsRest.turn {P : State → Prop} (k : KeepsRest P) (x : HwStep) {s t : State}
    (he : hwTurn x s = .next t) (h : P s) : P t := by
  rw [hwTurn_next he]; exact k.step x s h

theorem KeepsRest.issue {P : State → Prop} (k : KeepsRest P) {ts : List Txn}
    (ht : ∀ x ∈ ts, ∀ u, P u → P (runTxn x u)) {s : State} (h : P s) : P (issue ts s) :=
  issue_keeps_prop ht k.gap h

theorem KeepsRest.writeBuf {P : State → Prop} (k : KeepsRest P) {frame : List Byte} {start : Bool}
    {s t : State}
    (ht : ∀ x ∈ writeBufPrelude ++ .clear .dacWrite :: writeBufStart, ∀ u, P u → P (runTxn x u))
    (he : writeBuf frame start s = .next t) (h : P s) : P t := by
  simp only [List.forall_mem_append, List.forall_mem_cons] at ht
  obtain ⟨hpre, hclear, hstart⟩ := ht
  have hb : P (clearBit .dacWrite
      (runHw (pipeWrite frame (runHw (Machine.issue writeBufPrelude s))).2)) :=
    hclear _ (k.gap _ (k.write _ _ (k.gap _ (k.issue hpre h))))
  unfold Machine.writeBuf at he
  split at he
  · rw [guardDacWr_next he]
    unfold writeBufBody
    simp only
    split
    · split
      · exact k.result _ _ (k.issue hstart (k.gap _ hb))
      · exact k.result _ _ hb
    · exact k.result _ _ hb
  · exact k.next he h

/-- A codec call only hands its caller a value, a drawn one outside its domain. -/
theorem codec_next {i : Instr} {s t : State} (hi : isCodec i = true) (he : exec i s = .next t) :
    ∃ r, t = s.setResult r ∨ t = (takeDraw s).setResult r := by
  cases i
  case stripe buffers =>
    change execStripe buffers s = .next t at he
    unfold execStripe at he
    split at he <;> rw [← Host.Outcome.next.inj he]
    · exact ⟨_, .inl rfl⟩
    · exact ⟨_, .inr rfl⟩
  case destripe frame =>
    change execDestripe frame s = .next t at he
    unfold execDestripe at he
    split at he <;> rw [← Host.Outcome.next.inj he]
    · exact ⟨_, .inl rfl⟩
    · exact ⟨_, .inr rfl⟩
  case deswizzleLegacy | deswizzleFull => exact ⟨_, .inl (Host.Outcome.next.inj he).symm⟩
  case swizzle dialect chan =>
    change execSwizzle dialect chan s = .next t at he
    unfold execSwizzle at he
    split at he <;> rw [← Host.Outcome.next.inj he]
    · exact ⟨_, .inl rfl⟩
    · exact ⟨_, .inr rfl⟩
  case decodeFields chan layout =>
    change execDecodeFields chan layout s = .next t at he
    unfold execDecodeFields at he
    split at he <;> rw [← Host.Outcome.next.inj he]
    · exact ⟨_, .inl rfl⟩
    · exact ⟨_, .inr rfl⟩
  case decode tag version d =>
    change execDecode tag version d s = .next t at he
    unfold execDecode at he
    split at he <;> exact ⟨_, .inl (Host.Outcome.next.inj he).symm⟩
  all_goals cases hi

theorem KeepsRest.codec {P : State → Prop} (k : KeepsRest P) {i : Instr} {s t : State}
    (hi : isCodec i = true) (he : exec i s = .next t) (h : P s) : P t := by
  obtain ⟨r, rfl | rfl⟩ := codec_next hi he
  · exact k.result r s h
  · exact k.result r _ (k.draw s h)

/-- What a call keeps: what the register transactions it may issue keep, and everything else it does. -/
theorem KeepsRest.exec {P : State → Prop} (k : KeepsRest P) {i : Instr} {s t : State}
    (ht : ∀ x ∈ mayIssue s.cfg i, ∀ u, P u → P (runTxn x u))
    (hm : ∀ mask value, i = .maskedWrite mask value → P (writeCtrl mask value s))
    (he : exec i s = .next t) (h : P s) : P t := by
  cases i
  case setBitDacWrite | setBitDacRead | setBitAdcWrite | setBitAdcTransfer | setBitAdcDebug |
      setBitAdcsConnected | clearBitDacWrite | clearBitDacRead | clearBitAdcWrite |
      clearBitAdcTransfer | clearBitAdcDebug | clearBitAdcsConnected | atomicWriteStream |
      triggerRstDacIn | triggerRstDacOut | triggerRstAdcIn | triggerRstAdcOut | triggerRstPtr =>
    exact k.next he (ht _ List.mem_cons_self _ h)
  case maskedWrite mask value =>
    change formW mask value s = .next t at he
    unfold formW at he
    split at he
    · cases he
    · split at he
      · cases he
      · exact k.next he (hm mask value rfl)
  case atomicWrite fields values =>
    change execAtomicWrite fields values s = .next t at he
    unfold execAtomicWrite at he
    split at he
    · exact k.next he (ht _ List.mem_cons_self _ h)
    · exact k.next he h
  case triggerMask mask =>
    change execTriggerMask mask s = .next t at he
    unfold execTriggerMask at he
    split at he
    · cases he
    · exact k.next he (pulseAll_keeps_prop (fun x hx => ht _ (List.mem_map_of_mem hx)) h)
  case setAdcDebug | clearAdcDebug =>
    refine k.next he ?_
    split
    · exact ht _ List.mem_cons_self _ h
    · exact h
  case writeSetup | writeFinish | repeatSetup | resetPointers => exact k.next he (k.issue ht h)
  case resetFifo name =>
    cases name
    case one | all => exact k.next he (k.issue ht h)
    case unknown => exact k.next he h
  case writeBuf frame start => exact k.writeBuf (frame := frame) (start := start) ht he h
  case writeChannels buffers start =>
    change execWriteChannels buffers start s = .next t at he
    unfold execWriteChannels at he
    split at he
    · exact k.writeBuf ht he h
    · exact k.next he h
  case wireRead | fifoStatus => exact k.next he (k.draw _ h)
  case pipeWrite data bs =>
    change execPipeWrite data bs s = .next t at he
    unfold execPipeWrite at he
    split at he
    · rw [guardDacWr_next he]; exact k.result _ _ (k.write data s h)
    · exact k.next he h
  case pipeRead n bs =>
    change execPipeRead n bs s = .next t at he
    unfold execPipeRead at he
    split at he
    · exact k.next he (k.read n s h)
    · exact k.next he h
  case readBlock n bs =>
    change execReadBlock n bs s = .next t at he
    unfold execReadBlock at he
    split at he
    · split at he <;> exact k.next he (k.read n s h)
    · exact k.next he h
  case dacFill => exact k.turn .dacFill he h
  case dacPlay => exact k.turn .dacPlay he h
  case adcStore => exact k.turn .adcStore he h
  case adcFetch => exact k.turn .adcFetch he h
  case dacSink => exact k.turn .dacSink he h
  case adcSource => exact k.turn .adcSource he h
  case stripe | destripe | deswizzleLegacy | deswizzleFull | swizzle | decodeFields | decode =>
    exact k.codec rfl he h

/-! ### AdcsConnected (10_state.md R32) -/

/-- The flags a register transaction names. -/
def Txn.fields : Txn → List Flag
  | .set f | .clear f => [f]
  | .atomic fs _ => fs
  | .pulse _ => []

/-- A register transaction leaves every flag it does not name (40_transactions.md R141 to R145). -/
theorem runTxn_get_of_not_named {s : State} (hv : s.cfg.Valid) {x : Txn} {f : Flag}
    (h : f ∉ x.fields) : (runTxn x s).ctrl.get f = s.ctrl.get f := by
  have hw (fs : List Flag) (value : Wire) (hf : f ∉ fs) :
      (writeCtrl (maskOfList s.cfg fs) value s).ctrl.get f = s.ctrl.get f := by
    rw [writeCtrl_ctrl, ctrlAfter_get]
    simp [flagAfter, getLsbD_maskOfList_pos hv, hf]
  cases x with
  | set g => rw [runTxn, setBit, ← maskOfList_singleton]; exact hw [g] _ h
  | clear g => rw [runTxn, clearBit, ← maskOfList_singleton]; exact hw [g] _ h
  | atomic fs bs => exact hw fs _ h
  | pulse t => rw [runTxn, (pulse_keeps t s).ctrl]

/-- Neither a documented operation nor a call that names no flag issues a transaction on AdcsConnected. -/
theorem adcsConnected_not_issued (c : Cfg) {i : Instr}
    (hi : documented i = true ∨ namesFlags i = false) :
    ∀ x ∈ mayIssue c i, Flag.adcsConnected ∉ x.fields := by
  cases i
  case setBitDacWrite | setBitDacRead | setBitAdcWrite | setBitAdcTransfer | setBitAdcDebug |
      setBitAdcsConnected | clearBitDacWrite | clearBitDacRead | clearBitAdcWrite |
      clearBitAdcTransfer | clearBitAdcDebug | clearBitAdcsConnected | maskedWrite | atomicWrite |
      atomicWriteStream =>
    rcases hi with hi | hi <;> cases hi
  case triggerRstDacIn | triggerRstDacOut | triggerRstAdcIn | triggerRstAdcOut | triggerRstPtr |
      writeSetup | writeChannels | writeBuf | writeFinish | repeatSetup | setAdcDebug |
      clearAdcDebug | resetPointers =>
    simp only [mayIssue]; decide
  case triggerMask => simp [mayIssue, Txn.fields]
  case resetFifo name => cases name <;> simp [mayIssue, resetFifoTxns, resetAllTxns, Txn.fields]
  all_goals exact List.forall_mem_nil _

/-- Settles O12: no register transaction of these calls names AdcsConnected, and nothing else a call does
writes a flag. -/
theorem adcsConnectedWrittenByPrimitivesOnly : Obligations.AdcsConnectedWrittenByPrimitivesOnly := by
  intro i s t hv he hi
  have k : KeepsPath fun u => u.cfg.Valid ∧ u.ctrl.adcsConnected = s.ctrl.adcsConnected :=
    .of_control fun u v hc _ hg h => by rw [hc, hg]; exact h
  refine (k.rest.exec (fun x hx u hu => ⟨?_, ?_⟩) (fun mask value e => ?_) he ⟨hv, rfl⟩).2
  · rw [(runTxn_keeps x u).1]; exact hu.1
  · exact (runTxn_get_of_not_named hu.1 (adcsConnected_not_issued _ hi x hx)).trans hu.2
  · subst e; rcases hi with hi | hi <;> cases hi

/-! ### adc_overrun (10_state.md R44) -/

/-- A call that may issue a pulse of RstAdcIn is one of those the statement names. -/
theorem pulsesAdcIn_of_mayIssue {c : Cfg} {i : Instr} (h : .pulse .rstAdcIn ∈ mayIssue c i) :
    pulsesAdcIn c i = true := by
  cases i
  case triggerRstAdcIn | writeSetup | repeatSetup => rfl
  case triggerMask mask =>
    obtain ⟨x, hx, e⟩ := List.mem_map.1 h
    cases e
    exact mem_trigsOf.1 hx
  case resetFifo name =>
    cases name with
    | one q =>
      cases q
      case adcIn => rfl
      all_goals simp [mayIssue, resetFifoTxns, rstOf] at h
    | all => rfl
    | unknown => cases h
  all_goals
    simp [mayIssue, writeFinishTxns, writeBufPrelude, writeBufStart, resetPointersTxns] at h

theorem storeAll_keeps_prop {P : State → Prop} (hg : ∀ s, P s → P (runOthers s))
    (hs : ∀ w s, P s → P (storeDac w s)) (ws : List Word) {s : State} (h : P s) :
    P (storeAll ws s) :=
  List.foldlRecOn ws _ h fun u hu w _ => hs w _ (hg u hu)

/-- A complete bulk write keeps what gaps, stored words and a rewritten FIFO DacIn keep. -/
theorem completeWrite_keeps_prop {P : State → Prop} (hg : ∀ s, P s → P (runOthers s))
    (hs : ∀ w s, P s → P (storeDac w s)) (hf : ∀ ws s, P s → P (setFifo .dacIn ws s))
    (ws : List Word) {s : State} (h : P s) : P (completeWrite ws s) := by
  unfold completeWrite
  split
  · exact hg _ (hf _ _ (storeAll_keeps_prop hg hs _ (hf _ _ h)))
  · exact hg _ (List.foldlRecOn ws _ h fun u hu w _ => hf _ _ (hg u hu))

/-- No step of the data path clears the mark (42_datapath.md R180 to R185). -/
theorem hwStep_adcOverrun (x : HwStep) {s : State} (h : s.adcOverrun = true) :
    (hwStep x s).adcOverrun = true := by
  unfold hwStep
  split
  · cases x
    case dacFill => simp only [hwEffect, dacFillEffect]; split <;> exact h
    case dacPlay | adcFetch => exact h
    case adcStore => simp only [hwEffect, adcStoreEffect]; split <;> exact h
    case dacSink => simp only [hwEffect, dacSinkEffect]; split <;> exact h
    case adcSource =>
      simp only [hwEffect, adcSourceEffect]
      split
      · exact h
      · rfl
  · exact h

theorem havocPositions_adcOverrun (s : State) :
    (havocPositions s).adcOverrun = s.adcOverrun := by
  simp [havocPositions, havocAdc, havocFifo, havocFill, havocPtr, setFifo, setPtr, takeDraw]

theorem writeCtrl_adcOverrun (mask value : Wire) (s : State) :
    (writeCtrl mask value s).adcOverrun = s.adcOverrun := by
  simp [writeCtrl, ctrlChecks, apply_ite State.adcOverrun, havocPositions_adcOverrun]

theorem runTxn_adcOverrun {x : Txn} (hx : x ≠ .pulse .rstAdcIn) (s : State) :
    (runTxn x s).adcOverrun = s.adcOverrun := by
  cases x
  case pulse t => exact (pulse_frame t s).overrun (by simpa [eq_comm] using hx)
  all_goals exact writeCtrl_adcOverrun _ _ s

/-- Nothing a call does beside its register transactions clears the mark. -/
theorem keepsRest_adcOverrun : KeepsRest fun s => s.adcOverrun = true where
  result _ _ h := h
  draw _ h := h
  step x _ h := hwStep_adcOverrun x h
  write data s h := by
    have gap (u : State) : u.adcOverrun = true → (runOthers u).adcOverrun = true :=
      runOthers_keeps_prop (P := fun u => u.adcOverrun = true) fun x _ _ => hwStep_adcOverrun x
    by_cases hd : data.length = 0
    · rw [pipeWrite, if_pos hd]; exact h
    · rcases pipeWrite_cases (s := s) hd with ⟨-, he⟩ | he <;> rw [he]
      · exact completeWrite_keeps_prop (P := fun u => u.adcOverrun = true) gap (fun _ _ h => h)
          (fun _ _ h => h) _ h
      · exact failedWrite_keeps_prop (P := fun u => u.adcOverrun = true) (fun _ h => h)
          (fun ws _ _ => storeAll_keeps_prop gap (fun _ _ h => h) ws) gap (fun _ h => h)
          (fun _ h => h) (fun _ h => h) _ h
  read n s h := by
    have gap (u : State) : u.adcOverrun = true → (runHw u).adcOverrun = true :=
      runHw_keeps_prop (P := fun u => u.adcOverrun = true) fun x _ => hwStep_adcOverrun x
    rcases pipeRead_cases n s with ⟨-, he⟩ | ⟨-, ws, t, ht, he⟩ | ⟨-, he⟩ <;> rw [he]
    · exact h
    · exact takes_keeps_prop (P := fun u => u.adcOverrun = true) gap (fun _ _ _ _ h => h) ht h
    · exact failedRead_keeps_prop (P := fun u => u.adcOverrun = true) (fun _ h => h) gap
        (fun _ h => h) (fun _ h => h) (fun _ h => h) (fun _ h => h) _ h

/-- Settles O13: only the pulse of RstAdcIn can clear the mark, and a call that may issue it is one of
those named. -/
theorem overrunClearedByAdcInResetOnly : Obligations.OverrunClearedByAdcInResetOnly := by
  intro i s t he hs ht
  by_contra hp
  have stays : t.adcOverrun = true := keepsRest_adcOverrun.exec
    (fun x hx u hu => (runTxn_adcOverrun (fun e => hp (pulsesAdcIn_of_mayIssue (e ▸ hx))) u).trans hu)
    (fun mask value _ => (writeCtrl_adcOverrun mask value s).trans hs) he hs
  exact absurd (stays.symm.trans ht) (by decide)

end Sys2Proof.Machine
end

section
/-! The state after reset under any valid configuration (10_state.md R47). -/

namespace Sys2Proof.Machine

/-- A region nothing has written reads as UNWRITTEN everywhere (10_state.md R38). -/
@[simp] theorem Memory.readWord_nil (k : Nat) : Memory.readWord [] k = none := by
  have h : Memory.written [] k = false := rfl
  simp [Memory.readWord, h]

@[simp] theorem State.fifo_resetWith (c : Cfg) (q : Fifo) : (State.resetWith c).fifo.get q = [] := by
  cases q <;> rfl

@[simp] theorem State.ptr_resetWith (c : Cfg) (p : Ptr) : (State.resetWith c).ptr.get p = 0 := by
  cases p <;> rfl

theorem isEmpty_resetWith (c : Cfg) (q : Fifo) : isEmpty (State.resetWith c) q = true := by
  simp [isEmpty]

/-- No FIFO has depth zero, so an empty one is not full. -/
theorem isFull_resetWith {c : Cfg} (hv : c.Valid) (q : Fifo) :
    isFull (State.resetWith c) q = false := by
  have h : 0 < (State.resetWith c).cfg.fifoDepth.get q := hv.fifoDepth_pos q
  simp [isFull, h.ne]

theorem State.typed_resetWith {c : Cfg} (hv : c.Valid) : (State.resetWith c).Typed where
  fifo_le q := by simp
  ptr_lt p := by rw [State.ptr_resetWith]; exact regionWords_pos hv _
  fill_le := Nat.zero_le _
  dac_wf := List.Pairwise.nil
  dac_within := List.forall_mem_nil _
  adc_wf := List.Pairwise.nil
  adc_within := List.forall_mem_nil _

theorem State.good_resetWith {c : Cfg} (hv : c.Valid) : (State.resetWith c).Good where
  valid := hv
  typed := State.typed_resetWith hv
  excl hw hr := absurd ⟨hw, hr⟩ hv.defaults_excl

theorem State.linked_resetWith (c : Cfg) : (State.resetWith c).Linked where
  apart := (Nat.zero_mod _).symm
  written i h := absurd h (Nat.not_lt_zero i)

theorem drained_resetWith (c : Cfg) : drained (State.resetWith c) = true := rfl

/-- With no enable asserted the label of a drained state is Draining (R40). -/
theorem phase_of_drained {s : State} (h : anyEnable s.ctrl = false) (hd : drained s = true) :
    phase s = .draining := by
  have he := h
  simp only [anyEnable, Bool.or_eq_false_iff] at he
  obtain ⟨⟨⟨hw, hr⟩, -⟩, -⟩ := he
  simp [phase, h, hd, hw, hr]

/-- What `fifo_status` decodes of any state of the spec: the flags and the count of its FIFOs, whatever
the draw in the other bits (41_controller_ops.md R170). -/
theorem decodeStatus_statusWord {s : State} (hv : s.cfg.Valid) (ht : s.Typed) :
    decodeStatus s.cfg (statusWord s) =
      ⟨⟨isEmpty s .dacIn, isEmpty s .dacOut, isEmpty s .adcIn, isEmpty s .adcOut⟩,
        ⟨isFull s .dacIn, isFull s .dacOut, isFull s .adcIn, isFull s .adcOut⟩,
        (s.fifo.get s.cfg.countFifo).length⟩ := by
  simp only [decodeStatus, statusWord_empty hv, statusWord_full hv, statusWord_count hv ht]

/-- Settles O6: the fields are those of `State.resetWith`, and STATUS shows four empty FIFOs of some
depth. -/
theorem resetValues : Obligations.ResetValues := by
  intro c hv s
  refine ⟨rfl, rfl, State.fifo_resetWith c, State.ptr_resetWith c, rfl, Memory.readWord_nil, rfl, rfl,
    rfl, s.draws + 1, ?_⟩
  have hs : decodeStatus s.cfg (statusWord s)
      = ⟨⟨true, true, true, true⟩, ⟨false, false, false, false⟩, 0⟩ := by
    rw [decodeStatus_statusWord hv (State.typed_resetWith hv)]
    simp [isEmpty_resetWith, isFull_resetWith hv]
  show Host.Outcome.next (finish (.status (decodeStatus s.cfg (statusWord s))) (takeDraw s)) = _
  rw [hs]
  rfl

/-- Settles O7, for CFG_TEST as one valid configuration. -/
theorem resetIsGood : Obligations.ResetIsGood :=
  ⟨rfl, State.good_resetWith Tests.cfg_test_valid, fun c hv =>
    ⟨State.good_resetWith hv, State.linked_resetWith c, drained_resetWith c,
      fun he => phase_of_drained he (drained_resetWith c)⟩⟩

end Sys2Proof.Machine
end

section
/-! The codec is host-side (20_memory.md section 1), and a byte block, its words and its records are the
same bytes (section 2). -/

namespace Sys2Proof.Machine

/-- A codec call always completes, inside its domain or outside it. -/
theorem codec_completes {i : Instr} (hi : isCodec i = true) (s : State) : ∃ t, exec i s = .next t := by
  cases i
  case stripe | destripe | swizzle | decodeFields => exact ⟨_, (apply_ite Host.Outcome.next ..).symm⟩
  case deswizzleLegacy | deswizzleFull => exact ⟨_, rfl⟩
  case decode tag version d =>
    change ∃ t, execDecode tag version d s = .next t
    unfold execDecode
    split <;> exact ⟨_, rfl⟩
  all_goals cases hi

/-- Settles O51: a codec call completes, and what it hands its caller, drawn or not, is all it changes. -/
theorem codecIsPure : Obligations.CodecIsPure := by
  intro i s hi
  obtain ⟨t, he⟩ := codec_completes hi s
  obtain ⟨r, rfl | rfl⟩ := codec_next hi he
  · exact ⟨r, s.draws, he⟩
  · exact ⟨r, s.draws + 1, he⟩

/-! ### Views of a byte block -/

/-- Byte j of word k is byte 16k + j of the block (20_memory.md R73). -/
theorem blockWord_bytes_getElem? (d : List Byte) (k : Nat) {j : Nat} (hj : j < 16) :
    (blockWord d k).bytes[j]? = some (d.getD (16 * k + j) 0#8) := by
  simp [blockWord, hj]

theorem bytesOf_wordsOf_getElem? (d : List Byte) {k j : Nat} (hk : k < d.length / 16) (hj : j < 16) :
    (bytesOf (wordsOf d))[16 * k + j]? = some (d.getD (16 * k + j) 0#8) := by
  rw [bytesOf, wordsOf, List.flatMap_map, flatMap_range_getElem? _ (fun _ => Word.bytes_length _) hk hj,
    blockWord_bytes_getElem? d k hj]

/-- A block of whole words is the bytes of its words, in order. -/
theorem bytesOf_wordsOf {d : List Byte} (h : d.length % 16 = 0) : bytesOf (wordsOf d) = d := by
  have hl : (bytesOf (wordsOf d)).length = d.length := by rw [bytesOf_length, wordsOf_length]; omega
  refine List.ext_getElem hl fun a _ ha => (List.getElem_eq_iff _).2 ?_
  have hb := bytesOf_wordsOf_getElem? d (k := a / 16) (j := a % 16) (by omega) (by omega)
  rwa [Nat.div_add_mod, List.getD_eq_getElem _ _ ha] at hb

/-- Slot i of word k is code i of Full record k. -/
theorem slotCode_blockWord (d : List Byte) (k : Nat) {i : Nat} (hi : i < 8) :
    slotCode (blockWord d k) i = rawCode 8 d i k := by
  have byte {j : Nat} (hj : j < 16) : (blockWord d k).bytes.getD j 0#8 = d.getD (16 * k + j) 0#8 := by
    rw [List.getD_eq_getElem?_getD, blockWord_bytes_getElem? d k hj, Option.getD_some]
  rw [slotCode, byte (by omega), byte (by omega)]
  rfl

/-- Legacy record r is one half of Full record r div 2, the lower half for even r. -/
theorem rawCode_legacy_eq_full (d : List Byte) (i r : Nat) :
    rawCode 4 d i r = rawCode 8 d (4 * (r % 2) + i) (r / 2) := by
  have h : 2 * 4 * r + 2 * i = 2 * 8 * (r / 2) + 2 * (4 * (r % 2) + i) := by omega
  rw [rawCode, rawCode, h]

/-- Settles O52: a word is a Full record, and two Legacy records are one. -/
theorem threeViewsOfABlock : Obligations.ThreeViewsOfABlock := by
  intro d h
  refine ⟨bytesOf_wordsOf h, fun i k hi _ => (slotCode_blockWord d k hi).symm, fun i r hi _ => ?_⟩
  rw [slotCode_blockWord d (r / 2) (by omega), rawCode_legacy_eq_full]

end Sys2Proof.Machine
end

section
/-! The call records as a whole (30_encoding.md R104, R126; log entry 1): every record reads back, and what
reads back is well formed. -/

namespace Sys2Proof

/-- Settles O1: each word and each record is one of the tests. -/
theorem tableWords : Obligations.TableWords :=
  ⟨Tests.test_word_set_dacWrite, Tests.test_word_set_dacRead, Tests.test_word_set_adcsConnected,
    Tests.test_word_stream, Tests.test_rec_clear_dacRead, Tests.test_rec_rstPtr,
    Tests.test_rec_all_fifos, by decide⟩

/-! ### Decode of encode -/

/-- The round trip of every instruction: one law for each constructor. -/
theorem Laws.RoundTrip.statement : ∀ i : Instr, Laws.RoundTrip.Statement i
  | .setBitDacWrite => setBitDacWrite
  | .setBitDacRead => setBitDacRead
  | .setBitAdcWrite => setBitAdcWrite
  | .setBitAdcTransfer => setBitAdcTransfer
  | .setBitAdcDebug => setBitAdcDebug
  | .setBitAdcsConnected => setBitAdcsConnected
  | .clearBitDacWrite => clearBitDacWrite
  | .clearBitDacRead => clearBitDacRead
  | .clearBitAdcWrite => clearBitAdcWrite
  | .clearBitAdcTransfer => clearBitAdcTransfer
  | .clearBitAdcDebug => clearBitAdcDebug
  | .clearBitAdcsConnected => clearBitAdcsConnected
  | .maskedWrite mask value => maskedWrite mask value
  | .atomicWrite fields values => atomicWrite fields values
  | .atomicWriteStream => atomicWriteStream
  | .triggerRstDacIn => triggerRstDacIn
  | .triggerRstDacOut => triggerRstDacOut
  | .triggerRstAdcIn => triggerRstAdcIn
  | .triggerRstAdcOut => triggerRstAdcOut
  | .triggerRstPtr => triggerRstPtr
  | .triggerMask mask => triggerMask mask
  | .wireRead => wireRead
  | .pipeWrite data bs => pipeWrite data bs
  | .pipeRead n bs => pipeRead n bs
  | .writeSetup => writeSetup
  | .writeChannels buffers start => writeChannels buffers start
  | .writeBuf frame start => writeBuf frame start
  | .writeFinish => writeFinish
  | .repeatSetup => repeatSetup
  | .setAdcDebug => setAdcDebug
  | .clearAdcDebug => clearAdcDebug
  | .fifoStatus => fifoStatus
  | .resetFifo name => resetFifo name
  | .resetPointers => resetPointers
  | .readBlock n bs => readBlock n bs
  | .dacFill => dacFill
  | .dacPlay => dacPlay
  | .adcStore => adcStore
  | .adcFetch => adcFetch
  | .dacSink => dacSink
  | .adcSource => adcSource
  | .stripe buffers => stripe buffers
  | .destripe frame => destripe frame
  | .deswizzleLegacy d => deswizzleLegacy d
  | .deswizzleFull d => deswizzleFull d
  | .swizzle dialect chan => swizzle dialect chan
  | .decodeFields chan layout => decodeFields chan layout
  | .decode tag version d => decode tag version d

/-- Settles O2, by cases on the instruction. -/
theorem decodeEncode : Obligations.DecodeEncode :=
  fun c i r hv hw => Laws.RoundTrip.statement i c hv hw r

/-! ### What a reader takes -/

/-- A reader that was given `l` and accepts has taken something with `P` off the front of `l`. -/
def Took {α : Type} (P : α → Prop) (l : List Byte) (e : Except DecodeError (α × List Byte)) : Prop :=
  ∀ x r, e = .ok (x, r) → P x ∧ r <:+ l

namespace Took

variable {α β : Type} {P : α → Prop} {Q : β → Prop} {l : List Byte}

theorem error (e : DecodeError) : Took P l (.error e) := fun _ _ h => by cases h

theorem ok {x : α} (h : P x) : Took P l (.ok (x, l)) := fun _ _ e => by
  cases e; exact ⟨h, List.suffix_refl l⟩

theorem ite {p : Prop} [Decidable p] {d e : Except DecodeError (α × List Byte)}
    (hd : p → Took P l d) (he : ¬p → Took P l e) : Took P l (if p then d else e) := by
  split
  · exact hd ‹_›
  · exact he ‹_›

theorem imp {P' : α → Prop} {e : Except DecodeError (α × List Byte)} (h : Took P l e)
    (hp : ∀ x, P x → P' x) : Took P' l e := fun x r e => ⟨hp x (h x r e).1, (h x r e).2⟩

/-- The use of `Took`, with the reader taken from what it is known to answer. -/
theorem of_ok {e : Except DecodeError (α × List Byte)} {x : α} {r : List Byte} (h : e = .ok (x, r))
    (he : Took P l e) : P x ∧ r <:+ l := he x r h

/-- Readers one after the other. -/
theorem bind {e : Except DecodeError (α × List Byte)}
    {k : α × List Byte → Except DecodeError (β × List Byte)} (he : Took P l e)
    (hk : ∀ x r, P x → Took Q r (k (x, r))) : Took Q l (e >>= k) := by
  intro y r h
  cases e with
  | error => cases h
  | ok p =>
    obtain ⟨x, m⟩ := p
    obtain ⟨hx, hm⟩ := he x m rfl
    obtain ⟨hy, hr⟩ := hk x m hx y r h
    exact ⟨hy, hr.trans hm⟩

/-- `n` things read one after the other are `n`, each as its reader takes it. -/
theorem many {one : List Byte → Except DecodeError (α × List Byte)} (h : ∀ l, Took P l (one l)) :
    ∀ (n : Nat) (l : List Byte),
      Took (fun xs => xs.length = n ∧ ∀ x ∈ xs, P x) l (takeMany one n l)
  | 0, _ => ok ⟨rfl, List.forall_mem_nil _⟩
  | n + 1, l => (h l).bind fun _ r hx => (many h n r).bind fun _ _ hxs =>
      ok ⟨congrArg (· + 1) hxs.1, List.forall_mem_cons.2 ⟨hx, hxs.2⟩⟩

end Took

/-- A word is four bytes of the front, and its number fits in them. -/
theorem eq_of_takeWord_ok {l r : List Byte} {n : Nat} (h : takeWord l = .ok (n, r)) :
    fits n = true ∧ ∃ b0 b1 b2 b3, l = b0 :: b1 :: b2 :: b3 :: r := by
  unfold takeWord at h
  split at h
  next b0 b1 b2 b3 _ =>
    cases h
    exact ⟨fits_iff.2 (by omega), b0, b1, b2, b3, rfl⟩
  next => cases h

theorem takeWord_took (l : List Byte) : Took (fun n => fits n = true) l (takeWord l) := by
  intro n r h
  obtain ⟨hn, b0, b1, b2, b3, rfl⟩ := eq_of_takeWord_ok h
  exact ⟨hn, [b0, b1, b2, b3], rfl⟩

theorem takeBytes_took (n : Nat) (l : List Byte) : Took (fun d => d.length = n) l (takeBytes n l) := by
  intro d r h
  unfold takeBytes at h
  split at h
  next => cases h
  next hl => cases h; exact ⟨List.length_take_of_le (not_lt.1 hl), List.drop_suffix n l⟩

theorem takeCodes_took (l : List Byte) : Took (fun xs => codesFit xs = true) l (takeCodes l) :=
  (takeWord_took l).bind fun n r hn => (Took.many takeWord_took n r).imp fun xs hxs => by
    simpa [codesFit, hxs.1, hn] using hxs.2

theorem takeChannels_took {n : Nat} (hn : fits n = true) (l : List Byte) :
    Took (fun xs => channelsFit xs = true) l (takeMany takeCodes n l) :=
  (Took.many takeCodes_took n l).imp fun xs hxs => by
    simpa [channelsFit, hxs.1, hn] using hxs.2

theorem takeName_took (l : List Byte) : Took (fun _ => True) l (takeName l) :=
  (takeWord_took l).bind fun n r _ => (takeBytes_took n r).imp fun _ _ => trivial

theorem takeBool_took (l : List Byte) : Took (fun _ => True) l (takeBool l) :=
  (takeWord_took l).bind fun
    | 0, _, _ | 1, _, _ => .ok trivial
    | _ + 2, _, _ => .error _

theorem takeFlag_took (l : List Byte) : Took (fun _ => True) l (takeFlag l) :=
  (takeWord_took l).bind fun
    | 0, _, _ | 1, _, _ | 2, _, _ | 3, _, _ | 4, _, _ | 5, _, _ => .ok trivial
    | _ + 6, _, _ => .error _

theorem takeVersion_took (l : List Byte) : Took (fun v => v.wf = true) l (takeVersion l) :=
  (takeWord_took l).bind fun k r _ => (takeWord_took r).bind fun v _ hv =>
    match k, v, hv with
    | 0, _, hv => .ok hv
    | 1, 0, _ => .ok rfl
    | 1, _ + 1, _ => .error _
    | _ + 2, _, _ => .error _

theorem takeFieldPos_took (l : List Byte) : Took (fun _ => True) l (takeFieldPos l) :=
  (takeWord_took l).bind fun _ r _ => (takeWord_took r).bind fun _ _ _ => .ok trivial

theorem takeSeqField_took (l : List Byte) : Took (fun _ => True) l (takeSeqField l) :=
  (takeWord_took l).bind fun _ r _ => (takeWord_took r).bind fun _ r _ =>
    (takeWord_took r).bind fun _ _ _ => .ok trivial

theorem takeConstField_took (l : List Byte) : Took (fun _ => True) l (takeConstField l) :=
  (takeWord_took l).bind fun _ r _ => (takeWord_took r).bind fun _ r _ =>
    (takeWord_took r).bind fun _ r _ => (takeWord_took r).bind fun _ _ _ => .ok trivial

theorem takeSubField_took (l : List Byte) : Took (fun _ => True) l (takeSubField l) :=
  (takeName_took l).bind fun _ r _ => (takeName_took r).bind fun _ r _ =>
    (takeWord_took r).bind fun _ r _ => (takeWord_took r).bind fun _ r _ =>
      (takeWord_took r).bind fun _ _ _ => .ok trivial

/-- A layout record is checked when it has been read. -/
theorem takeLayout_took (l : List Byte) : Took (fun x => x.wf = true) l (takeLayout l) :=
  (takeFieldPos_took l).bind fun _ r _ => (takeFieldPos_took r).bind fun _ r _ =>
    (takeFieldPos_took r).bind fun _ r _ => (takeSeqField_took r).bind fun _ r _ =>
    (takeSeqField_took r).bind fun _ r _ => (takeConstField_took r).bind fun _ r _ =>
    (takeConstField_took r).bind fun _ r _ => (takeConstField_took r).bind fun _ r _ =>
    (takeConstField_took r).bind fun _ r _ => (takeWord_took r).bind fun n r _ =>
    (Took.many takeSubField_took n r).bind fun _ _ _ =>
      .ite (fun h => .ok h) fun _ => .error _

/-! ### What the decoder accepts -/

theorem decodeW_wf (c : Cfg) (mask value : Wire) : (decodeW c mask value).wf = true := by
  unfold decodeW
  split
  next f _ => cases f <;> rfl
  next =>
    split
    next f _ => cases f <;> rfl
    next => split <;> rfl

theorem decodeT_wf (c : Cfg) (mask : Wire) : (decodeT c mask).wf = true := by
  unfold decodeT
  split
  next t _ => cases t <;> rfl
  next => rfl

theorem fifoArgOf_wf {n : Nat} (h : fits n = true) : (fifoArgOf n).wf = true :=
  match n, h with
  | 0, _ | 1, _ | 2, _ | 3, _ | 4, _ => rfl
  | n + 5, h => by simpa [fifoArgOf, FifoArg.wf] using h

theorem dialectTagOf_wf {n : Nat} (h : fits n = true) : (dialectTagOf n).wf = true :=
  match n, h with
  | 0, _ | 1, _ => rfl
  | n + 2, h => by simpa [dialectTagOf, DialectTag.wf] using h

theorem bare_took {i : Instr} (hi : i.wf = true) (w0 w1 : Nat) (l : List Byte) :
    Took (fun i => i.wf = true) l (bare i w0 w1 l) :=
  .ite (fun _ => .ok hi) fun _ => .error _

theorem withBytes_took {mk : List Byte → Instr} (hm : ∀ d, (mk d).wf = fits d.length) {w0 : Nat}
    (h0 : fits w0 = true) (w1 : Nat) (l : List Byte) :
    Took (fun i => i.wf = true) l (withBytes mk w0 w1 l) :=
  (takeBytes_took w0 l).bind fun d _ hd =>
    .ite (fun _ => .ok (by rw [hm, hd, h0])) fun _ => .error _

/-- The record after its header, tag by tag. -/
theorem decodeBody_took (c : Cfg) {w0 w1 : Nat} (h0 : fits w0 = true) (h1 : fits w1 = true) :
    ∀ (tag : Nat) (l : List Byte), Took (fun i => i.wf = true) l (decodeBody c w0 w1 tag l)
  | 0, _ => .ok (decodeW_wf ..)
  | 1, _ => .ite (fun _ => .ok (decodeT_wf ..)) fun _ => .error _
  | 2, l => bare_took rfl w0 w1 l
  | 3, l => (takeBytes_took w0 l).bind fun d _ hd => .ok (by simp [Instr.wf, hd, h0, h1])
  | 4, _ => .ok (by simp [Instr.wf, h0, h1])
  | 5, _ => .ok rfl
  | 6, l => (Took.many takeFlag_took w0 l).bind fun fs r hf =>
      (Took.many takeBool_took w1 r).bind fun bs _ hb => .ok (by simp [Instr.wf, hf.1, hb.1, h0, h1])
  | 7, l => bare_took rfl w0 w1 l
  | 8, l => (takeChannels_took h0 l).bind fun _ _ hc =>
      match w1 with
      | 0 | 1 => .ok hc
      | _ + 2 => .error _
  | 9, l => (takeBytes_took w0 l).bind fun d _ hd =>
      match w1 with
      | 0 | 1 => .ok ((congrArg fits hd).trans h0)
      | _ + 2 => .error _
  | 10, l | 11, l | 12, l | 13, l | 14, l => bare_took rfl w0 w1 l
  | 15, _ => .ite (fun _ => .ok (fifoArgOf_wf h0)) fun _ => .error _
  | 16, l => bare_took rfl w0 w1 l
  | 17, _ => .ok (by simp [Instr.wf, h0, h1])
  | 18, l | 19, l | 20, l | 21, l | 22, l | 23, l => bare_took rfl w0 w1 l
  | 24, l => (takeChannels_took h0 l).bind fun _ _ hc => .ite (fun _ => .ok hc) fun _ => .error _
  | 25, l | 26, l | 27, l => withBytes_took (fun _ => rfl) h0 w1 l
  | 28, l => (takeChannels_took h0 l).bind fun _ _ hc =>
      match w1 with
      | 0 | 1 => .ok hc
      | _ + 2 => .error _
  | 29, l => (takeChannels_took h0 l).bind fun _ r hc => (takeLayout_took r).bind fun _ _ hl =>
      .ite (fun _ => .ok (by simp [Instr.wf, hc, hl])) fun _ => .error _
  | 30, l => (takeVersion_took l).bind fun _ r hv => (takeBytes_took w0 r).bind fun d _ hd =>
      .ok (by simp [Instr.wf, dialectTagOf_wf h1, hv, hd, h0])
  | 31, _ => .ite (fun _ => .ok rfl) fun _ => .error _
  | _ + 32, _ => .error _

/-- Settles O3: each reader takes what it accepts off the front, in its range, and the first word of the
header is there. -/
theorem decodedIsWellFormed : Obligations.DecodedIsWellFormed := by
  intro c l r i h
  rw [decode] at h
  cases hl : takeWord l with
  | error e => rw [hl] at h; cases h
  | ok x =>
    obtain ⟨w0, m⟩ := x
    obtain ⟨h0, b0, b1, b2, b3, rfl⟩ := eq_of_takeWord_ok hl
    rw [hl, except_bind_ok] at h
    obtain ⟨hw, p, rfl⟩ := Took.of_ok h <| (takeWord_took m).bind fun _ r h1 =>
      (takeWord_took r).bind fun tag r _ => decodeBody_took c h0 h1 tag r
    exact ⟨hw, b0 :: b1 :: b2 :: b3 :: p, List.cons_ne_nil _ _, rfl⟩

end Sys2Proof
end

section
/-! Form T with any mask (30_encoding.md R104): one TRIGGER row where one bit is set, and the plain resets
of every bit set where the paths are stopped (42_datapath.md R186, R187). -/

namespace Sys2Proof.Machine

theorem exec_triggerMask_of_inside {s : State} {mask : Wire}
    (h : mask &&& ~~~ trigsMask s.cfg = 0#32) :
    exec (.triggerMask mask) s = .next (finish .done (pulseAll (trigsOf s.cfg mask) s)) :=
  if_neg (not_not.2 h)

/-- The row a form-T transaction is read as means one pulse on every bit of its mask. -/
theorem exec_decodeT {s : State} (hv : s.cfg.Valid) (mask : Wire) :
    exec (decodeT s.cfg mask) s = exec (.triggerMask mask) s := by
  unfold decodeT
  split
  next t ht =>
    obtain rfl : mask = pulseMask s.cfg t := by simpa using List.find?_some ht
    rw [exec_triggerInstr, exec_triggerMask_of_inside (pulseMask_inside s.cfg t),
      trigsOf_pulseMask hv]
    rfl
  next => rfl

/-! ### Stopped paths -/

/-- The path a TRIG bit resets is stopped: its gating enable is clear, or for RstPtr all four are
(42_datapath.md R186, R187). -/
def pathStopped (c : PerFlag Bool) : Trig → Prop
  | .rstDacIn => c.dacWrite = false
  | .rstDacOut => c.dacRead = false
  | .rstAdcIn => c.adcWrite = false
  | .rstAdcOut => c.adcTransfer = false
  | .rstPtr => anyEnable c = false

/-- Every bit of a mask is on a stopped path, by the gates of the FIFOs and the enables. -/
theorem pathStopped_of_gates {c : PerFlag Bool} {hit : Trig → Prop}
    (hq : ∀ q, hit (rstOf q) → c.get (gate q) = false) (hp : hit .rstPtr → anyEnable c = false) :
    ∀ t, hit t → pathStopped c t
  | .rstDacIn => hq .dacIn
  | .rstDacOut => hq .dacOut
  | .rstAdcIn => hq .adcIn
  | .rstAdcOut => hq .adcOut
  | .rstPtr => hp

/-- The plain resets of the bits `hit` (R186, R187). -/
def plainResets (hit : Trig → Bool) (s : State) : State :=
  { s with
    fifo := ⟨if hit .rstDacIn then [] else s.fifo.dacIn,
      if hit .rstDacOut then [] else s.fifo.dacOut,
      if hit .rstAdcIn then [] else s.fifo.adcIn,
      if hit .rstAdcOut then [] else s.fifo.adcOut⟩
    ptr := if hit .rstPtr then ⟨0, 0, 0, 0⟩ else s.ptr
    adcFill := if hit .rstPtr then 0 else s.adcFill
    adcOverrun := if hit .rstAdcIn then false else s.adcOverrun }

theorem plainResets_none (s : State) : plainResets (fun _ => false) s = s := rfl

theorem plainResets_plainResets (h k : Trig → Bool) (s : State) :
    plainResets k (plainResets h s) = plainResets (fun t => h t || k t) s := by
  simp only [plainResets, ← ite_or, Bool.or_eq_true, or_comm]

/-- One pulse on a stopped path is the plain reset of its bit. -/
theorem pulse_of_stopped {t : Trig} {s : State} (h : pathStopped s.ctrl t) :
    pulse t s = plainResets (fun u => decide (u = t)) s := by
  cases t <;> exact (if_neg (Bool.eq_false_iff.1 h)).trans rfl

/-- Pulses on stopped paths are the plain resets of their bits. -/
theorem pulseAll_of_stopped {ts : List Trig} {s : State} (h : ∀ t ∈ ts, pathStopped s.ctrl t) :
    pulseAll ts s = plainResets (fun t => decide (t ∈ ts)) s := by
  induction ts generalizing s with
  | nil => exact (plainResets_none s).symm
  | cons t ts ih =>
    obtain ⟨ht, hts⟩ := List.forall_mem_cons.1 h
    calc pulseAll (t :: ts) s = pulseAll ts (plainResets (fun u => decide (u = t)) s) := by
          rw [← pulse_of_stopped ht]; rfl
      _ = plainResets (fun u => decide (u ∈ t :: ts)) s := by
          rw [ih (s := plainResets _ s) hts, plainResets_plainResets]
          congr 1
          funext u
          simp

/-- Settles O24: the frame of pulses, read off the mask's bits, and the plain resets on stopped paths. -/
theorem triggerMask : Obligations.TriggerMask := by
  refine ⟨fun s mask hv => exec_decodeT hv mask, fun s mask hv hm => ?_⟩
  intro hit
  refine ⟨?_, fun hq hp => ?_⟩
  · have f := pulseAll_frame (trigsOf s.cfg mask) s
    have named {t : Trig} : t ∈ trigsOf s.cfg mask → hit t = true := mem_trigsOf.1
    have unnamed {t : Trig} (h : hit t = false) : t ∉ trigsOf s.cfg mask := fun ht =>
      absurd (named ht) (Bool.eq_false_iff.1 h)
    have gate_clear {b e : Bool} (h : (b && e) = false) (hb : b = true) : e = false := by
      simpa [hb] using h
    exact ⟨_, exec_triggerMask_of_inside hm, rfl,
      ⟨f.keeps.ctrl, f.keeps.fault, f.keeps.cfg, f.keeps.program⟩, f.played,
      fun ht => (pulseAll_typed _ ht hv).setResult _,
      fun q hq => f.fifo q (unnamed hq), fun q hq => f.emptied q (mem_trigsOf.2 hq),
      fun hn => f.overrun (unnamed hn),
      fun hn => ⟨f.adcWr (unnamed hn), fun hg => f.dacWr (unnamed hn) fun hi => gate_clear hg (named hi),
        fun hg => f.dacRd (unnamed hn) fun hi => gate_clear hg (named hi),
        fun hg => f.adcRd (unnamed hn) fun hi => gate_clear hg (named hi)⟩,
      fun hg => f.ddrDac fun hi => gate_clear hg (Bool.or_eq_true_iff.2 (hi.imp named named)),
      fun hg => f.ddrAdc fun hi => gate_clear hg (named hi)⟩
  · have bits : (fun t => decide (t ∈ trigsOf s.cfg mask)) = hit := by
      funext t
      simp [mem_trigsOf, hit]
    rw [exec_triggerMask_of_inside hm, pulseAll_of_stopped fun t ht =>
      pathStopped_of_gates (hit := fun t => hit t = true) hq hp t (mem_trigsOf.1 ht), bits]
    rfl

end Sys2Proof.Machine
end

section
/-! Form W (40_transactions.md R141 to R144, R153, R154): what each row means as a write of its mask and
value, and what is refused. -/

namespace Sys2Proof.Machine

theorem exec_maskedWrite (mask value : Wire) (s : State) :
    exec (.maskedWrite mask value) s = formW mask value s := rfl

/-! ### Rows of the table as form W -/

/-- SET_BIT(f) is form W with mask = value = mask(f) (R141). -/
theorem exec_setBitInstr_eq_maskedWrite (f : Flag) (s : State) :
    exec (setBitInstr f) s = exec (.maskedWrite (maskOf s.cfg f) (maskOf s.cfg f)) s := by
  have h := formW_lists (fs := [f]) (vs := [f]) (fun _ hg => hg) (s := s) rfl
  rw [maskOfList_singleton] at h
  rw [exec_setBitInstr, exec_maskedWrite, h, setBit]

/-- CLEAR_BIT(f) is form W with mask = mask(f) and value = 0 (R142). -/
theorem exec_clearBitInstr_eq_maskedWrite (f : Flag) (s : State) :
    exec (clearBitInstr f) s = exec (.maskedWrite (maskOf s.cfg f) 0#32) s := by
  have h := formW_lists (fs := [f]) (vs := []) (List.forall_mem_nil _) (s := s) rfl
  rw [maskOfList_singleton, maskOfList_nil] at h
  rw [exec_clearBitInstr, exec_maskedWrite, h, clearBit]

theorem exec_atomicWrite_of_ok {fs : List Flag} {bs : List Bool} (h : atomicArgsOk fs bs = true)
    (s : State) : exec (.atomicWrite fs bs) s = .next (finish .done (atomicWrite fs bs s)) := if_pos h

theorem exec_atomicWrite_of_not_ok {fs : List Flag} {bs : List Bool} (h : ¬ atomicArgsOk fs bs = true)
    (s : State) : exec (.atomicWrite fs bs) s = .next (raiseError .configurationError s) := if_neg h

/-- The union masks of an ATOMIC_WRITE are never refused: its value lies inside its mask (R144). -/
theorem exec_maskedWrite_lists (fs : List Flag) (bs : List Bool) (s : State) :
    exec (.maskedWrite (maskOfList s.cfg fs) (valueOfList s.cfg fs bs)) s
      = .next (finish .done (atomicWrite fs bs s)) :=
  formW_lists (assertedFields_sub fs bs) rfl

theorem atomicArgsOk_iff {fs : List Flag} {bs : List Bool} :
    atomicArgsOk fs bs = true ↔ fs.length = bs.length ∧ fs.Nodup := by
  simp [atomicArgsOk]

/-- The ATOMIC_WRITE of `write_finish` is form W with mask = value = the union of its three masks. -/
theorem exec_atomicWriteStream_eq_maskedWrite (s : State) :
    exec .atomicWriteStream s
      = exec (.maskedWrite (maskOfList s.cfg t3) (maskOfList s.cfg t3)) s :=
  (exec_maskedWrite_lists t3 [true, true, true] s).symm

/-- The row a form-W transaction is read as means the write of its mask and value. -/
theorem exec_decodeW (s : State) (mask value : Wire) :
    exec (decodeW s.cfg mask value) s = exec (.maskedWrite mask value) s := by
  unfold decodeW
  split
  next f hf =>
    obtain ⟨rfl, rfl⟩ : mask = maskOf s.cfg f ∧ value = mask := by simpa using List.find?_some hf
    exact exec_setBitInstr_eq_maskedWrite f s
  next =>
    split
    next f hf =>
      obtain ⟨rfl, rfl⟩ : mask = maskOf s.cfg f ∧ value = 0#32 := by simpa using List.find?_some hf
      exact exec_clearBitInstr_eq_maskedWrite f s
    next =>
      split
      next h =>
        obtain ⟨rfl, rfl⟩ := h
        exact exec_atomicWriteStream_eq_maskedWrite s
      next => rfl

/-! ### The CTRL word and the listed fields -/

/-- A word inside another has its bits only where the other has. -/
theorem getLsbD_of_inside {x y : Wire} (h : x &&& ~~~ y = 0#32) {i : Nat}
    (hx : x.getLsbD i = true) : y.getLsbD i = true := by
  have hb := congrArg (fun w => w.getLsbD i) h
  simpa [hx, BitVec.lt_of_getLsbD hx] using hb

/-- The CTRL word has each flag at its position (10_state.md R33). -/
theorem getLsbD_ctrlWord_pos {c : Cfg} (hv : c.Valid) (v : PerFlag Bool) (f : Flag) :
    (ctrlWord c v).getLsbD (c.pos.get f) = v.get f := by
  rw [Bool.eq_iff_iff, getLsbD_ctrlWord hv]
  exact ⟨fun ⟨g, hp, hg⟩ => hv.pos_inj g f hp ▸ hg, fun h => ⟨f, rfl, h⟩⟩

/-- The CTRL word after a write inside the fields is `(ctrl & ~mask) | value` (R143). -/
theorem ctrlWord_ctrlAfter {c : Cfg} (hv : c.Valid) (hd : c.hasAdcDebug = true) {mask value : Wire}
    (hm : mask &&& ~~~ fieldsMask c = 0#32) (hw : value &&& ~~~ mask = 0#32) (old : PerFlag Bool) :
    ctrlWord c (ctrlAfter c mask value old) = (ctrlWord c old &&& ~~~ mask) ||| value := by
  apply BitVec.eq_of_getLsbD_eq
  intro i hi
  simp only [BitVec.getLsbD_or, BitVec.getLsbD_and, BitVec.getLsbD_not, hi, decide_true, Bool.true_and]
  have hval : value.getLsbD i = true → mask.getLsbD i = true := getLsbD_of_inside hw
  by_cases h : ∃ f, c.pos.get f = i
  · obtain ⟨f, rfl⟩ := h
    rw [getLsbD_ctrlWord_pos hv, getLsbD_ctrlWord_pos hv, ctrlAfter_get,
      flagAfter_of_present (flagPresent_of fun _ => hd)]
    cases hb : mask.getLsbD (c.pos.get f)
    · have hz : value.getLsbD (c.pos.get f) = false :=
        Bool.eq_false_iff.2 fun h => by simp [hval h] at hb
      simp [hz]
    · simp
  · have none_at (v : PerFlag Bool) : (ctrlWord c v).getLsbD i = false :=
      Bool.eq_false_iff.2 fun hb => h (((getLsbD_ctrlWord hv v i).1 hb).imp fun _ => And.left)
    have value_at : value.getLsbD i = false :=
      Bool.eq_false_iff.2 fun hb =>
        h ((getLsbD_fieldsMask hv i).1 (getLsbD_of_inside hm (hval hb)))
    rw [none_at, none_at, value_at]
    rfl

/-- A listed field takes its bit (R144). -/
theorem ctrlAfter_lists_get_of_mem {c : Cfg} (hv : c.Valid) {fs : List Flag} {bs : List Bool}
    (hn : fs.Nodup) (hd : .adcDebug ∈ fs → c.hasAdcDebug = true) (old : PerFlag Bool) {f : Flag}
    {b : Bool} (h : (f, b) ∈ fs.zip bs) :
    (ctrlAfter c (maskOfList c fs) (valueOfList c fs bs) old).get f = b := by
  have hf : f ∈ fs := (List.of_mem_zip h).1
  rw [ctrlAfter_get, valueOfList, flagAfter_lists hv,
    if_pos ⟨hf, flagPresent_of fun e => hd (e ▸ hf)⟩, Bool.eq_iff_iff, decide_eq_true_eq,
    mem_assertedFields fs bs f b hn h]

/-- A field that is not listed stays as it is (R144). -/
theorem ctrlAfter_lists_get_of_not_mem {c : Cfg} (hv : c.Valid) {fs : List Flag} (bs : List Bool)
    (old : PerFlag Bool) {f : Flag} (h : f ∉ fs) :
    (ctrlAfter c (maskOfList c fs) (valueOfList c fs bs) old).get f = old.get f := by
  rw [ctrlAfter_get, valueOfList, flagAfter_lists hv, if_neg fun hf => h hf.1]

/-! ### Pulse masks outside the five bits -/

/-- A mask with a bit at no trigger position is not inside them (R154). -/
theorem not_inside_trigsMask {c : Cfg} {mask : Wire} {p : Nat} (hb : mask.getLsbD p = true)
    (hp : ∀ t, c.tpos.get t ≠ p) : mask &&& ~~~ trigsMask c ≠ 0#32 := by
  intro h
  have ht := getLsbD_of_inside h hb
  rw [getLsbD_trigsMask] at ht
  simp [fun t => (hp t).symm] at ht

/-- Such a mask is no TRIGGER row. -/
theorem decodeT_of_not_tpos {c : Cfg} {mask : Wire} {p : Nat} (hb : mask.getLsbD p = true)
    (hp : ∀ t, c.tpos.get t ≠ p) : decodeT c mask = .triggerMask mask := by
  unfold decodeT
  split
  next t ht =>
    obtain rfl : mask = pulseMask c t := by simpa using List.find?_some ht
    simp [pulseMask, getLsbD_bitMask, (hp t).symm] at hb
  next => rfl

theorem decode_pulse_header (c : Cfg) (mask : Wire) (r : List Byte) :
    decode c (header mask.toNat 0 1 ++ r) = .ok (decodeT c mask, r) := by
  rw [decode_header c (wire_toNat_lt _) (by omega) (by omega)]
  simp only [decodeBody, if_true, BitVec.ofNat_toNat, BitVec.setWidth_eq]

end Sys2Proof.Machine

namespace Sys2Proof.Transactions
open Machine

/-- Settles O4: each row is form W with its mask and value. -/
theorem formWRowsAgree : Obligations.FormWRowsAgree :=
  fun s mask value _ => exec_decodeW s mask value

/-- Settles O16: the write of one mask asserts that flag, and its checks are those of `FlagsWritten`. -/
theorem setBit : Obligations.SetBit := by
  intro s f hv hd
  refine ⟨_, exec_setBitInstr f s, ?_, ?_⟩
  · rw [setBit_eq hv (flagPresent_of hd)]
    exact ctrlChecks_flagsWritten hv _
  · rw [← exec_setBitInstr_eq_maskedWrite, exec_setBitInstr]

/-- Settles O17: on a clear, under I-EXCL, neither check of R153 fires. -/
theorem clearBit : Obligations.ClearBit := by
  intro s f hv hx hd
  refine ⟨?_, (exec_clearBitInstr_eq_maskedWrite f s).symm⟩
  rw [exec_clearBitInstr, clearBit_eq hv hx (flagPresent_of hd)]
  rfl

/-- Settles O18: the flags after the write are those the CTRL word `(ctrl & ~mask) | value` stands for. -/
theorem maskedWrite : Obligations.MaskedWrite := by
  intro s mask value hv hd hm hw
  refine ⟨ctrlAfter s.cfg mask value s.ctrl, _, formW_of_inside hm hw,
    writeCtrl_flagsWritten hv mask value, ctrlWord_ctrlAfter hv hd hm hw s.ctrl, fun f => ?_⟩
  rw [ctrlAfter_get, flagAfter_of_present (flagPresent_of fun _ => hd)]

/-- Settles O20: the union masks write the listed fields, and the check of the lists comes first. -/
theorem atomicWrite : Obligations.AtomicWrite := by
  refine ⟨fun s fields values hv hl hn hd => ?_, fun s fields values hbad => ?_⟩
  · exact ⟨_, _, exec_atomicWrite_of_ok (atomicArgsOk_iff.2 ⟨hl, hn⟩) s,
      writeCtrl_flagsWritten hv _ _, fun f b => ctrlAfter_lists_get_of_mem hv hn hd s.ctrl,
      fun f => ctrlAfter_lists_get_of_not_mem hv values s.ctrl, exec_maskedWrite_lists fields values s⟩
  · refine exec_atomicWrite_of_not_ok (fun h => ?_) s
    obtain ⟨hl, hn⟩ := atomicArgsOk_iff.1 h
    exact hbad.elim (· hl) (· hn)

/-- Settles O19: the checks of R154 in their order, and a pulse outside the five bits is read as no
TRIGGER row. -/
theorem refusedTransactions : Obligations.RefusedTransactions := by
  refine ⟨fun s mask value hm => if_pos hm, fun s mask value hm hw => ?_,
    fun s mask r p hb hp => ⟨?_, ?_⟩⟩
  · exact (if_neg (not_not.2 hm)).trans (if_pos hw)
  · exact if_pos (not_inside_trigsMask hb hp)
  · rw [decode_pulse_header, decodeT_of_not_tpos hb hp]

end Sys2Proof.Transactions
end

section
/-! STATUS and the bulk transfers as calls (40_transactions.md R146 to R152): their checks, their outcomes
and what they leave. -/

namespace Sys2Proof.Machine

/-! ### The checks (R148, R151) -/

/-- PIPE_WRITE of checked data: a state of the spec has its write pointer inside the DAC region, so the
transfer runs. -/
theorem exec_pipeWrite_of_ok {s : State} (ht : s.Typed) {data : List Byte} {bs : Nat}
    (h : transferOk data.length bs = true) : exec (.pipeWrite data bs) s
      = .next (finish (.count (pipeWrite data s).1) (pipeWrite data s).2) := by
  show execPipeWrite data bs s = _
  rw [execPipeWrite, if_pos h, guardDacWr, if_pos (by simp [ptrOk_of_typed ht])]

theorem exec_pipeRead_of_ok {n bs : Nat} (h : transferOk n bs = true) (s : State) :
    exec (.pipeRead n bs) s
      = .next (finish (.read (pipeRead n s).1 (pipeRead n s).2.1) (pipeRead n s).2.2) := if_pos h

theorem not_transferOk {n bs : Nat} (h : n % 16 ≠ 0 ∨ ¬ ∃ k, k ≤ 10 ∧ bs = 16 * 2 ^ k) :
    ¬ transferOk n bs = true := fun hok => by
  obtain ⟨hn, hbs⟩ := transferOk_iff.1 hok
  exact h.elim (· hn) (· hbs)

theorem transferOk_pow {n k : Nat} (hn : n % 16 = 0) (hk : k ≤ 10) : transferOk n (16 * 2 ^ k) = true :=
  transferOk_iff.2 ⟨hn, k, hk, rfl⟩

/-! ### Outcomes (R149, R152) -/

/-- What a bulk write of at least one byte returns; the length only where R149 allows it. -/
theorem pipeWrite_outcome {s : State} (hv : s.cfg.Valid) {data : List Byte} (hd : data.length ≠ 0) :
    OutcomeOf s.cfg data.length (pipeWrite data s).1 ∧
    ((pipeWrite data s).1 = data.length → writeAllowed data.length s = true) := by
  rcases pipeWrite_cases (s := s) hd with ⟨ha, he⟩ | he <;> rw [he]
  · exact ⟨.inl rfl, fun _ => ha⟩
  · obtain ⟨ho, hne⟩ := shortOutcome_lt hv (k := s.draws) (Nat.pos_of_ne_zero hd)
    exact ⟨ho, fun e => absurd e hne⟩

/-- A bulk write that returns the length was complete. -/
theorem pipeWrite_of_complete {s : State} (hv : s.cfg.Valid) {data : List Byte}
    (hd : data.length ≠ 0) (h : (pipeWrite data s).1 = data.length) :
    (pipeWrite data s).2 = completeWrite (wordsOf data) (takeDraw s) := by
  rcases pipeWrite_cases (s := s) hd with ⟨-, he⟩ | he
  · rw [he]
  · rw [he] at h
    exact absurd h (shortOutcome_lt hv (Nat.pos_of_ne_zero hd)).2

/-- What a bulk read of a checked count answers: the words it took, or a short outcome. -/
theorem pipeRead_outcome {s : State} (hv : s.cfg.Valid) {n : Nat} (hn : n ≠ 0) (h16 : n % 16 = 0) :
    OutcomeOf s.cfg n (pipeRead n s).1 ∧
    ((pipeRead n s).1 = n → ∃ ws t, takes (n / 16) (takeDraw s) = some (ws, t) ∧
      pipeRead n s = ((n : Int), bytesOf ws, t) ∧ (bytesOf ws).length = n) := by
  rcases pipeRead_cases n s with ⟨h0, -⟩ | ⟨-, ws, t, hw, he⟩ | ⟨-, he⟩
  · exact absurd h0 hn
  · have hl : (bytesOf ws).length = n := by rw [bytesOf_length, takes_length hw]; omega
    exact ⟨.inl (by rw [he]), fun _ => ⟨ws, t, hw, he, hl⟩⟩
  · obtain ⟨ho, hne⟩ := shortOutcome_lt hv (k := s.draws) (Nat.pos_of_ne_zero hn)
    rw [he]
    exact ⟨ho, fun e => absurd e hne⟩

theorem pipeRead_stopped (n : Nat) (s : State) : ReadStopped s (pipeRead n s).2.2 := by
  rcases pipeRead_cases n s with ⟨-, he⟩ | ⟨-, ws, t, hw, he⟩ | ⟨-, he⟩ <;> rw [he]
  · exact .refl s
  · exact (takeDraw_stopped s).read.trans (takes_stopped hw)
  · exact (takeDraw_stopped s).read.trans (failedRead_stopped _ _)

/-- What the data path keeps of the control side, a call that then returns keeps too. -/
theorem KeepsControl.finish {s t : State} (h : KeepsControl s t) (r : Result) :
    ControlKept s (finish r t) := ⟨h.ctrl, h.fault, h.cfg, h.program⟩

end Sys2Proof.Machine

namespace Sys2Proof.Transactions
open Machine

/-- Settles O25: the specified bits of the STATUS word do not depend on the draw. -/
theorem wireRead : Obligations.WireRead := fun s hv ht =>
  ⟨statusWord s, s.draws + 1, rfl, statusWord_empty hv, statusWord_full hv, statusWord_count hv ht⟩

/-- Settles O28, from the outcomes of a bulk write and the paths it does not act on. -/
theorem pipeWriteCompletes : Obligations.PipeWriteCompletes := by
  intro s data k hv ht hd h16 hk
  obtain ⟨ho, ha⟩ := pipeWrite_outcome (s := s) hv fun e => hd (List.length_eq_zero_iff.1 e)
  have st := pipeWrite_others data s
  exact ⟨_, _, exec_pipeWrite_of_ok ht (transferOk_pow h16 hk), rfl, ho,
    fun e => by simpa [writeAllowed] using ha e,
    (pipeWrite_typedValid data ⟨ht, hv⟩).1.setResult _, (pipeWrite_keeps data s).finish _,
    st.play, st.capture, st.transfer⟩

/-- Settles O29: a write that returns the length is the complete one, whose words land as R149 says. -/
theorem pipeWriteComplete : Obligations.PipeWriteComplete := by
  intro s data k hv ht hd h16 hk
  refine ⟨_, exec_pipeWrite_of_ok ht (transferOk_pow h16 hk), fun hr => ?_⟩
  have hn : data.length ≠ 0 := fun e => hd (List.length_eq_zero_iff.1 e)
  have he := pipeWrite_of_complete hv hn (Result.count.inj hr)
  rw [he]
  exact completeWrite_spec (s := takeDraw s) (ht.ptr_lt .dacWr)

/-- Settles O30: a read that returns the count took its words from FIFO AdcOut, which nothing fills while
AdcTransfer is clear. -/
theorem pipeReadCompletes : Obligations.PipeReadCompletes := by
  intro s n k hv ht hn h16 hk
  obtain ⟨ho, hc⟩ := pipeRead_outcome (s := s) hv hn h16
  have st := pipeRead_stopped n s
  refine ⟨_, _, _, exec_pipeRead_of_ok (transferOk_pow h16 hk) s, rfl, ho, fun e => ?_,
    (pipeRead_typedValid n ⟨ht, hv⟩).1.setResult _, (pipeRead_keeps n s).finish _,
    st.write, st.play, st.capture, fun htr e => ?_⟩
  · obtain ⟨ws, t, -, he, hl⟩ := hc e
    rw [he]
    exact hl
  · obtain ⟨ws, t, hw, he, -⟩ := hc e
    obtain ⟨hq, hp⟩ := takes_still hw htr
    rw [he]
    exact ⟨ws, rfl, hq, hp⟩

/-- Settles O27: the check decides before anything else, and nothing moves where there is nothing. -/
theorem transferChecks : Obligations.TransferChecks := by
  refine ⟨fun s data bs h => if_neg (not_transferOk h), fun s n bs h => if_neg (not_transferOk h),
    fun s k hk => ⟨?_, ?_⟩⟩
  · exact if_pos (transferOk_pow rfl hk)
  · exact if_pos (transferOk_pow rfl hk)

end Sys2Proof.Transactions
end

section
/-! Runs of the documented operations (41_controller_ops.md section 6): the stages of `write_buf` with the
flags fixed at each (R164, R165), and what every other documented operation leaves of DacWrite. -/

namespace Sys2Proof.Machine

/-! ### Flags fixed, stopped capture kept -/

/-- `t` is reached from `s` with the flags `new`, AdcWrite not touched: no mark, and nothing of a stopped
capture side changed. -/
structure Reached (new : PerFlag Bool) (s t : State) : Prop where
  ctrl : t.ctrl = new
  adcWrite : new.adcWrite = s.ctrl.adcWrite
  cfg : t.cfg = s.cfg
  program : t.program = s.program
  fault : t.fault = s.fault
  capture : CaptureStopped s t

theorem BufferOpen.reached {s t : State} (h : BufferOpen s t) :
    Reached { s.ctrl with dacWrite := true, dacRead := false } s t :=
  ⟨h.ctrl, rfl, h.cfg, h.program, h.fault, h.capture⟩

/-- What a call does beside its register transactions leaves the flags reached. -/
theorem Reached.keeps {new : PerFlag Bool} {s t u : State} (h : Reached new s t)
    (k : KeepsControl t u) (hc : CaptureStopped t u) : Reached new s u where
  ctrl := k.ctrl.trans h.ctrl
  adcWrite := h.adcWrite
  cfg := k.cfg.trans h.cfg
  program := k.program.trans h.program
  fault := k.fault.trans h.fault
  capture := h.capture.trans_adc (by rw [h.ctrl, h.adcWrite]) hc

theorem Reached.gap {new : PerFlag Bool} {s t : State} (h : Reached new s t) :
    Reached new s (runHw t) := h.keeps (runHw_keeps t) (runHw_stopped t).capture

theorem Reached.pipeWrite {new : PerFlag Bool} {s t : State} (h : Reached new s t)
    (data : List Byte) : Reached new s (pipeWrite data t).2 :=
  h.keeps (pipeWrite_keeps data t) (pipeWrite_others data t).capture

theorem Reached.setResult {new : PerFlag Bool} {s t : State} (h : Reached new s t) (r : Result) :
    Reached new s (t.setResult r) :=
  ⟨h.ctrl, h.adcWrite, h.cfg, h.program, h.fault, h.capture⟩

/-- A form-W transaction that does not end with T3 all asserted is no entry to Streaming: its checks can
only set the mark (40_transactions.md R153). -/
theorem ctrlChecks_of_not_allT3 {old : PerFlag Bool} {s : State} (h : allT3 s.ctrl = false) :
    ctrlChecks old s = if s.ctrl.dacWrite && s.ctrl.dacRead then s.setFault true else s := by
  simp [ctrlChecks, h]

/-- A form-W transaction that leaves AdcWrite clear changes nothing of the capture side. -/
theorem writeCtrl_capture {mask value : Wire} {s : State}
    (h : (ctrlAfter s.cfg mask value s.ctrl).adcWrite = s.ctrl.adcWrite) :
    CaptureStopped s (writeCtrl mask value s) := by
  intro e
  rw [writeCtrl, ctrlChecks_of_not_allT3 (by simp [allT3, h, e])]
  split <;> exact ⟨rfl, rfl, rfl, rfl⟩

/-- A form-W transaction that does not leave DacWrite and DacRead both asserted. -/
theorem Reached.form {new new' : PerFlag Bool} {s t : State} {mask value : Wire}
    (h : Reached new s t) (hn : ctrlAfter t.cfg mask value new = new')
    (ha : new'.adcWrite = new.adcWrite) (hx : (new'.dacWrite && new'.dacRead) = false) :
    Reached new' s (writeCtrl mask value t) := by
  have hc : (writeCtrl mask value t).ctrl = new' := by rw [writeCtrl_ctrl, h.ctrl, hn]
  refine ⟨hc, ha.trans h.adcWrite, (writeCtrl_cfg _ _ t).trans h.cfg,
    (writeCtrl_program _ _ t).trans h.program, ?_, h.capture.trans_adc ?_ (writeCtrl_capture ?_)⟩
  · rw [writeCtrl_fault, hc, hx, Bool.or_false, h.fault]
  · rw [h.ctrl, h.adcWrite]
  · rw [h.ctrl, hn, ha]

theorem Reached.set {new : PerFlag Bool} {s t : State} (h : Reached new s t) (hv : s.cfg.Valid)
    {f : Flag} (hf : flagPresent s.cfg f = true) (ha : (new.set f true).adcWrite = new.adcWrite)
    (hx : ((new.set f true).dacWrite && (new.set f true).dacRead) = false) :
    Reached (new.set f true) s (setBit f t) :=
  h.form (by rw [h.cfg, ctrlAfter_setBit hv hf]) ha hx

theorem Reached.clear {new : PerFlag Bool} {s t : State} (h : Reached new s t) (hv : s.cfg.Valid)
    {f : Flag} (hf : flagPresent s.cfg f = true) (ha : (new.set f false).adcWrite = new.adcWrite)
    (hx : ((new.set f false).dacWrite && (new.set f false).dacRead) = false) :
    Reached (new.set f false) s (clearBit f t) :=
  h.form (by rw [h.cfg, ctrlAfter_clearBit hv hf]) ha hx

/-! ### The stages of write_buf (R164, R165) -/

/-- The state in which the transfer of `write_buf` begins. -/
def bufferReady (s : State) : State := runHw (issue writeBufPrelude s)

/-- The state once DacWrite is cleared, on either path. -/
def bufferClosed (frame : List Byte) (s : State) : State :=
  clearBit .dacWrite (runHw (pipeWrite frame (bufferReady s)).2)

/-- The state after the option. -/
def bufferStarted (frame : List Byte) (start : Bool) (s : State) : State :=
  if start then issue writeBufStart (runHw (bufferClosed frame s)) else bufferClosed frame s

theorem writeBufBody_of_complete {frame : List Byte} {start : Bool} {s : State}
    (h : (pipeWrite frame (bufferReady s)).1 = frame.length) :
    writeBufBody frame start s = finish .done (bufferStarted frame start s) := if_pos h

theorem writeBufBody_of_short {frame : List Byte} {start : Bool} {s : State}
    (h : (pipeWrite frame (bufferReady s)).1 ≠ frame.length) :
    writeBufBody frame start s = raiseError (.transportError (pipeWrite frame (bufferReady s)).1)
      (bufferClosed frame s) := if_neg h

theorem bufferReady_open {s : State} (hv : s.cfg.Valid) : BufferOpen s (bufferReady s) :=
  (writeBufPrelude_open hv).gap

theorem bufferClosed_reached (frame : List Byte) {s : State} (hv : s.cfg.Valid) :
    Reached { s.ctrl with dacWrite := false, dacRead := false } s (bufferClosed frame s) :=
  ((bufferReady_open hv).reached.pipeWrite frame).gap.clear hv (f := .dacWrite) rfl rfl rfl

theorem bufferStarted_reached (frame : List Byte) (start : Bool) {s : State} (hv : s.cfg.Valid) :
    Reached { s.ctrl with
        dacWrite := false, dacRead := start, adcTransfer := start || s.ctrl.adcTransfer } s
      (bufferStarted frame start s) := by
  have hc := bufferClosed_reached frame hv
  cases start
  case false => exact hc
  case true =>
    exact (hc.gap.set hv (f := .dacRead) rfl rfl rfl).gap.set hv (f := .adcTransfer) rfl rfl rfl

/-- Where `write_buf` ends after its checks: complete, or with TransportError; DacWrite clear on both
paths (R164, R165). -/
theorem writeBufBody_cases (frame : List Byte) (start : Bool) {s : State} (hv : s.cfg.Valid) :
    ((writeBufBody frame start s).result = .done ∧
      Reached { s.ctrl with
          dacWrite := false, dacRead := start, adcTransfer := start || s.ctrl.adcTransfer } s
        (writeBufBody frame start s)) ∨
    ((pipeWrite frame (bufferReady s)).1 ≠ frame.length ∧
      (writeBufBody frame start s).result
        = .error (.transportError (pipeWrite frame (bufferReady s)).1) ∧
      Reached { s.ctrl with dacWrite := false, dacRead := false } s (writeBufBody frame start s)) := by
  by_cases h : (pipeWrite frame (bufferReady s)).1 = frame.length
  · rw [writeBufBody_of_complete h]
    exact .inl ⟨rfl, (bufferStarted_reached frame start hv).setResult _⟩
  · rw [writeBufBody_of_short h]
    exact .inr ⟨h, rfl, (bufferClosed_reached frame hv).setResult _⟩

/-- On either path only DacWrite, DacRead and AdcTransfer may have changed, and DacWrite is clear. -/
theorem writeBufBody_reached (frame : List Byte) (start : Bool) {s : State} (hv : s.cfg.Valid) :
    ∃ r x : Bool, Reached { s.ctrl with dacWrite := false, dacRead := r, adcTransfer := x } s
      (writeBufBody frame start s) := by
  obtain ⟨-, h⟩ | ⟨-, -, h⟩ := writeBufBody_cases frame start hv
  · exact ⟨_, _, h⟩
  · exact ⟨_, _, h⟩

/-! ### DacWrite at operation boundaries (R175) -/

/-- DacWrite is clear and the mark is `m`, under a valid configuration. -/
def WriteClear (m : Bool) (s : State) : Prop :=
  s.cfg.Valid ∧ s.ctrl.dacWrite = false ∧ s.fault = m

theorem Reached.writeClear {m : Bool} {new : PerFlag Bool} {s t : State} (h : Reached new s t)
    (hn : new.dacWrite = false) (hs : WriteClear m s) : WriteClear m t := by
  obtain ⟨hv, -, hm⟩ := hs
  exact ⟨by rw [h.cfg]; exact hv, by rw [h.ctrl, hn], h.fault.trans hm⟩

/-- With DacWrite clear a register transaction that does not name it sets no mark (40_transactions.md R153
step 3). -/
theorem runTxn_writeClear {m : Bool} {x : Txn} (hx : .dacWrite ∉ x.fields) {s : State}
    (h : WriteClear m s) : WriteClear m (runTxn x s) := by
  obtain ⟨hv, hw, hm⟩ := h
  have hw' : (runTxn x s).ctrl.dacWrite = false := (runTxn_get_of_not_named hv hx).trans hw
  have form {mask value : Wire} (hc : (writeCtrl mask value s).ctrl.dacWrite = false) :
      (writeCtrl mask value s).fault = m := by
    rw [writeCtrl_fault, hc, Bool.false_and, Bool.or_false, hm]
  refine ⟨by rw [(runTxn_keeps x s).1]; exact hv, hw', ?_⟩
  cases x with
  | pulse t => exact (pulse_keeps t s).fault.trans hm
  | set | clear | atomic => exact form hw'

/-- Of the documented operations only `write_buf`, and with it `write_channels`, issues a transaction on
DacWrite. -/
theorem dacWrite_issued (c : Cfg) {i : Instr} (hi : documented i = true) :
    (∀ x ∈ mayIssue c i, Flag.dacWrite ∉ x.fields) ∨ (∃ frame start, i = .writeBuf frame start) ∨
      ∃ buffers start, i = .writeChannels buffers start := by
  cases i
  case writeBuf frame start => exact .inr (.inl ⟨frame, start, rfl⟩)
  case writeChannels buffers start => exact .inr (.inr ⟨buffers, start, rfl⟩)
  case writeSetup | writeFinish | repeatSetup | setAdcDebug | clearAdcDebug | resetPointers =>
    refine .inl ?_; simp only [mayIssue]; decide
  case resetFifo name =>
    refine .inl ?_
    cases name <;> simp [mayIssue, resetFifoTxns, resetAllTxns, Txn.fields]
  case fifoStatus | readBlock | dacFill | dacPlay | adcStore | adcFetch | dacSink | adcSource | stripe |
      destripe | deswizzleLegacy | deswizzleFull | swizzle | decodeFields | decode =>
    exact .inl (List.forall_mem_nil _)
  all_goals cases hi

theorem writeBuf_writeClear {m : Bool} {frame : List Byte} {start : Bool} {s t : State}
    (he : writeBuf frame start s = .next t) (h : WriteClear m s) : WriteClear m t := by
  unfold writeBuf at he
  split at he
  · rw [guardDacWr_next he]
    obtain ⟨r, x, hr⟩ := writeBufBody_reached frame start h.1
    exact hr.writeClear rfl h
  · rw [← Host.Outcome.next.inj he]; exact h

theorem keepsRest_writeClear (m : Bool) : KeepsRest (WriteClear m) :=
  (KeepsPath.of_control fun s t hc hf hg h => by
    rw [WriteClear, hc, hf, hg]; exact h).rest

/-- Every documented operation entered with DacWrite clear leaves it clear and sets no mark. -/
theorem exec_writeClear {m : Bool} {i : Instr} (hi : documented i = true) {s t : State}
    (he : exec i s = .next t) (h : WriteClear m s) : WriteClear m t := by
  rcases dacWrite_issued s.cfg hi with hx | ⟨frame, start, rfl⟩ | ⟨buffers, start, rfl⟩
  · exact (keepsRest_writeClear m).exec (fun x hm _ => runTxn_writeClear (hx x hm))
      (fun _ _ e => by subst e; cases hi) he h
  · exact writeBuf_writeClear (frame := frame) (start := start) he h
  · change execWriteChannels buffers start s = .next t at he
    unfold execWriteChannels at he
    split at he
    · exact writeBuf_writeClear he h
    · rw [← Host.Outcome.next.inj he]; exact h

/-- What each call of a run keeps holds after the run. -/
theorem runCalls_keeps_prop {P : State → Prop} {is : List Instr}
    (hP : ∀ i ∈ is, ∀ s t, exec i s = .next t → P s → P t) {s t : State}
    (he : runCalls is s = .next t) (h : P s) : P t := by
  induction is generalizing s with
  | nil => exact Host.Outcome.next.inj he ▸ h
  | cons i is ih =>
    rw [List.forall_mem_cons] at hP
    rw [runCalls] at he
    split at he
    next u hu => exact ih hP.2 he (hP.1 s u hu h)
    all_goals cases he

end Sys2Proof.Machine

namespace Sys2Proof.Controller
open Machine

/-- Settles O11: DacWrite clear with the mark as it was is kept by every documented operation, and so by
every run of them. -/
theorem documentedCallsKeepDacWriteClear : Obligations.DocumentedCallsKeepDacWriteClear := by
  intro is s t hv hw hd he
  have h : WriteClear s.fault t :=
    runCalls_keeps_prop (fun i hi _ _ => exec_writeClear (hd i hi)) he ⟨hv, hw, rfl⟩
  exact h.2

end Sys2Proof.Controller
end

section
/-! What a call answers (60_exceptions.md R260, R269): every check that raises ConfigurationError comes
first (41_controller_ops.md R162), and the operations that are one or two transactions or a check. -/

namespace Sys2Proof.Machine

/-! ### ConfigurationError (R162) -/

/-- An answer that raises ConfigurationError is that of a check, made of the state on entry. -/
def ChecksFirst (s : State) (o : Host.Outcome State Fault Refusal) : Prop :=
  ∀ t, o = .next t → t.result = .error .configurationError → t = raiseError .configurationError s

namespace ChecksFirst

theorem of_ne {s u : State} (h : u.result ≠ .error .configurationError) :
    ChecksFirst s (.next u) := fun _ he hr => absurd (Host.Outcome.next.inj he ▸ hr) h

theorem returns {s u : State} {r : Result} (h : r ≠ .error .configurationError) :
    ChecksFirst s (.next (finish r u)) := of_ne h

theorem done (s u : State) : ChecksFirst s (.next (finish .done u)) := returns nofun

theorem raised (s : State) : ChecksFirst s (.next (raiseError .configurationError s)) :=
  fun _ he _ => (Host.Outcome.next.inj he).symm

theorem refused (s : State) (r : Refusal) : ChecksFirst s (.refused r) :=
  fun _ he => nomatch he

theorem fault (s : State) (f : Fault) : ChecksFirst s (.fault f) :=
  fun _ he => nomatch he

theorem ite {s : State} {c : Prop} [Decidable c] {a b : Host.Outcome State Fault Refusal}
    (ha : ChecksFirst s a) (hb : ChecksFirst s b) : ChecksFirst s (if c then a else b) := by
  split <;> assumption

theorem guard {s : State} {o : Host.Outcome State Fault Refusal} (data : List Byte) (b : Bool)
    (h : ChecksFirst s o) : ChecksFirst s (guardDacWr data b s o) := h.ite (fault s _)

end ChecksFirst

theorem writeBuf_checksFirst (frame : List Byte) (start : Bool) (s : State) :
    ChecksFirst s (writeBuf frame start s) := by
  refine .ite (.guard _ _ (.of_ne ?_)) (.raised s)
  simp only [writeBufBody, apply_ite State.result, finish, raiseError, State.result_setResult]
  split <;> nofun

/-- Every call of the host makes its checks first. -/
theorem exec_checksFirst {i : Instr} (hi : isHwTurn i = false) (s : State) :
    ChecksFirst s (exec i s) := by
  cases i
  case setBitDacWrite | setBitDacRead | setBitAdcWrite | setBitAdcTransfer | setBitAdcDebug |
      setBitAdcsConnected | clearBitDacWrite | clearBitDacRead | clearBitAdcWrite |
      clearBitAdcTransfer | clearBitAdcDebug | clearBitAdcsConnected | atomicWriteStream |
      triggerRstDacIn | triggerRstDacOut | triggerRstAdcIn | triggerRstAdcOut | triggerRstPtr |
      writeSetup | writeFinish | repeatSetup | setAdcDebug | clearAdcDebug | resetPointers =>
    exact .done s _
  case wireRead | fifoStatus | deswizzleLegacy | deswizzleFull => exact .returns nofun
  case maskedWrite => exact .ite (.refused s _) (.ite (.refused s _) (.done s _))
  case atomicWrite => exact .ite (.done s _) (.raised s)
  case triggerMask => exact .ite (.refused s _) (.done s _)
  case pipeWrite => exact .ite (.guard _ _ (.returns nofun)) (.raised s)
  case pipeRead => exact .ite (.returns nofun) (.raised s)
  case readBlock => exact .ite (.ite (.returns nofun) (.returns nofun)) (.raised s)
  case writeBuf frame start => exact writeBuf_checksFirst frame start s
  case writeChannels buffers start => exact .ite (writeBuf_checksFirst _ start s) (.raised s)
  case resetFifo name =>
    cases name
    case one | all => exact .done s _
    case unknown => exact .raised s
  case stripe | destripe | swizzle | decodeFields => exact .ite (.returns nofun) (.returns nofun)
  case decode tag version d =>
    change ChecksFirst s (execDecode tag version d s)
    unfold execDecode
    split
    · exact .returns nofun
    · exact .raised s
  all_goals cases hi

/-! ### Labels (10_state.md R40) -/

theorem anyEnable_eq_false_iff {c : PerFlag Bool} : anyEnable c = false ↔
    c.dacWrite = false ∧ c.dacRead = false ∧ c.adcWrite = false ∧ c.adcTransfer = false := by
  simp [anyEnable, and_assoc]

theorem phase_streaming_iff {s : State} : phase s = .streaming ↔ s.ctrl.dacWrite = false ∧
    s.ctrl.dacRead = true ∧ s.ctrl.adcWrite = true ∧ s.ctrl.adcTransfer = true := by
  refine ⟨fun h => ?_, fun ⟨hw, hr, ha, ht⟩ => by simp [phase, hw, hr, ha, ht]⟩
  simp only [phase, ite_eq_iff, reduceCtorEq, and_false, false_or, or_false, and_true, Bool.and_eq_true,
    Bool.not_eq_true', and_assoc] at h
  exact h.2

theorem phase_draining_iff {s : State} :
    phase s = .draining ↔ anyEnable s.ctrl = false ∧ drained s = true := by
  refine ⟨fun h => ?_, fun ⟨he, hd⟩ => phase_of_drained he hd⟩
  cases he : anyEnable s.ctrl
  case true => simp [phase, he, ite_eq_iff] at h
  case false =>
    cases hd : drained s
    case true => exact ⟨rfl, rfl⟩
    case false => simp [phase, he, hd, anyEnable_eq_false_iff.1 he] at h

/-! ### write_finish (41_controller_ops.md R166) -/

/-- The flags `write_finish` leaves. -/
def streamFlags (p : PerFlag Bool) : PerFlag Bool :=
  { p with dacRead := true, adcWrite := true, adcTransfer := true }

/-- The one transaction of `write_finish`. -/
theorem atomicWrite_stream {s : State} (hv : s.cfg.Valid) :
    atomicWrite t3 [true, true, true] s = ctrlChecks s.ctrl (s.setCtrl (streamFlags s.ctrl)) :=
  congrArg (fun p => ctrlChecks s.ctrl (s.setCtrl p)) (ctrlAfter_stream hv s.ctrl)

/-- With no enable asserted it is no entry from a part of T3, and sets no mark. -/
theorem atomicWrite_stream_quiet {s : State} (hv : s.cfg.Valid) (hq : anyEnable s.ctrl = false) :
    atomicWrite t3 [true, true, true] s = s.setCtrl (streamFlags s.ctrl) := by
  obtain ⟨hw, hr, ha, ht⟩ := anyEnable_eq_false_iff.1 hq
  rw [atomicWrite_stream hv]
  exact ctrlChecks_quiet (fun h => by cases hw.symm.trans h) (by simp [anyT3, hr, ha, ht])

/-- In Streaming it changes nothing. -/
theorem atomicWrite_stream_streaming {s : State} (hv : s.cfg.Valid) (h : phase s = .streaming) :
    atomicWrite t3 [true, true, true] s = s := by
  obtain ⟨hw, hr, ha, ht⟩ := phase_streaming_iff.1 h
  have hs : streamFlags s.ctrl = s.ctrl := PerFlag.ext_get fun f => by
    cases f <;> simp [streamFlags, hr, ha, ht]
  rw [atomicWrite_stream hv, hs]
  exact ctrlChecks_same fun h => by cases hw.symm.trans h

/-! ### fifo_status and AdcDebug (R168 to R170) -/

theorem decodeStatus_empty_get (c : Cfg) (w : Wire) (q : Fifo) :
    (decodeStatus c w).empty.get q = w.getLsbD (c.emptyPos.get q) := by cases q <;> rfl

theorem decodeStatus_full_get (c : Cfg) (w : Wire) (q : Fifo) :
    (decodeStatus c w).full.get q = w.getLsbD (c.fullPos.get q) := by cases q <;> rfl

/-- AdcDebug is in neither check of R153. -/
theorem setBit_adcDebug {s : State} (hv : s.cfg.Valid) (hx : s.Excl) (h : s.cfg.hasAdcDebug = true) :
    setBit .adcDebug s = s.setCtrl (s.ctrl.set .adcDebug true) := by
  rw [setBit_eq (f := .adcDebug) hv h]
  exact ctrlChecks_quiet hx (by simp [allT3, PerFlag.set])

end Sys2Proof.Machine

namespace Sys2Proof.Controller
open Machine

/-- Settles O15: each call is a tree of checks whose leaves return something else. -/
theorem configurationErrorChangesNothing : Obligations.ConfigurationErrorChangesNothing :=
  fun _ s t hi => exec_checksFirst hi s t

/-- Settles O21, from the one ATOMIC_WRITE both calls issue. -/
theorem writeFinish : Obligations.WriteFinish := by
  intro s i hi hv
  have he : exec i s = .next (finish .done (Machine.atomicWrite t3 [true, true, true] s)) := by
    simp only [List.mem_cons, List.not_mem_nil, or_false] at hi
    rcases hi with rfl | rfl <;> rfl
  have hf : FlagsWritten s (streamFlags s.ctrl)
      (finish .done (Machine.atomicWrite t3 [true, true, true] s)) := by
    rw [atomicWrite_stream hv]; exact ctrlChecks_flagsWritten hv _
  refine ⟨_, he, hf, fun hq => ?_, fun hw => ?_, fun hp => ?_⟩
  · rw [atomicWrite_stream_quiet hv hq]
    obtain ⟨hw, -⟩ := anyEnable_eq_false_iff.1 hq
    exact ⟨rfl, phase_streaming_iff.2 ⟨hw, rfl, rfl, rfl⟩⟩
  · rw [atomicWrite_stream hv]
    obtain ⟨-, -, -, -, hfault⟩ := ctrlChecks_keeps s.ctrl (s.setCtrl (streamFlags s.ctrl))
    exact hfault.trans (by simp [streamFlags, hw])
  · rw [atomicWrite_stream_streaming hv hp]; rfl

/-- Settles O26: STATUS decodes to the flags and the count, and no FIFO has depth zero. -/
theorem fifoStatusDecodes : Obligations.FifoStatusDecodes := by
  intro s hv ht
  have empty (q : Fifo) : (decodeStatus s.cfg (statusWord s)).empty.get q
      = decide ((s.fifo.get q).length = 0) :=
    (decodeStatus_empty_get s.cfg _ q).trans (statusWord_empty hv q)
  have full (q : Fifo) : (decodeStatus s.cfg (statusWord s)).full.get q
      = decide ((s.fifo.get q).length = s.cfg.fifoDepth.get q) :=
    (decodeStatus_full_get s.cfg _ q).trans (statusWord_full hv q)
  refine ⟨_, s.draws + 1, rfl, empty, full, fun q h => ?_, statusWord_count hv ht⟩
  rw [empty, full, decide_eq_true_eq, decide_eq_true_eq] at h
  exact absurd (h.2.symm.trans h.1) (hv.fifoDepth_pos q).ne'

/-- Settles O31: `read_block` makes the check of PIPE_READ and the same transfer. -/
theorem readBlock : Obligations.ReadBlock := by
  refine ⟨fun s n bs h => if_neg (not_transferOk h), fun s n k hn hk => ?_⟩
  have hok := transferOk_pow hn hk
  refine ⟨_, _, _, exec_pipeRead_of_ok hok s, rfl, ?_⟩
  change execReadBlock n (16 * 2 ^ k) s = _
  rw [execReadBlock, if_pos hok]
  split <;> rfl

/-- Settles O39: where the feature is there each is a write of AdcDebug, which no check of R153 reads. -/
theorem adcDebugOperations : Obligations.AdcDebugOperations := by
  intro s hv hx
  refine ⟨fun h => ⟨?_, ?_⟩, fun h => ⟨?_, ?_⟩⟩
  · show execSetAdcDebug s = _
    rw [execSetAdcDebug, if_pos h, setBit_adcDebug hv hx h]; rfl
  · show execClearAdcDebug s = _
    rw [execClearAdcDebug, if_pos h, clearBit_eq (f := .adcDebug) hv hx h]; rfl
  · show execSetAdcDebug s = _
    rw [execSetAdcDebug, h]; rfl
  · show execClearAdcDebug s = _
    rw [execClearAdcDebug, h]; rfl

/-- Settles O40, from the pulses and gaps with no enable asserted. -/
theorem resetFifoAll : Obligations.ResetFifoAll := by
  refine ⟨fun s hq => ?_, fun s code => rfl⟩
  obtain ⟨ws, d, hws, he⟩ := resetAll_quiet hq
  refine ⟨ws, d, hws, ?_⟩
  change Host.Outcome.next (finish .done (issue resetAllTxns s)) = _
  rw [he]; rfl

end Sys2Proof.Controller
end

section
/-! `write_setup` and `repeat_setup` (41_controller_ops.md R160, R167): the control side of an expansion is a
function of the control side on entry, and with DacWrite clear the clears and resets leave the data path
empty. -/

namespace Sys2Proof.Machine

/-! ### The control side of an expansion -/

/-- The flags and the mark. -/
def State.control (s : State) : PerFlag Bool × Bool := (s.ctrl, s.fault)

/-- Flags and mark after W(mask, value), from those before (40_transactions.md R153). -/
def controlAfter (c : Cfg) (mask value : Wire) (p : PerFlag Bool × Bool) : PerFlag Bool × Bool :=
  let new := ctrlAfter c mask value p.1
  (new, p.2 || (new.dacWrite && new.dacRead))

/-- Flags and mark after a register transaction, from those before. -/
def Txn.control (c : Cfg) (p : PerFlag Bool × Bool) : Txn → PerFlag Bool × Bool
  | .set f => controlAfter c (maskOf c f) (maskOf c f) p
  | .clear f => controlAfter c (maskOf c f) 0#32 p
  | .atomic fs bs => controlAfter c (maskOfList c fs) (valueOfList c fs bs) p
  | .pulse _ => p

theorem writeCtrl_control (mask value : Wire) (s : State) :
    (writeCtrl mask value s).control = controlAfter s.cfg mask value s.control :=
  Prod.ext (writeCtrl_ctrl mask value s) <|
    (writeCtrl_fault mask value s).trans (by rw [writeCtrl_ctrl]; rfl)

theorem runTxn_control (x : Txn) (s : State) : (runTxn x s).control = x.control s.cfg s.control := by
  cases x with
  | set | clear | atomic => exact writeCtrl_control _ _ s
  | pulse t => exact Prod.ext (pulse_keeps t s).ctrl (pulse_keeps t s).fault

theorem runHw_control (s : State) : (runHw s).control = s.control :=
  Prod.ext (runHw_keeps s).ctrl (runHw_keeps s).fault

/-- No gap shows in the flags and the mark. -/
theorem issue_control (ts : List Txn) (s : State) :
    (issue ts s).control = ts.foldl (Txn.control s.cfg) s.control := by
  cases ts with
  | nil => rfl
  | cons x ts =>
    rw [List.foldl_cons, ← runTxn_control, ← (runTxn_keeps x s).1]
    show (ts.foldl (fun s x => runTxn x (runHw s)) (runTxn x s)).control = _
    generalize runTxn x s = u
    induction ts generalizing u with
    | nil => rfl
    | cons y ts ih =>
      rw [List.foldl_cons, List.foldl_cons, ih, runTxn_control, runHw_control,
        (runTxn_keeps y _).1, (runHw_keeps u).cfg]

/-- An expansion writes neither the configuration nor the calls to come. -/
theorem issue_cfg_program (ts : List Txn) (s : State) :
    (issue ts s).cfg = s.cfg ∧ (issue ts s).program = s.program :=
  issue_keeps_prop (P := fun u => u.cfg = s.cfg ∧ u.program = s.program)
    (fun x _ u hu => ⟨(runTxn_keeps x u).1.trans hu.1, (runTxn_keeps x u).2.1.trans hu.2⟩)
    (fun u hu => ⟨(runHw_keeps u).cfg.trans hu.1, (runHw_keeps u).program.trans hu.2⟩) ⟨rfl, rfl⟩

theorem Txn.control_pulse (c : Cfg) (p : PerFlag Bool × Bool) (t : Trig) :
    Txn.control c p (.pulse t) = p := rfl

theorem Txn.control_clear {c : Cfg} (hv : c.Valid) {f : Flag} (hf : flagPresent c f = true)
    (p : PerFlag Bool × Bool) : Txn.control c p (.clear f)
      = (p.1.set f false, p.2 || ((p.1.set f false).dacWrite && (p.1.set f false).dacRead)) := by
  simp only [Txn.control, controlAfter, ctrlAfter_clearBit hv hf]

theorem Txn.control_stream {c : Cfg} (hv : c.Valid) (p : PerFlag Bool × Bool) :
    Txn.control c p (.atomic [.adcWrite, .dacRead, .adcTransfer] [true, true, true])
      = (streamFlags p.1, p.2 || p.1.dacWrite) :=
  (congrArg (fun q : PerFlag Bool => (q, p.2 || (q.dacWrite && q.dacRead)))
    (ctrlAfter_stream hv p.1)).trans (by simp [streamFlags])

/-- The three flags both setups clear. -/
def clearedFlags (p : PerFlag Bool) : PerFlag Bool :=
  { p with dacRead := false, adcWrite := false, adcTransfer := false }

theorem writeSetup_control {s : State} (hv : s.cfg.Valid) :
    (issue writeSetupTxns s).control = (clearedFlags s.ctrl, s.fault) := by
  rw [issue_control]
  simp [writeSetupTxns, resetAllTxns, resetPointersTxns, Txn.control_pulse,
    Txn.control_clear hv (f := .dacRead) rfl, Txn.control_clear hv (f := .adcWrite) rfl,
    Txn.control_clear hv (f := .adcTransfer) rfl, PerFlag.set, State.control, clearedFlags]

theorem repeatSetup_control {s : State} (hv : s.cfg.Valid) :
    (issue repeatSetupTxns s).control = (streamFlags s.ctrl, s.fault || s.ctrl.dacWrite) := by
  rw [issue_control]
  cases hw : s.ctrl.dacWrite <;>
  simp [repeatSetupTxns, resetAllTxns, resetPointersTxns, writeFinishTxns, Txn.control_pulse,
    Txn.control_clear hv (f := .dacRead) rfl, Txn.control_clear hv (f := .adcWrite) rfl,
    Txn.control_clear hv (f := .adcTransfer) rfl, Txn.control_stream hv, PerFlag.set, State.control,
    streamFlags, hw]

/-! ### The data path after the clears and the resets, entered with DacWrite clear -/

/-- `v` is `s` with the three flags clear, FIFOs, pointers, `adc_fill` and `adc_overrun` reset and the
DAC region as it was; the ADC region too where nothing was being captured. -/
structure SetupReset (s v : State) : Prop where
  ctrl : v.ctrl = clearedFlags s.ctrl
  cfg : v.cfg = s.cfg
  fifo : v.fifo = ⟨[], [], [], []⟩
  ptr : v.ptr = ⟨0, 0, 0, 0⟩
  adcFill : v.adcFill = 0
  adcOverrun : v.adcOverrun = false
  ddrDac : v.ddrDac = s.ddrDac
  ddrAdc : s.ctrl.adcWrite = false → v.ddrAdc = s.ddrAdc
  played : ∃ ws, v.dacOut = s.dacOut ++ ws ∧ (s.ctrl.dacRead = false → ws <+: s.fifo.dacOut)

theorem anyEnable_clearedFlags {p : PerFlag Bool} (h : p.dacWrite = false) :
    anyEnable (clearedFlags p) = false := by simp [anyEnable, clearedFlags, h]

/-- What was played before the resets and between them is the oldest of what FIFO DacOut held. -/
theorem ThreeCleared.resets {s u : State} (h : ThreeCleared s u) (hw : s.ctrl.dacWrite = false) :
    SetupReset s (runTxn (.pulse .rstPtr) (runHw (issue resetAllTxns u))) := by
  obtain ⟨ws, d, hws, he⟩ := resets_quiet (s := u) (by rw [h.ctrl]; exact anyEnable_clearedFlags hw)
  rw [he]
  refine ⟨h.ctrl, h.cfg, rfl, rfl, rfl, rfl, h.ddrDac, h.ddrAdc, ?_⟩
  obtain ⟨w0, h0⟩ := h.played
  refine ⟨w0 ++ ws, by rw [← List.append_assoc, ← h0], fun e => ?_⟩
  have hs := h.sunk e
  rw [h0, List.append_assoc] at hs
  rw [← List.append_cancel_left hs]
  obtain ⟨rest, hrest⟩ := hws
  exact ⟨rest, by rw [List.append_assoc, hrest]⟩

theorem writeSetup_reset {s : State} (hv : s.cfg.Valid) (hw : s.ctrl.dacWrite = false) :
    SetupReset s (issue writeSetupTxns s) := by
  rw [issue_writeSetup]
  exact (threeClears hv (.inl ⟨rfl, rfl, rfl⟩) hw).resets hw

theorem SetupReset.quiet {s v : State} (h : SetupReset s v) (hw : s.ctrl.dacWrite = false) :
    anyEnable v.ctrl = false := by rw [h.ctrl]; exact anyEnable_clearedFlags hw

theorem SetupReset.drained {s v : State} (h : SetupReset s v) : drained v = true := by
  simp [Machine.drained, Fifo.all, isEmpty, h.fifo, h.ptr, h.adcFill]

theorem SetupReset.gap {s v : State} (h : SetupReset s v) (hw : s.ctrl.dacWrite = false) :
    SetupReset s (runHw v) := by
  obtain ⟨d, he⟩ := (runHw_quiet (h.quiet hw)).empty (by rw [h.fifo])
  rw [he]
  exact ⟨h.ctrl, h.cfg, h.fifo, h.ptr, h.adcFill, h.adcOverrun, h.ddrDac, h.ddrAdc, h.played⟩

/-- The last transaction of `repeat_setup` writes the flags of a state that is otherwise the one
`write_setup` leaves. -/
theorem repeatSetup_reset {s : State} (hv : s.cfg.Valid) (hw : s.ctrl.dacWrite = false) :
    ∃ v, SetupReset s v ∧ issue repeatSetupTxns s = v.setCtrl (streamFlags v.ctrl) := by
  have h := ((threeClears hv (.inr ⟨rfl, rfl, rfl⟩) hw).resets hw).gap hw
  exact ⟨_, h, (issue_repeatSetup s).trans
    (atomicWrite_stream_quiet (by rw [h.cfg]; exact hv) (h.quiet hw))⟩

theorem phase_writing {s : State} (hw : s.ctrl.dacWrite = true) (hr : s.ctrl.dacRead = false) :
    phase s = .writing := by simp [phase, hw, hr]

end Sys2Proof.Machine

namespace Sys2Proof.Controller
open Machine

/-- Settles O32: the flags from the control side of the expansion, the data path from the resets. -/
theorem writeSetup : Obligations.WriteSetup := by
  intro s hv
  obtain ⟨hc, hf⟩ := Prod.ext_iff.1 (writeSetup_control hv)
  obtain ⟨hg, hp⟩ := issue_cfg_program writeSetupTxns s
  refine ⟨_, rfl, rfl, hc, hf, hg, hp, fun hw => phase_writing ?_ ?_, fun hw => ?_⟩
  · exact (congrArg PerFlag.dacWrite hc).trans hw
  · exact congrArg PerFlag.dacRead hc
  · have h := writeSetup_reset hv hw
    refine ⟨h.fifo, h.ptr, h.adcFill, h.adcOverrun, phase_of_drained (h.quiet hw) h.drained,
      fun x => ?_, h.ddrDac, h.ddrAdc, h.played⟩
    by_contra he
    obtain rfl := hwEnabled_quiet (h.quiet hw) (Bool.not_eq_false _ ▸ he)
    simp [hwEnabled, finish, h.fifo] at he

/-- Settles O33: as O32, the three flags asserted at one instant on an empty data path. -/
theorem repeatSetup : Obligations.RepeatSetup := by
  intro s hv
  obtain ⟨hc, hf⟩ := Prod.ext_iff.1 (repeatSetup_control hv)
  obtain ⟨hg, hp⟩ := issue_cfg_program repeatSetupTxns s
  refine ⟨_, rfl, rfl, hc, hg, hp, fun hw => ?_, fun hw => ?_⟩
  · exact hf.trans (by rw [hw, Bool.or_true])
  · obtain ⟨v, h, he⟩ := repeatSetup_reset hv hw
    refine ⟨phase_streaming_iff.2 ⟨?_, ?_, ?_, ?_⟩, hf.trans (by rw [hw, Bool.or_false]), ?_⟩
    · exact (congrArg PerFlag.dacWrite hc).trans hw
    · exact congrArg PerFlag.dacRead hc
    · exact congrArg PerFlag.adcWrite hc
    · exact congrArg PerFlag.adcTransfer hc
    · rw [he]
      exact ⟨h.fifo, h.ptr, h.adcFill, h.adcOverrun, h.ddrDac, h.ddrAdc, h.played⟩

end Sys2Proof.Controller
end

section
/-! `write_buf` and `write_channels` (41_controller_ops.md R163 to R165): their checks, where they end, and
what a complete transfer leaves in the DAC region. -/

namespace Sys2Proof.Machine

/-! ### The checks (R163, R164) -/

theorem writeBuf_of_wrong_length {s : State} {frame : List Byte} (start : Bool)
    (h : frame.length ≠ s.cfg.sampleSize * 8 * 2) :
    writeBuf frame start s = .next (raiseError .configurationError s) := if_neg fun hc => h hc.1

/-- A frame of the right length is whole words, and the block size of the configuration is a checked
one, so the transfer runs from every state of the spec. -/
theorem writeBuf_of_length {s : State} (hv : s.cfg.Valid) (ht : s.Typed) {frame : List Byte}
    (start : Bool) (h : frame.length = s.cfg.sampleSize * 8 * 2) :
    writeBuf frame start s = .next (writeBufBody frame start s) := by
  have hok : transferOk frame.length s.cfg.writeBlockSize = true :=
    transferOk_iff.2 ⟨by omega, mem_blockSizes.1 hv.block_ok⟩
  rw [writeBuf, if_pos ⟨h, hok⟩, guardDacWr, if_pos (by simp [ptrOk_of_typed ht])]

theorem buffersOk_iff {c : Cfg} {buffers : List (List Nat)} : buffersOk c buffers = true ↔
    buffers.length = 8 ∧ ∀ b ∈ buffers, b.length = c.sampleSize ∧ ∀ v ∈ b, v ≤ 65535 := by
  simp [buffersOk]

theorem stripe_length {c : Cfg} {buffers : List (List Nat)} (hl : buffers.length = 8)
    (hb : ∀ b ∈ buffers, b.length = c.sampleSize) :
    (stripe c buffers).length = c.sampleSize * 8 * 2 := by
  rw [stripe, interleave_length, channelLength_of (by omega) hl hb]
  omega

theorem exec_writeChannels_of_ok {s : State} {buffers : List (List Nat)} (start : Bool)
    (h : buffersOk s.cfg buffers = true) :
    exec (.writeChannels buffers start) s = exec (.writeBuf (stripe s.cfg buffers) start) s := if_pos h

/-! ### What a complete transfer leaves (R164, 43_striping.md R202) -/

/-- Every building block of a call keeps a state of the spec one. -/
theorem State.TypedValid.keeps : Keeps State.TypedValid where
  result r _ h := ⟨h.1.setResult r, h.2⟩
  draw _ h := takeDraw_typedValid h
  pulse x _ h := runTxn_typedValid (.pulse x) h
  step x _ h := h.hwStep x
  write data _ h := pipeWrite_typedValid data h
  read n _ h := pipeRead_typedValid n h
  form mask value s h := ⟨h.1.writeCtrl h.2 mask value, by rw [writeCtrl_cfg]; exact h.2⟩

theorem runSteps_typedValid (hs : List HwStep) {s : State} (h : s.TypedValid) :
    (runSteps hs s).TypedValid :=
  runSteps_keeps_prop (P := State.TypedValid) (fun x _ _ hu => hu.hwStep x) h

theorem bufferReady_typedValid {s : State} (h : s.TypedValid) : (bufferReady s).TypedValid :=
  (issue_typedValid writeBufPrelude h).runHw

/-- The last words of a run of stored words, at most one region of them, all stand where they were
stored. -/
theorem WordsStored.last {size p : Nat} {pre ws : List Word} {m m' : List Host.Cell}
    (h : WordsStored size p (pre ++ ws) m m') (hl : ws.length ≤ size) {k : Nat} (hk : k < ws.length) :
    Memory.readWord m' ((p + pre.length + k) % size) = some ws[k] := by
  have hi : pre.length + k < (pre ++ ws).length := by rw [List.length_append]; omega
  have hw := h.1 (pre.length + k) hi fun j hij hj => ?_
  · rw [Nat.add_assoc, hw, List.getElem_append_right (Nat.le_add_right _ _)]
    simp
  · rw [List.length_append] at hj
    have ne := mod_ne_of_lt (n := size) (p := p + (pre.length + k)) (i := 0)
      (j := j - (pre.length + k)) (by omega) (by omega)
    rw [Nat.add_zero, Nat.add_assoc, Nat.add_sub_cancel' hij.le] at ne
    exact ne.symm

theorem wordsOf_getElem {d : List Byte} {k : Nat} (h : k < (wordsOf d).length) :
    (wordsOf d)[k] = blockWord d k := by simp [wordsOf]

/-- The frame stands in the DAC region from word address `p` on, where the write pointer is, and nothing
is on its way there. -/
structure Loaded (c : Cfg) (frame : List Byte) (p : Nat) (t : State) : Prop where
  words : ∀ k, k < c.sampleSize →
    Memory.readWord t.ddrDac ((p + k) % c.sampleSize) = some (blockWord frame k)
  dacWr : t.ptr.dacWr = p
  dacIn : t.fifo.dacIn = []

theorem Loaded.kept {c : Cfg} {frame : List Byte} {p : Nat} {t u : State} (h : Loaded c frame p t)
    (k : WriteKept t u) : Loaded c frame p u :=
  ⟨by rw [k.ddrDac]; exact h.words, k.dacWr.trans h.dacWr, k.dacIn.trans h.dacIn⟩

theorem Loaded.gap {c : Cfg} {frame : List Byte} {p : Nat} {t : State} (h : Loaded c frame p t) :
    Loaded c frame p (runHw t) := by
  obtain ⟨hf, hp, hm⟩ := runHw_emptyDacIn h.dacIn
  exact h.kept ⟨hf.trans h.dacIn.symm, hp, hm⟩

theorem Loaded.form {c : Cfg} {frame : List Byte} {p : Nat} {t : State} (h : Loaded c frame p t)
    (mask value : Wire) : Loaded c frame p (writeCtrl mask value t) := h.kept (writeCtrl_write _ _ t)

/-- Where word 0 of a frame goes: behind the words FIFO DacIn holds when the transfer begins. -/
def loadAddress (s : State) : Nat :=
  ((bufferReady s).ptr.dacWr + (bufferReady s).fifo.dacIn.length) % s.cfg.sampleSize

/-- Entered with DacWrite clear, it is the write pointer on entry. -/
theorem loadAddress_of_dacWrite_clear {s : State} (hv : s.cfg.Valid) (ht : s.Typed)
    (hw : s.ctrl.dacWrite = false) : loadAddress s = s.ptr.dacWr := by
  obtain ⟨hf, hp, -⟩ := writeBufPrelude_write hv hw
  rw [loadAddress, bufferReady, hf, hp]
  exact Nat.mod_eq_of_lt (ht.ptr_lt .dacWr)

/-- Under A_DRAIN a complete bulk write of one frame, with DacWrite asserted, loads it. -/
theorem completeWrite_loaded {s : State} {frame : List Byte} (ht : s.Typed)
    (hw : s.ctrl.dacWrite = true) (ha : s.cfg.aDrain = true)
    (hl : frame.length = s.cfg.sampleSize * 8 * 2) :
    Loaded s.cfg frame ((s.ptr.dacWr + s.fifo.dacIn.length) % s.cfg.sampleSize)
      (completeWrite (wordsOf frame) s) := by
  have hn : (wordsOf frame).length = s.cfg.sampleSize := by rw [wordsOf_length]; omega
  obtain ⟨m, -, hm, hf, hp, hs⟩ := (completeWrite_spec (ws := wordsOf frame) (ht.ptr_lt .dacWr)).2 hw
  obtain rfl := hm ha
  rw [List.take_length] at hs
  refine ⟨fun k hk => ?_, ?_, by rw [hf, List.drop_length]⟩
  · rw [Nat.mod_add_mod, hs.last hn.le (hn.symm ▸ hk), wordsOf_getElem]
  · rw [hp, List.length_append, hn, ← Nat.add_assoc, Nat.add_mod_right]

/-- A complete `write_buf` leaves the frame loaded: nothing after the transfer acts on the write path. -/
theorem bufferStarted_loaded {s : State} {frame : List Byte} (start : Bool) (hs : s.TypedValid)
    (ha : s.cfg.aDrain = true) (hl : frame.length = s.cfg.sampleSize * 8 * 2)
    (hc : (pipeWrite frame (bufferReady s)).1 = frame.length) :
    Loaded s.cfg frame (loadAddress s) (bufferStarted frame start s) := by
  have ho := bufferReady_open hs.2
  have hr := bufferReady_typedValid hs
  have hd : frame.length ≠ 0 := by have := hs.2.sampleSize_pos; omega
  have written : Loaded s.cfg frame (loadAddress s) (pipeWrite frame (bufferReady s)).2 := by
    have h := completeWrite_loaded (s := takeDraw (bufferReady s)) (frame := frame) hr.1.takeDraw
      (congrArg PerFlag.dacWrite ho.ctrl) (ho.cfg ▸ ha) (ho.cfg ▸ hl)
    rw [pipeWrite_of_complete hr.2 hd hc, ← ho.cfg, loadAddress, ← ho.cfg]
    exact h
  have closed : Loaded s.cfg frame (loadAddress s) (bufferClosed frame s) := written.gap.form _ _
  cases start
  case false => exact closed
  case true => exact (closed.gap.form _ _).gap.form _ _

/-- A call of `write_buf` that returns without an error had the complete outcome. -/
theorem complete_of_done {frame : List Byte} {start : Bool} {s : State}
    (h : (writeBufBody frame start s).result = .done) :
    (pipeWrite frame (bufferReady s)).1 = frame.length := by
  by_contra hn
  rw [writeBufBody_of_short hn] at h
  cases h

/-! ### The other paths of a drained state (R164) -/

/-- The playback and capture side of `t` is that of `s`, with no word in FIFO DacOut and the three flags of
those paths clear. -/
structure OthersIdle (s t : State) : Prop where
  cfg : t.cfg = s.cfg
  dacRead : t.ctrl.dacRead = false
  adcWrite : t.ctrl.adcWrite = false
  adcTransfer : t.ctrl.adcTransfer = false
  empty : t.fifo.dacOut = []
  dacOut : t.dacOut = s.dacOut
  dacRd : t.ptr.dacRd = s.ptr.dacRd
  adcIn : t.fifo.adcIn = s.fifo.adcIn
  adcWr : t.ptr.adcWr = s.ptr.adcWr
  ddrAdc : t.ddrAdc = s.ddrAdc
  adcOverrun : t.adcOverrun = s.adcOverrun
  adcOut : t.fifo.adcOut = s.fifo.adcOut
  adcRd : t.ptr.adcRd = s.ptr.adcRd
  adcFill : t.adcFill = s.adcFill

/-- What leaves the other paths' stopped sides alone and only adds to what was played plays nothing from
an empty FIFO. -/
theorem OthersIdle.others {s t u : State} (h : OthersIdle s t) (k : OthersStopped t u)
    (p : Played t u) (hcfg : u.cfg = t.cfg) : OthersIdle s u := by
  obtain ⟨hrd, hplay⟩ := k.play h.dacRead
  obtain ⟨hin, hwr, hddr, hover⟩ := k.capture h.adcWrite
  obtain ⟨hout, hard, hfill⟩ := k.transfer h.adcTransfer
  obtain ⟨ws, hws⟩ := p
  rw [hws, h.empty, List.append_assoc] at hplay
  obtain ⟨rfl, hempty⟩ := List.append_eq_nil_iff.1 (List.append_cancel_left hplay)
  exact
    { cfg := hcfg.trans h.cfg
      dacRead := by rw [k.ctrl]; exact h.dacRead
      adcWrite := by rw [k.ctrl]; exact h.adcWrite
      adcTransfer := by rw [k.ctrl]; exact h.adcTransfer
      empty := hempty
      dacOut := by rw [hws, List.append_nil]; exact h.dacOut
      dacRd := hrd.trans h.dacRd
      adcIn := hin.trans h.adcIn
      adcWr := hwr.trans h.adcWr
      ddrAdc := hddr.trans h.ddrAdc
      adcOverrun := hover.trans h.adcOverrun
      adcOut := hout.trans h.adcOut
      adcRd := hard.trans h.adcRd
      adcFill := (hfill h.adcWrite).trans h.adcFill }

theorem OthersIdle.gap {s t : State} (h : OthersIdle s t) : OthersIdle s (runHw t) :=
  h.others (runHw_stopped t).others (runHw_played t) (runHw_keeps t).cfg

theorem OthersIdle.pipeWrite {s t : State} (h : OthersIdle s t) (data : List Byte) :
    OthersIdle s (pipeWrite data t).2 :=
  h.others (pipeWrite_others data t) (pipeWrite_played data t) (pipeWrite_keeps data t).cfg

theorem OthersIdle.pulse_rstDacIn {s t : State} (h : OthersIdle s t) :
    OthersIdle s (pulse .rstDacIn t) := by
  refine h.others ?_ (pulse_played _ t) (pulse_keeps _ t).cfg
  simp only [pulse]
  split <;> exact .of_write rfl rfl rfl rfl rfl rfl rfl rfl rfl rfl rfl

theorem OthersIdle.clear {s t : State} (h : OthersIdle s t) (hv : s.cfg.Valid) {f : Flag}
    (hf : f = .dacWrite ∨ f = .dacRead) : OthersIdle s (clearBit f t) := by
  rw [clearBit_exclusive (by rw [h.cfg]; exact hv) hf]
  obtain rfl | rfl := hf
  · exact { h with }
  · exact { h with dacRead := rfl }

theorem OthersIdle.openWrite {s t : State} (h : OthersIdle s t) (hv : s.cfg.Valid) :
    OthersIdle s (setBit .dacWrite t) := by
  rw [setBit_dacWrite (by rw [h.cfg]; exact hv) h.dacRead]
  exact { h with }

/-- `write_buf` moves nothing of idle playback and capture paths until DacWrite is cleared. -/
theorem OthersIdle.bufferClosed {s : State} (h : OthersIdle s s) (hv : s.cfg.Valid)
    (frame : List Byte) : OthersIdle s (bufferClosed frame s) :=
  have ready : OthersIdle s (bufferReady s) :=
    ((h.clear hv (.inr rfl)).gap.pulse_rstDacIn.gap.openWrite hv).gap
  (ready.pipeWrite frame).gap.clear hv (.inl rfl)

theorem drained_iff {s : State} : drained s = true ↔
    s.fifo = ⟨[], [], [], []⟩ ∧ s.ptr = ⟨0, 0, 0, 0⟩ ∧ s.adcFill = 0 := by
  obtain ⟨_, ⟨_, _, _, _⟩, _, _, _, _, _, _, _, _, _, _, _⟩ := s
  simp [drained, Fifo.all, isEmpty, and_assoc]

theorem othersIdle_of_draining {s : State} (h : phase s = .draining) : OthersIdle s s := by
  obtain ⟨he, hd⟩ := phase_draining_iff.1 h
  obtain ⟨hf, -, -⟩ := drained_iff.1 hd
  obtain ⟨-, hr, ha, ht⟩ := anyEnable_eq_false_iff.1 he
  exact ⟨rfl, hr, ha, ht, by rw [hf], rfl, rfl, rfl, rfl, rfl, rfl, rfl, rfl, rfl⟩

/-- Where the flags, the mark, FIFO DacIn and the write pointer are as before too, only the DAC region,
the result and the draws can differ. -/
theorem OthersIdle.eq_of_write {s t : State} (h : OthersIdle s t) (hq : s.fifo.dacOut = [])
    (hctrl : t.ctrl = s.ctrl) (hin : t.fifo.dacIn = s.fifo.dacIn) (hwr : t.ptr.dacWr = s.ptr.dacWr)
    (hfault : t.fault = s.fault) (hprog : t.program = s.program) :
    t = { s with ddrDac := t.ddrDac, result := t.result, draws := t.draws } := by
  obtain ⟨hcfg, -, -, -, hempty, hout, hrd, hain, hawr, hddr, hover, haout, hard, hfill⟩ := h
  obtain ⟨_, ⟨_, _, _, _⟩, ⟨_, _, _, _⟩, _, _, _, _, _, _, _, _, _, _⟩ := s
  obtain ⟨_, ⟨_, _, _, _⟩, ⟨_, _, _, _⟩, _, _, _, _, _, _, _, _, _, _⟩ := t
  simp_all

theorem phase_other {s : State} (hw : s.ctrl.dacWrite = false) (hr : s.ctrl.dacRead = true)
    (ha : s.ctrl.adcWrite = false) : phase s = .other := by simp [phase, anyEnable, hw, hr, ha]

end Sys2Proof.Machine

namespace Sys2Proof.Controller
open Machine

/-- Settles O34: the checks of R163 and R164, and what `write_channels` is after them. -/
theorem writeChecks : Obligations.WriteChecks := by
  refine ⟨fun s frame start h => writeBuf_of_wrong_length start h,
    fun s buffers start h => if_neg fun hc => h (buffersOk_iff.1 hc),
    fun s buffers start hl hb => ⟨?_, stripe_length hl fun b h => (hb b h).1⟩⟩
  exact exec_writeChannels_of_ok start (buffersOk_iff.2 ⟨hl, hb⟩)

/-- A call the statement of O35 speaks of is `write_buf` of a frame of the right length. -/
theorem exec_bufferWrite {s : State} (hv : s.cfg.Valid) (ht : s.Typed) {i : Instr}
    {frame : List Byte} {buffers : List (List Nat)} {start : Bool}
    (hi : i = .writeBuf frame start ∧ frame.length = s.cfg.sampleSize * 8 * 2 ∨
      i = .writeChannels buffers start ∧ buffers.length = 8 ∧
        ∀ b ∈ buffers, b.length = s.cfg.sampleSize ∧ ∀ v ∈ b, v ≤ 65535) :
    ∃ f : List Byte, f.length = s.cfg.sampleSize * 8 * 2 ∧
      exec i s = .next (writeBufBody f start s) := by
  obtain ⟨rfl, hl⟩ | ⟨rfl, hl, hb⟩ := hi
  · exact ⟨frame, hl, writeBuf_of_length hv ht start hl⟩
  · obtain ⟨he, hf⟩ := writeChecks.2.2 s buffers start hl hb
    exact ⟨_, hf, he.trans (writeBuf_of_length hv ht start hf)⟩

/-- Settles O35, from the two ends of `write_buf`. -/
theorem writeBufEnds : Obligations.WriteBufEnds := by
  intro s i frame buffers start hv ht hi
  obtain ⟨f, hl, he⟩ := exec_bufferWrite hv ht hi
  refine ⟨_, he, (State.TypedValid.keeps.exec he ⟨ht, hv⟩).1, ?_⟩
  obtain ⟨hr, h⟩ | ⟨hne, hr, h⟩ := writeBufBody_cases f start hv
  · exact ⟨h.cfg, h.program, h.fault, .inl ⟨hr, h.ctrl⟩, h.capture⟩
  · have hcfg := (bufferReady_open hv).cfg
    obtain ⟨ho, -⟩ := pipeWrite_outcome (s := bufferReady s) (by rw [hcfg]; exact hv) (data := f)
      (by have := hv.sampleSize_pos; omega)
    rw [hcfg, hl] at ho
    rw [hl] at hne
    exact ⟨h.cfg, h.program, h.fault, .inr ⟨_, hr, by simpa using hne, ho, h.ctrl⟩, h.capture⟩

/-- Settles O36: the frame is loaded behind what stood in FIFO DacIn. -/
theorem writeBufLoadsTheFrame : Obligations.WriteBufLoadsTheFrame := by
  intro s frame start hv ht ha hl
  refine ⟨_, loadAddress s, writeBuf_of_length hv ht start hl, Nat.mod_lt _ hv.sampleSize_pos,
    loadAddress_of_dacWrite_clear hv ht, fun hd => ?_⟩
  have hc := complete_of_done hd
  have h := bufferStarted_loaded start ⟨ht, hv⟩ ha hl hc
  rw [writeBufBody_of_complete hc]
  exact ⟨h.words, h.dacWr, h.dacIn⟩

/-- Settles O37: the flags come back, the write pointer goes once around, the other paths stand still. -/
theorem writeBufFromDraining : Obligations.WriteBufFromDraining := by
  intro s frame hv ht ha hp hl
  obtain ⟨hq, hd⟩ := phase_draining_iff.1 hp
  obtain ⟨hf, -, -⟩ := drained_iff.1 hd
  obtain ⟨hw, hr, haw, -⟩ := anyEnable_eq_false_iff.1 hq
  refine ⟨⟨_, writeBuf_of_length hv ht false hl, fun hdone => ?_⟩,
    ⟨_, writeBuf_of_length hv ht true hl, fun hdone => ?_⟩⟩
  · have hc := complete_of_done hdone
    have load := bufferStarted_loaded false ⟨ht, hv⟩ ha hl hc
    have reach := bufferStarted_reached frame false hv
    have hctrl : (bufferStarted frame false s).ctrl = s.ctrl := reach.ctrl.trans <|
      PerFlag.ext_get fun f => by cases f <;> simp [hw, hr]
    have same := ((othersIdle_of_draining hp).bufferClosed hv frame).eq_of_write (by rw [hf]) hctrl
      (load.dacIn.trans (by rw [hf]))
      (load.dacWr.trans (loadAddress_of_dacWrite_clear hv ht hw)) reach.fault reach.program
    have same' : writeBufBody frame false s = { s with
        ddrDac := (bufferClosed frame s).ddrDac
        result := .done
        draws := (bufferClosed frame s).draws } := by
      rw [writeBufBody_of_complete hc]
      exact congrArg (finish .done) same
    exact ⟨(congrArg phase same').trans hp, _, _, same'⟩
  · obtain ⟨-, h⟩ | ⟨-, he, -⟩ := writeBufBody_cases frame true hv
    · exact phase_other (congrArg PerFlag.dacWrite h.ctrl) (congrArg PerFlag.dacRead h.ctrl)
        ((congrArg PerFlag.adcWrite h.ctrl).trans haw)
    · rw [he] at hdone; cases hdone

/-- The sequence of S1 from where `write_setup` has left the flags and the write pointer. -/
theorem writeBuf_repeatSetup {s : State} {frame : List Byte} (start : Bool) (hs : List HwStep)
    (hv : s.cfg.Valid) (ht : s.Typed) (hw : s.ctrl.dacWrite = false) (hp : s.ptr.dacWr = 0)
    (hl : frame.length = s.cfg.sampleSize * 8 * 2) :
    ∃ b t : State, exec (.writeBuf frame start) s = .next b ∧
      exec .repeatSetup (runSteps hs b) = .next t ∧
      t.ctrl = { s.ctrl with
        dacWrite := false, dacRead := true, adcWrite := true, adcTransfer := true } ∧
      t.fault = s.fault ∧ t.ptr.dacRd = 0 ∧ t.fifo = ⟨[], [], [], []⟩ ∧
      (s.cfg.aDrain = true → b.result = .done → ∀ k, k < s.cfg.sampleSize →
        Memory.readWord t.ddrDac k = some (blockWord frame k)) := by
  have hb := writeBuf_of_length hv ht start hl
  obtain ⟨r, x, reach⟩ := writeBufBody_reached frame start hv
  set b := writeBufBody frame start s
  have bw : b.ctrl.dacWrite = false := congrArg PerFlag.dacWrite reach.ctrl
  have gap := runSteps_keeps hs b
  obtain ⟨t, he, -, tctrl, -, -, -, tdata⟩ := repeatSetup (runSteps hs b)
    (by rw [gap.cfg, reach.cfg]; exact hv)
  obtain ⟨-, tfault, tfifo, tptr, -, -, tdac, -⟩ := tdata (by rw [gap.ctrl]; exact bw)
  refine ⟨b, t, hb, he, ?_, ?_, congrArg PerPtr.dacRd tptr, tfifo, fun ha hdone k hk => ?_⟩
  · rw [tctrl, gap.ctrl, reach.ctrl]
  · rw [tfault, gap.fault, reach.fault]
  · obtain ⟨b', p, hb', -, hp0, load⟩ := writeBufLoadsTheFrame s frame start hv ht ha hl
    obtain rfl := Host.Outcome.next.inj (hb.symm.trans hb')
    have word := (load hdone).1 k hk
    rw [hp0 hw, hp, Nat.zero_add, Nat.mod_eq_of_lt hk] at word
    rw [tdac, ((runSteps_stopped hs b).write bw).2.2, word]

/-- Settles O38: `write_setup` puts the write pointer at 0, a complete `write_buf` loads the frame from
there, and with DacWrite clear nothing else writes the DAC region. -/
theorem sequenceProperty : Obligations.SequenceProperty := by
  intro s frame start h1 h2 hv ht hw hl
  obtain ⟨a, ha, -, actrl, afault, acfg, -, -, adata⟩ := writeSetup s hv
  obtain ⟨-, aptr, -⟩ := adata hw
  have aw : a.ctrl.dacWrite = false := (congrArg PerFlag.dacWrite actrl).trans hw
  obtain ⟨ht1, hv1⟩ := runSteps_typedValid h1 (State.TypedValid.keeps.exec ha ⟨ht, hv⟩)
  have gap := runSteps_keeps h1 a
  have cfg1 : (runSteps h1 a).cfg = s.cfg := gap.cfg.trans acfg
  obtain ⟨b, t, hb, hr, tctrl, tfault, trd, tfifo, words⟩ := writeBuf_repeatSetup start h2 hv1 ht1
    ((congrArg PerFlag.dacWrite gap.ctrl).trans aw)
    (((runSteps_stopped h1 a).write aw).2.1.trans (congrArg PerPtr.dacWr aptr))
    (by rw [cfg1]; exact hl)
  rw [cfg1] at words
  refine ⟨a, b, t, ha, hb, hr, ?_, ?_, trd, tfifo, words⟩
  · rw [tctrl, gap.ctrl, actrl]
  · rw [tfault, gap.fault, afault]

end Sys2Proof.Controller
end

section
/-! Turns of the data path (42_datapath.md R180 to R185): a turn runs its effect where it is enabled and
its pointer stands inside its region, changes nothing where it is not enabled, and stops otherwise. -/

namespace Sys2Proof.Machine

theorem exec_turn_of_disabled {h : HwStep} {s : State} (he : hwEnabled s h = false) :
    exec (hwInstr h) s = .next s := by
  have hstep : hwStep h s = s := by simp [hwStep, he]
  rw [exec_hwInstr, hwTurn, hstep]
  split <;> simp [he]

theorem exec_turn_of_enabled {h : HwStep} {s : State} (he : hwEnabled s h = true)
    (ha : hwAddressOk s h = true) : exec (hwInstr h) s = .next (hwEffect h s) := by
  have hstep : hwStep h s = hwEffect h s := by simp [hwStep, he, ha]
  rw [exec_hwInstr, hwTurn, hstep]
  split
  next p hp =>
    have hok : ptrOk s p = true := by simpa [hwAddressOk, hp] using ha
    simp [hok]
  next => rfl

theorem exec_turn_of_outside {h : HwStep} {p : Ptr} {s : State} (hp : hwPtr h = some p)
    (he : hwEnabled s h = true) (ho : ptrOk s p = false) :
    exec (hwInstr h) s = .fault (.ddrAddress (ptrRegion p) (s.ptr.get p)) := by
  simp [exec_hwInstr, hwTurn, hp, he, ho]

/-! ### The effects, each on the state its step is enabled in -/

theorem dacFillEffect_cons {s : State} {w : Word} {ws : List Word} (hf : s.fifo.dacIn = w :: ws) :
    dacFillEffect s = storeDac w (setFifo .dacIn ws s) := by rw [dacFillEffect, hf]

theorem adcStoreEffect_cons {s : State} {w : Word} {ws : List Word} (hf : s.fifo.adcIn = w :: ws) :
    adcStoreEffect s = (storeAdc w (setFifo .adcIn ws s)).setAdcFill (s.adcFill + 1) := by
  rw [adcStoreEffect, hf]

theorem dacSinkEffect_cons {s : State} {w : Word} {ws : List Word} (hf : s.fifo.dacOut = w :: ws) :
    dacSinkEffect s = (setFifo .dacOut ws s).setDacOut (s.dacOut ++ [w]) := by
  rw [dacSinkEffect, hf]

theorem adcSourceEffect_of_room {s : State} (h : hasRoom s .adcIn = true) :
    adcSourceEffect s = push .adcIn (freeWord s.draws 0) (takeDraw s) := if_pos h

theorem adcSourceEffect_of_full {s : State} (h : ¬ hasRoom s .adcIn = true) :
    adcSourceEffect s = (takeDraw s).setAdcOverrun true := if_neg h

theorem hasRoom_iff {s : State} {q : Fifo} :
    hasRoom s q = true ↔ (s.fifo.get q).length < s.cfg.fifoDepth.get q := decide_eq_true_iff

/-- A word read from a region, or a free one where nothing has written it, is the word that stands
there. -/
theorem getD_readWord {m : List Host.Cell} {k : Nat} {v : Word} (h : Memory.readWord m k = some v)
    (free : Word) : (Memory.readWord m k).getD free = v := by rw [h, Option.getD_some]

end Sys2Proof.Machine

namespace Sys2Proof.DataPath
open Machine

/-- Settles O41: the effect of DAC_FILL is one word stored. -/
theorem dacFill : Obligations.DacFill := by
  intro s w ws hw hf hp
  have he : hwEnabled s .dacFill = true := by simp [hwEnabled, hw, hf]
  refine ⟨Memory.writeWord s.ddrDac s.ptr.dacWr w, ?_, Memory.readWord_writeWord_same _ _ _,
    fun a ha => Memory.readByte_writeWord_ne _ _ ha⟩
  calc exec .dacFill s = .next (dacFillEffect s) := exec_turn_of_enabled he (decide_eq_true hp)
    _ = _ := by rw [dacFillEffect_cons hf]; rfl

/-- Settles O42: the effect of DAC_PLAY pushes what it reads. -/
theorem dacPlay : Obligations.DacPlay := by
  intro s hr hroom hp
  have he : hwEnabled s .dacPlay = true := Bool.and_eq_true_iff.2 ⟨hr, hasRoom_iff.2 hroom⟩
  exact ⟨_, s.draws + 1, exec_turn_of_enabled he (decide_eq_true hp),
    fun v hv => getD_readWord hv (freeWord s.draws 0)⟩

/-- Settles O44: the fullness of FIFO AdcIn decides between the two cases. -/
theorem adcSource : Obligations.AdcSource := by
  intro s hw
  have run : exec .adcSource s = .next (adcSourceEffect s) :=
    exec_turn_of_enabled (h := .adcSource) hw rfl
  refine ⟨fun hroom => ⟨freeWord s.draws 0, s.draws + 1, ?_⟩, fun hfull => ⟨s.draws + 1, ?_⟩⟩
  · rw [run, adcSourceEffect_of_room (hasRoom_iff.2 hroom)]; rfl
  · rw [run, adcSourceEffect_of_full (mt hasRoom_iff.1 hfull)]; rfl

/-- Settles O45: the effect of ADC_STORE is one word stored and counted. -/
theorem adcStore : Obligations.AdcStore := by
  intro s w ws hw hf hfill hp
  have he : hwEnabled s .adcStore = true := by simp [hwEnabled, hw, hf, hfill]
  refine ⟨Memory.writeWord s.ddrAdc s.ptr.adcWr w, ?_, Memory.readWord_writeWord_same _ _ _,
    fun a ha => Memory.readByte_writeWord_ne _ _ ha⟩
  calc exec .adcStore s = .next (adcStoreEffect s) := exec_turn_of_enabled he (decide_eq_true hp)
    _ = _ := by rw [adcStoreEffect_cons hf]; rfl

/-- Settles O46: the effect of ADC_FETCH pushes what it reads. -/
theorem adcFetch : Obligations.AdcFetch := by
  intro s ht hfill hroom hp
  have he : hwEnabled s .adcFetch = true := by
    simp [hwEnabled, ht, hfill, hasRoom_iff (q := .adcOut).2 hroom]
  exact ⟨_, s.draws + 1, exec_turn_of_enabled he (decide_eq_true hp),
    fun v hv => getD_readWord hv (freeWord s.draws 0)⟩

/-- Settles O43: DAC_SINK is enabled by FIFO DacOut alone and reads no region. -/
theorem dacSink : Obligations.DacSink := by
  intro s w ws hf
  have he : hwEnabled s .dacSink = true := by simp [hwEnabled, hf]
  calc exec .dacSink s = .next (dacSinkEffect s) := exec_turn_of_enabled he rfl
    _ = _ := by rw [dacSinkEffect_cons hf]; rfl

/-- Settles O48, from the two ways a turn does not run its effect. -/
theorem turnsThatDoNotRun : Obligations.TurnsThatDoNotRun :=
  ⟨fun _ _ he => exec_turn_of_disabled he,
    fun _ _ _ hp he ho => exec_turn_of_outside hp he (decide_eq_false ho)⟩

end Sys2Proof.DataPath
end

section
/-! Stopped paths: the plain resets (42_datapath.md R186, R187), and the turns with no enable asserted
(R188). -/

namespace Sys2Proof.Machine

/-- The calls of a FIFO reset are one pulse (41_controller_ops.md R171). -/
theorem exec_fifoPulse {i : Instr} {q : Fifo} (hi : i ∈ [triggerInstr (rstOf q), .resetFifo (.one q)])
    (s : State) : exec i s = .next (finish .done (pulse (rstOf q) s)) := by
  simp only [List.mem_cons, List.not_mem_nil, or_false] at hi
  obtain rfl | rfl := hi
  · exact exec_triggerInstr _ s
  · rfl

/-- The calls of a pointer reset are one pulse (R172). -/
theorem exec_pointerPulse {i : Instr} (hi : i ∈ [Instr.triggerRstPtr, .resetPointers]) (s : State) :
    exec i s = .next (finish .done (pulse .rstPtr s)) := by
  simp only [List.mem_cons, List.not_mem_nil, or_false] at hi
  obtain rfl | rfl := hi <;> rfl

theorem fifoReset_eq (q : Fifo) (s : State) : fifoReset q s = { s with
    fifo := s.fifo.set q [], adcOverrun := if q = .adcIn then false else s.adcOverrun } := by
  by_cases h : q = .adcIn
  · rw [fifoReset, if_pos h, if_pos h]; rfl
  · rw [fifoReset, if_neg h, if_neg h]; rfl

theorem hwStep_eq_self_or_effect (h : HwStep) (s : State) :
    hwStep h s = s ∨ hwStep h s = hwEffect h s := (ite_eq_or_eq _ _ _).symm

theorem dacSinkEffect_draws (s : State) : (dacSinkEffect s).draws = s.draws := by
  unfold dacSinkEffect; split <;> rfl

/-- With no enable asserted a turn is the step, in any state: DAC_SINK goes through no pointer. -/
theorem exec_turn_quiet {s : State} (hq : anyEnable s.ctrl = false) (h : HwStep) :
    exec (hwInstr h) s = .next (hwStep h s) := by
  cases he : hwEnabled s h
  case false => rw [exec_turn_of_disabled he, hwStep, he]; rfl
  case true => obtain rfl := hwEnabled_quiet hq he; rfl

/-- With no enable asserted no step draws. -/
theorem hwStep_quiet_draws {s : State} (hq : anyEnable s.ctrl = false) (h : HwStep) :
    (hwStep h s).draws = s.draws := by
  cases he : hwEnabled s h
  case false => rw [hwStep, he]; rfl
  case true =>
    obtain rfl := hwEnabled_quiet hq he
    obtain hstep | hstep := hwStep_eq_self_or_effect .dacSink s <;> rw [hstep]
    exact dacSinkEffect_draws s

/-- Where FIFO DacOut holds nothing and nothing was drawn, nothing has changed. -/
theorem Sunk.eq_self {s t : State} (h : Sunk s t) (he : s.fifo.dacOut = [])
    (hd : t.draws = s.draws) : t = s := by
  obtain ⟨d, rfl⟩ := h.empty he
  obtain rfl : d = s.draws := hd
  rfl

/-- With no enable asserted turns play words of FIFO DacOut, and do nothing else (R188). -/
theorem runCalls_quiet {s : State} (hq : anyEnable s.ctrl = false) (hs : List HwStep) :
    ∃ t, runCalls (hs.map hwInstr) s = .next t ∧ Sunk s t ∧ t.draws = s.draws := by
  induction hs generalizing s with
  | nil => exact ⟨s, rfl, .refl s, rfl⟩
  | cons h hs ih =>
    obtain ⟨t, ht, sunk, draws⟩ := ih (s := hwStep h s) (by rw [(hwStep_keeps h s).ctrl]; exact hq)
    refine ⟨t, ?_, (hwStep_quiet hq h).trans sunk, draws.trans (hwStep_quiet_draws hq h)⟩
    rw [List.map_cons, runCalls, exec_turn_quiet hq]
    exact ht

end Sys2Proof.Machine

namespace Sys2Proof.DataPath
open Machine

/-- Settles O22: on a stopped path a pulse is the plain reset. -/
theorem pulsesOnStoppedPaths : Obligations.PulsesOnStoppedPaths := by
  refine ⟨fun s q i hi hg => ?_, fun s i hi hq => ?_⟩
  · rw [exec_fifoPulse hi, pulse_stopped_fifo hg, fifoReset_eq]; rfl
  · rw [exec_pointerPulse hi, pulse_quiet hq]; rfl

/-- Settles O47: only DAC_SINK is enabled, and it has nothing to play in a drained state. -/
theorem quiescence : Obligations.Quiescence := by
  refine ⟨fun s h hq he => ?_, fun s hs hq => ?_⟩
  · obtain rfl := hwEnabled_quiet hq he
    exact ⟨rfl, by simpa [hwEnabled] using he⟩
  · obtain ⟨t, ht, hsunk, hdraws⟩ := runCalls_quiet hq hs
    have stays : drained s = true → t = s := fun hd => by
      obtain ⟨hf, -, -⟩ := drained_iff.1 hd
      exact hsunk.eq_self (congrArg PerFifo.dacOut hf) hdraws
    obtain ⟨ws, rest, d, hout, rfl⟩ := hsunk
    obtain rfl : d = s.draws := hdraws
    exact ⟨ws, rest, hout, ht, fun hd => ht.trans (congrArg _ (stays hd))⟩

end Sys2Proof.DataPath
end

section
/-! Playback order (42_datapath.md R192): with DacWrite clear only DAC_PLAY lengthens what was played
followed by FIFO DacOut, each time by the word at ptr[DacRd]. -/

namespace Sys2Proof.Machine

/-- No step but DAC_PLAY moves ptr[DacRd] or changes what was played followed by FIFO DacOut. -/
theorem hwStep_playback {h : HwStep} (hne : h ≠ .dacPlay) (s : State) :
    (hwStep h s).ptr.dacRd = s.ptr.dacRd ∧
      (hwStep h s).dacOut ++ (hwStep h s).fifo.dacOut = s.dacOut ++ s.fifo.dacOut := by
  obtain hstep | hstep := hwStep_eq_self_or_effect h s <;> rw [hstep]
  · exact ⟨rfl, rfl⟩
  · cases h
    case dacFill => simp only [hwEffect, dacFillEffect]; split <;> exact ⟨rfl, rfl⟩
    case dacPlay => exact absurd rfl hne
    case adcStore => simp only [hwEffect, adcStoreEffect]; split <;> exact ⟨rfl, rfl⟩
    case adcFetch => exact ⟨rfl, rfl⟩
    case adcSource => simp only [hwEffect, adcSourceEffect]; split <;> exact ⟨rfl, rfl⟩
    case dacSink =>
      simp only [hwEffect, dacSinkEffect]
      split
      next => exact ⟨rfl, rfl⟩
      next w ws hf => exact ⟨rfl, by simp [setFifo, hf]⟩

/-- `t` is reached from `s` by steps of which DAC_PLAY has run `n` times: the region is as it was, and
what it pushed is the sequence of R192 up to there. -/
structure PlayedOf (F : Nat → Word) (s t : State) (n : Nat) : Prop where
  keeps : KeepsControl s t
  ddrDac : t.ddrDac = s.ddrDac
  dacRd : t.ptr.dacRd = n % s.cfg.sampleSize
  played : t.dacOut ++ t.fifo.dacOut
    = s.dacOut ++ (List.range n).map fun i => F (i % s.cfg.sampleSize)

theorem PlayedOf.of_drained (F : Nat → Word) {s : State} (h : drained s = true) :
    PlayedOf F s s 0 := by
  obtain ⟨hf, hp, -⟩ := drained_iff.1 h
  exact ⟨.refl s, rfl, by rw [hp, Nat.zero_mod], by rw [hf]; rfl⟩

/-- DAC_PLAY pushes the next word of the sequence. -/
theorem PlayedOf.dacPlay {F : Nat → Word} {s t : State} {n : Nat} (h : PlayedOf F s t n)
    (hF : Memory.readWord s.ddrDac (n % s.cfg.sampleSize) = some (F (n % s.cfg.sampleSize))) :
    PlayedOf F s (dacPlayEffect t) (n + 1) where
  keeps := h.keeps.trans (hwEffect_keeps .dacPlay t)
  ddrDac := h.ddrDac
  dacRd := by
    show (t.ptr.dacRd + 1) % t.cfg.sampleSize = _
    rw [h.dacRd, h.keeps.cfg, Nat.mod_add_mod]
  played := by
    show t.dacOut ++ (t.fifo.dacOut
      ++ [(Memory.readWord t.ddrDac t.ptr.dacRd).getD (freeWord t.draws 0)]) = _
    rw [h.ddrDac, h.dacRd, getD_readWord hF, ← List.append_assoc, h.played, List.range_succ,
      List.map_append, List.append_assoc]
    rfl

/-- Every step with DacWrite clear leaves the sequence as it is or pushes its next word. -/
theorem PlayedOf.hwStep {F : Nat → Word} {s t : State} {n : Nat} (h : PlayedOf F s t n)
    (hv : s.cfg.Valid) (hw : s.ctrl.dacWrite = false)
    (hF : ∀ k, k < s.cfg.sampleSize → Memory.readWord s.ddrDac k = some (F k)) (k : HwStep) :
    ∃ m, PlayedOf F s (hwStep k t) m := by
  by_cases hk : k = .dacPlay
  · subst hk
    obtain hstep | hstep := hwStep_eq_self_or_effect .dacPlay t <;> rw [hstep]
    · exact ⟨n, h⟩
    · exact ⟨n + 1, h.dacPlay (hF _ (Nat.mod_lt _ hv.sampleSize_pos))⟩
  · obtain ⟨hrd, hplayed⟩ := hwStep_playback hk t
    obtain ⟨-, -, hddr⟩ := (hwStep_stopped k t).write (by rw [h.keeps.ctrl]; exact hw)
    exact ⟨n, h.keeps.trans (hwStep_keeps k t), hddr.trans h.ddrDac, hrd.trans h.dacRd,
      hplayed.trans h.played⟩

end Sys2Proof.Machine

namespace Sys2Proof.DataPath
open Machine

/-- Settles O49: a drained state has played nothing of the sequence, and every step keeps to it. -/
theorem playbackOrder : Obligations.PlaybackOrder := by
  intro s F hs hv ht hd _ hw hF
  obtain ⟨n, h⟩ := runSteps_keeps_prop (P := fun t => ∃ n, PlayedOf F s t n) (hs := hs)
    (fun k _ _ ⟨_, h⟩ => h.hwStep hv hw hF k) ⟨0, .of_drained F hd⟩
  exact ⟨_, n, runCalls_turns ⟨ht, hv⟩ hs, h.played, h.ddrDac⟩

end Sys2Proof.DataPath
end

section
/-! Capture order (42_datapath.md R193, 20_memory.md R75): steps append to the captured words, and a take
hands over the oldest of them. -/

namespace Sys2Proof.Machine

/-- `ws` are the oldest captured words of `s`, gone in `t`, which may have captured more since. -/
def HandedOver (ws : List Word) (s t : State) : Prop :=
  t.Linked ∧ ∃ new : List Word, ws.map some ++ t.captured = s.captured ++ new.map some ∧
    (s.ctrl.adcWrite = false → new = [])

theorem Captured.handedOver {s t : State} (h : Captured s t) : HandedOver [] s t := h

theorem HandedOver.trans {ws vs : List Word} {s t u : State} (hc : t.ctrl = s.ctrl)
    (h : HandedOver ws s t) (k : HandedOver vs t u) : HandedOver (ws ++ vs) s u := by
  obtain ⟨-, n1, e1, z1⟩ := h
  obtain ⟨hl, n2, e2, z2⟩ := k
  refine ⟨hl, n1 ++ n2, ?_, fun e => by rw [z1 e, z2 (by rw [hc]; exact e)]; rfl⟩
  calc (ws ++ vs).map some ++ u.captured
      = ws.map some ++ (vs.map some ++ u.captured) := by rw [List.map_append, List.append_assoc]
    _ = s.captured ++ (n1 ++ n2).map some := by
        rw [e2, ← List.append_assoc, e1, List.map_append, List.append_assoc]

/-- A pop of FIFO AdcOut hands over the oldest captured word. -/
theorem handedOver_pop {s : State} (hl : s.Linked) {w : Word} {ws : List Word}
    (hf : s.fifo.adcOut = w :: ws) : HandedOver [w] s (setFifo .adcOut ws s) := by
  refine ⟨⟨hl.apart, hl.written⟩, [], ?_, fun _ => rfl⟩
  rw [captured_eq s, hf]
  exact (List.append_nil _).symm

/-- No steps drop, repeat or reorder a captured word. -/
theorem runSteps_captured (hs : List HwStep) {s : State} (h : s.TypedValid) (hl : s.Linked) :
    Captured s (runSteps hs s) := by
  obtain ⟨-, -, captured⟩ := runSteps_keeps_prop (hs := hs)
    (P := fun t => t.TypedValid ∧ t.ctrl = s.ctrl ∧ Captured s t)
    (fun k _ t ⟨htv, hc, hcap⟩ => ⟨htv.hwStep k, (hwStep_keeps k t).ctrl.trans hc,
      hcap.trans hc (hwStep_captured k htv.1 hcap.1)⟩) ⟨h, rfl, .refl hl⟩
  exact captured

theorem takeDraw_captured {s : State} (hl : s.Linked) : Captured s (takeDraw s) :=
  .of_eq hl rfl rfl rfl rfl rfl rfl rfl

theorem runHw_captured {s : State} (h : s.TypedValid) (hl : s.Linked) : Captured s (runHw s) :=
  have draw := takeDraw_captured hl
  draw.trans (takeDraw_keeps s).ctrl (runSteps_captured _ (takeDraw_typedValid h) draw.1)

/-- A run of takes hands over the oldest captured words (40_transactions.md R152). -/
theorem takes_handedOver {m : Nat} {s t : State} {ws : List Word} (ht : takes m s = some (ws, t))
    (h : s.TypedValid) (hl : s.Linked) : HandedOver ws s t := by
  induction m generalizing s ws with
  | zero =>
    simp only [takes, Option.some.injEq, Prod.mk.injEq] at ht
    obtain ⟨rfl, rfl⟩ := ht
    exact (Captured.refl hl).handedOver
  | succ m ih =>
    obtain ⟨w, rest, r, hf, hr, rfl⟩ := takes_succ ht
    have gap := runHw_captured h hl
    have pop := handedOver_pop gap.1 hf
    have hroom : rest.length ≤ (runHw s).cfg.fifoDepth.adcOut := by
      have := h.runHw.1.fifo_le .adcOut
      simp only [PerFifo.get_adcOut, hf, List.length_cons] at this
      omega
    have taken := ih hr ⟨h.runHw.1.setFifo (q := .adcOut) hroom, h.runHw.2⟩ pop.1
    have front : HandedOver ([w] ++ r) (runHw s) t :=
      pop.trans (setFifo_keeps .adcOut rest _).ctrl taken
    exact gap.handedOver.trans (runHw_keeps s).ctrl front

/-- A complete bulk read hands over the oldest captured words. -/
theorem pipeRead_handedOver {n : Nat} {s : State} (h : s.TypedValid) (hl : s.Linked)
    (h16 : n % 16 = 0) (hc : (pipeRead n s).1 = n) :
    ∃ ws, (pipeRead n s).2.1 = bytesOf ws ∧ (bytesOf ws).length = n ∧
      HandedOver ws s (pipeRead n s).2.2 := by
  by_cases hn : n = 0
  · subst hn
    exact ⟨[], rfl, rfl, (Captured.refl hl).handedOver⟩
  · obtain ⟨-, hcomplete⟩ := pipeRead_outcome h.2 hn h16
    obtain ⟨ws, t, ht, he, hlen⟩ := hcomplete hc
    have draw := takeDraw_captured hl
    have taken := takes_handedOver ht (takeDraw_typedValid h) draw.1
    rw [he]
    exact ⟨ws, rfl, hlen, draw.handedOver.trans (takeDraw_keeps s).ctrl taken⟩

/-- Handing the caller a result moves no captured word. -/
theorem HandedOver.finish {ws : List Word} {s t : State} (h : HandedOver ws s t) (r : Result) :
    HandedOver ws s (finish r t) := by
  obtain ⟨hl, hnew⟩ := h
  exact ⟨⟨hl.apart, hl.written⟩, hnew⟩

theorem linked_of_drained {s : State} (h : drained s = true) : s.Linked ∧ s.captured = [] := by
  obtain ⟨hf, hp, h0⟩ := drained_iff.1 h
  refine ⟨⟨?_, fun i hi => absurd hi (by omega)⟩, ?_⟩
  · rw [hp, h0, Nat.add_zero, Nat.zero_mod]
  · rw [State.captured, hf, h0]; rfl

end Sys2Proof.Machine

namespace Sys2Proof.DataPath
open Machine

/-- Settles O50: steps append, complete reads take from the front, and both keep the state linked. -/
theorem captureOrder : Obligations.CaptureOrder := by
  refine ⟨fun s hd => linked_of_drained hd, fun s hs hv ht hl => ?_, fun s n k hv ht hl h16 hk => ?_⟩
  · obtain ⟨hlinked, new, hnew, hstopped⟩ := runSteps_captured hs ⟨ht, hv⟩ hl
    exact ⟨_, new, runCalls_turns ⟨ht, hv⟩ hs, hlinked, hnew, hstopped⟩
  · change ∃ t, execReadBlock n (16 * 2 ^ k) s = .next t ∧ _
    rw [execReadBlock, if_pos (transferOk_pow h16 hk)]
    split
    next hc =>
      refine ⟨_, rfl, fun b hb => ?_⟩
      obtain ⟨ws, hws, hlen, handed⟩ := pipeRead_handedOver ⟨ht, hv⟩ hl h16 hc
      obtain rfl : bytesOf ws = b := hws.symm.trans (Result.bytes.inj hb)
      obtain ⟨hlinked, new, hnew, hstopped⟩ := handed.finish (.bytes (pipeRead n s).2.1)
      exact ⟨hlinked, hlen, ws, new, rfl, hnew, hstopped⟩
    next => exact ⟨_, rfl, fun b hb => nomatch hb⟩

end Sys2Proof.DataPath
end

section
/-! Interleaving and gathering (43_striping.md, 44_deswizzle.md): for any bijective slot map, where each
code goes, and that each undoes the other. Striping is the case of eight slots. -/

namespace Sys2Proof.Machine

/-! ### Where each code goes -/

theorem codeAt_eq_getElem {chans : List (List Nat)} {j k : Nat} (hj : j < chans.length)
    (hk : k < chans[j].length) : codeAt chans j k = chans[j][k] := by
  simp [codeAt, hj, hk]

theorem codeAt_gather_of_slot {n : Nat} {p : List Nat} (d : List Byte) {j k i : Nat}
    (hj : j < n) (hk : k < d.length / (2 * n)) (h : p[j]? = some i) :
    codeAt (gather n p d) j k = rawCode n d i k := by
  rw [gather_codeAt p d hj hk, List.getD_eq_getElem?_getD, h, Option.getD_some]

section bijection
variable {n : Nat} {p : List Nat} (hp : p.Perm (List.range n))
include hp

/-- The two bytes of code k of channel j, low byte first in slot `p[j]` of record k. -/
theorem interleave_bytes_of_slot {chans : List (List Nat)} {j k i : Nat} (hk : k < channelLength chans)
    (h : p[j]? = some i) :
    (interleave n p chans)[2 * n * k + 2 * i]? = some (BitVec.ofNat 8 (codeAt chans j k % 256)) ∧
    (interleave n p chans)[2 * n * k + 2 * i + 1]?
      = some (BitVec.ofNat 8 (codeAt chans j k / 256)) := by
  obtain ⟨-, hi, rfl⟩ := slot_of_getElem? hp h
  rw [← lowByte_eq, ← highByte_eq]
  exact interleave_getElem? p hk hi

theorem rawCode_interleave {chans : List (List Nat)} (hv : ∀ c ∈ chans, ∀ v ∈ c, v ≤ 65535)
    {j k i : Nat} (hk : k < channelLength chans) (h : p[j]? = some i) :
    rawCode n (interleave n p chans) i k = codeAt chans j k := by
  obtain ⟨hlo, hhi⟩ := interleave_bytes_of_slot hp hk h
  rw [rawCode, List.getD_eq_getElem?_getD, List.getD_eq_getElem?_getD, hlo, hhi, Option.getD_some,
    Option.getD_some, ← lowByte_eq, ← highByte_eq, u16_bytes (codeAt_le hv j k)]

/-! ### The two laws (R201, R215) -/

/-- Gathering what was interleaved gives the channels back. -/
theorem gather_interleave (hn : 0 < n) {chans : List (List Nat)} (h : channelsOk n chans = true) :
    gather n p (interleave n p chans) = chans := by
  obtain ⟨hl, hc⟩ := channelsOk_iff.1 h
  have hlen : (interleave n p chans).length / (2 * n) = channelLength chans := by
    rw [interleave_length, Nat.mul_div_cancel_left _ (by omega)]
  refine List.ext_getElem (by rw [gather_length, hl]) fun j hj hj' => ?_
  rw [gather_length] at hj
  obtain ⟨hjl, -⟩ := hc _ (List.getElem_mem hj')
  refine List.ext_getElem ?_ fun k hk hk' => ?_
  · rw [(gather_mem (List.getElem_mem _)).1, hlen, hjl]
  · have hk₀ : k < channelLength chans := hjl ▸ hk'
    rw [← codeAt_eq_getElem, ← codeAt_eq_getElem, gather_codeAt p _ hj (hlen.symm ▸ hk₀)]
    exact rawCode_interleave hp (fun c m => (hc c m).2) hk₀ (slot_getD hp hj)

/-- Byte r of record k, gathered and interleaved again: a code made of two bytes has those two bytes. -/
theorem interleave_gather_getElem? (d : List Byte) {k r : Nat} (hk : k < d.length / (2 * n))
    (hr : r < 2 * n) :
    (interleave n p (gather n p d))[2 * n * k + r]? = some (d.getD (2 * n * k + r) 0#8) := by
  have hi : r / 2 < n := by omega
  obtain ⟨hj, hslot⟩ := slot_idxOf hp hi
  have hlen := gather_channelLength p d (Nat.zero_lt_of_lt hi)
  obtain ⟨hlo, hhi⟩ := interleave_getElem? p (hlen.symm ▸ hk) hi
  rw [codeAt_gather_of_slot d hj hk hslot, rawCode, lowByte_u16] at hlo
  rw [codeAt_gather_of_slot d hj hk hslot, rawCode, highByte_u16] at hhi
  obtain heven | hodd := Nat.mod_two_eq_zero_or_one r
  · rwa [show 2 * (r / 2) = r by omega] at hlo
  · rwa [show 2 * n * k + 2 * (r / 2) + 1 = 2 * n * k + r by omega] at hhi

/-- Interleaving what was gathered gives the complete records back. -/
theorem interleave_gather (hn : 0 < n) (d : List Byte) :
    interleave n p (gather n p d) = d.take (2 * n * (d.length / (2 * n))) := by
  have hle : 2 * n * (d.length / (2 * n)) ≤ d.length := Nat.mul_div_le _ _
  have hlen : (interleave n p (gather n p d)).length = 2 * n * (d.length / (2 * n)) := by
    rw [interleave_length, gather_channelLength p d hn]
  refine List.ext_getElem (by rw [hlen, List.length_take, Nat.min_eq_left hle]) fun a ha _ =>
    (List.getElem_eq_iff _).2 ?_
  rw [hlen] at ha
  have hbyte := interleave_gather_getElem? hp d (Nat.div_lt_of_lt_mul ha)
    (Nat.mod_lt a (by omega : 0 < 2 * n))
  rwa [Nat.div_add_mod, List.getD_eq_getElem _ _ (by omega), ← List.getElem_take] at hbyte

end bijection

end Sys2Proof.Machine

namespace Sys2Proof.Codec
open Machine

/-- Settles O53: `stripe` is the eight-slot interleave, and a channel of the instrument reads the slot its
buffer was laid in. -/
theorem stripe : Obligations.Stripe := by
  intro s buffers n hv hl hb
  have hp := hv.stripe_perm
  have hlen : channelLength buffers = n := channelLength_of (by decide) hl fun b m => (hb b m).1
  refine ⟨Machine.stripe s.cfg buffers, if_pos (channelsOk_of (by decide) hl hb),
    by rw [Machine.stripe, interleave_length, hlen], fun c k slot hk hs => ?_⟩
  have hk' : k < channelLength buffers := hlen.symm ▸ hk
  obtain ⟨hlo, hhi⟩ := interleave_bytes_of_slot hp hk' hs
  obtain ⟨-, hslot, -⟩ := slot_of_getElem? hp hs
  refine ⟨hlo, hhi, ?_⟩
  rw [dacCode, List.getD_eq_getElem?_getD, hs, Option.getD_some, slotCode_blockWord _ _ hslot]
  exact rawCode_interleave hp (fun b m => (hb b m).2) hk' hs

/-- Settles O54: `destripe` is the eight-slot gather, the inverse of the interleave on whole words. -/
theorem destripe : Obligations.Destripe := by
  refine ⟨fun s frame h => ?_, fun c buffers hv h => gather_interleave hv.stripe_perm (by decide) h,
    fun c frame hv h => ?_⟩
  · exact ⟨Machine.destripe s.cfg frame, if_pos h, gather_length .., fun b hb => (gather_mem hb).1,
      fun c k slot hk hs hc => codeAt_gather_of_slot frame hc hk hs⟩
  · calc Machine.stripe c (Machine.destripe c frame)
        = frame.take (2 * 8 * (frame.length / (2 * 8))) := interleave_gather hv.stripe_perm (by decide) frame
      _ = frame := List.take_of_length_le (by omega)

end Sys2Proof.Codec
end

section
/-! The two dialects of the Stream Decoder (44_deswizzle.md): swizzling and deswizzling are the interleave
and the gather of 4 or 8 slots by the permutation of the dialect. -/

namespace Sys2Proof.Machine

theorem dialectChannels_pos (dialect : Dialect) : 0 < dialectChannels dialect := by
  cases dialect <;> decide

/-- A dialect's permutation is one of its slots (30_encoding.md R121). -/
theorem dialectPerm_perm {c : Cfg} (hv : c.Valid) :
    ∀ dialect, (dialectPerm c dialect).Perm (List.range (dialectChannels dialect))
  | .legacy => hv.legacy_perm
  | .full => hv.full_perm

/-- Deswizzling any bytes: how many channels there are, their codes, and where each code comes from. -/
theorem deswizzle_channels {c : Cfg} (hv : c.Valid) (dialect : Dialect) (d : List Byte) :
    (deswizzle c dialect d).length = dialectChannels dialect ∧
    (∀ ch ∈ deswizzle c dialect d,
      ch.length = d.length / (2 * dialectChannels dialect) ∧ ∀ v ∈ ch, v ≤ 65535) ∧
    ∀ j k i, k < d.length / (2 * dialectChannels dialect) → (dialectPerm c dialect)[j]? = some i →
      codeAt (deswizzle c dialect d) j k = rawCode (dialectChannels dialect) d i k :=
  ⟨gather_length .., fun _ hch => gather_mem hch, fun _ _ _ hk hs =>
    codeAt_gather_of_slot d (slot_of_getElem? (dialectPerm_perm hv dialect) hs).1 hk hs⟩

/-- The first stage hands the second one a channel set in its domain (45_field_decode.md R230). -/
theorem execDecodeFields_deswizzle (d : List Byte) (l : Layout) (s : State) :
    execDecodeFields (deswizzle s.cfg .full d) l s
      = .next (finish (.decoded (decodeFields (deswizzle s.cfg .full d) l)) s) :=
  if_pos (gather_channelsOk _ d (by decide))

end Sys2Proof.Machine

namespace Sys2Proof.Codec
open Machine

/-- Settles O57: interleaving and gathering by a dialect's permutation undo each other. -/
theorem swizzleRoundTrip : Obligations.SwizzleRoundTrip := fun _ dialect hv =>
  ⟨interleave_gather (dialectPerm_perm hv dialect) (dialectChannels_pos dialect),
    fun _ h => gather_interleave (dialectPerm_perm hv dialect) (dialectChannels_pos dialect) h⟩

/-- Settles O55: both instructions return the channels of their dialect. -/
theorem deswizzle : Obligations.Deswizzle := fun s d hv =>
  ⟨⟨Machine.deswizzle s.cfg .legacy d, rfl, deswizzle_channels hv .legacy d⟩,
    ⟨Machine.deswizzle s.cfg .full d, rfl, deswizzle_channels hv .full d⟩⟩

/-- Settles O56: `swizzle` is the interleave by the dialect's permutation, on channels of one length. -/
theorem swizzle : Obligations.Swizzle := by
  intro s dialect chan len hv hl hc
  have hn := dialectChannels_pos dialect
  have hlen : channelLength chan = len := channelLength_of hn hl fun c m => (hc c m).1
  refine ⟨Machine.swizzle s.cfg dialect chan, if_pos (channelsOk_of hn hl hc),
    by rw [Machine.swizzle, interleave_length, hlen], fun j k i hk hs => ?_⟩
  exact interleave_bytes_of_slot (dialectPerm_perm hv dialect) (hlen.symm ▸ hk) hs

/-- Settles O58: the two construction errors, a Legacy decoder, and a Full one by its version. -/
theorem decode : Obligations.Decode :=
  ⟨fun _ _ _ _ => rfl, fun _ _ => rfl,
    fun s _ d => ⟨Machine.deswizzle s.cfg .legacy d, rfl, rfl⟩,
    fun s v d => ⟨Machine.deswizzle s.cfg .full d, rfl,
      (execDecodeFields_deswizzle d (layoutOfVersion s.cfg v) s).symm⟩⟩

end Sys2Proof.Codec
end

section
/-! The second decode stage (45_field_decode.md): what each component of a decode result holds, and when
each of its two flags is set. -/

namespace Sys2Proof.Machine

/-- On eight channels of one length the step hands over the decode result (R230). -/
theorem execDecodeFields_of_channels {chan : List (List Nat)} {len : Nat} (hl : chan.length = 8)
    (hc : ∀ c ∈ chan, c.length = len ∧ ∀ v ∈ c, v ≤ 65535) (l : Layout) (s : State) :
    execDecodeFields chan l s = .next (finish (.decoded (decodeFields chan l)) s) :=
  if_pos (channelsOk_of (by decide) hl hc)

/-! ### Timestamps and counters -/

@[simp] theorem timestamps_length (chan : List (List Nat)) (l : Layout) (c : Nat) :
    (timestamps chan l c).length = c := by
  simp [timestamps]

/-- Three codes of 16 bits, one above the other, are a timestamp of 48 (R232). -/
theorem timestamps_getD_lt {chan : List (List Nat)} (hv : ∀ c ∈ chan, ∀ v ∈ c, v ≤ 65535) (l : Layout)
    {c i : Nat} (hi : i < c) : (timestamps chan l c).getD i 0 < 2 ^ 48 := by
  have h0 := codeAt_le hv l.ts0.ch (5 * i + l.ts0.ph)
  have h1 := codeAt_le hv l.ts1.ch (5 * i + l.ts1.ph)
  have h2 := codeAt_le hv l.ts2.ch (5 * i + l.ts2.ph)
  rw [timestamps_getD chan l hi]
  omega

@[simp] theorem counter_length (chan : List (List Nat)) (f : SeqField) (m : Nat) :
    (counter chan f m).length = m := by
  simp [counter]

theorem counter_mem_lt {chan : List (List Nat)} {f : SeqField} {m v : Nat} (hv : v ∈ counter chan f m) :
    v < 32 := by
  obtain ⟨i, -, rfl⟩ := List.mem_map.1 hv
  exact Nat.and_lt_two_pow _ (by decide : 0x1F < 2 ^ 5)

/-! ### Sub-channels -/

/-- Entries of other names leave a name's entry. -/
theorem foldl_putSub_other (codes : SubField → List Nat) {source key : Name} {fs : List SubField}
    (h : ∀ g ∈ fs, ¬ (g.source = source ∧ g.key = key)) (d : List SubChannel) :
    (fs.foldl (fun d f => putSub ⟨f.source, f.key, codes f⟩ d) d).find?
        (fun x => x.source == source && x.key == key)
      = d.find? fun x => x.source == source && x.key == key := by
  induction fs generalizing d with
  | nil => rfl
  | cons g fs ih =>
    obtain ⟨hg, hfs⟩ := List.forall_mem_cons.1 h
    rw [List.foldl_cons, ih hfs, putSub_other _ hg]

/-- The last entry of a name is the one the dictionary holds (R241). -/
theorem subchannels_find?_of_last (chan : List (List Nat)) {l : Layout} (k : Nat)
    {pre post : List SubField} {f : SubField} (hsub : l.sub = pre ++ f :: post)
    (hlast : ∀ g ∈ post, ¬ (g.source = f.source ∧ g.key = f.key)) :
    (subchannels chan l k).find? (fun x => x.source == f.source && x.key == f.key)
      = some ⟨f.source, f.key, subCodes chan k f⟩ := by
  rw [subchannels, hsub, List.foldl_append, List.foldl_cons, foldl_putSub_other _ hlast]
  exact putSub_same ⟨f.source, f.key, subCodes chan k f⟩ _

/-! ### Flags -/

/-- A constant field of some group of ten differs from its expected value (R238). -/
theorem integrity_iff {chan : List (List Nat)} {l : Layout} {m : Nat} : integrity chan l m = true ↔
    ∃ f ∈ layoutConsts l, ∃ i, i < m ∧ codeAt chan f.ch (10 * i + f.ph) &&& f.mask ≠ f.expected := by
  simp [integrity, constMismatch]

/-- Two differences of consecutive timestamps differ (R239, R240). -/
theorem timingSkip_iff_getD {ts : List Nat} : timingSkip ts = true ↔
    ∃ a b, a + 1 < ts.length ∧ b + 1 < ts.length ∧
      (ts.getD (a + 1) 0 : Int) - ts.getD a 0 ≠ (ts.getD (b + 1) 0 : Int) - ts.getD b 0 := by
  simp only [timingSkip_iff, mem_deltas]
  constructor
  · rintro ⟨_, ⟨a, ha, rfl⟩, _, ⟨b, hb, rfl⟩, hne⟩
    exact ⟨a, b, ha, hb, hne⟩
  · rintro ⟨a, b, ha, hb, hne⟩
    exact ⟨_, ⟨a, ha, rfl⟩, _, ⟨b, hb, rfl⟩, hne⟩

end Sys2Proof.Machine

namespace Sys2Proof.Codec
open Machine

/-- Settles O59: each component of the result is the list of its fields, at the channels' common length. -/
theorem decodeFieldsValues : Obligations.DecodeFieldsValues := by
  intro s chan l len hl hc _
  have hlen : channelLength chan = len := channelLength_of (by decide) hl fun c m => (hc c m).1
  have hv : ∀ c ∈ chan, ∀ v ∈ c, v ≤ 65535 := fun c m => (hc c m).2
  refine ⟨decodeFields chan l, execDecodeFields_of_channels hl hc l s, rfl, ?_⟩
  simp only [decodeFields, subOf, hlen]
  refine ⟨timestamps_length .., fun c h => ⟨timestamps_getD_lt hv l h, timestamps_getD chan l h⟩, rfl, ?_,
    fun m h => ⟨counter_getD chan l.seq0 h, counter_getD chan l.seq1 h⟩, fun pre post f hsub hlast => ?_⟩
  · intro n hn
    obtain rfl | rfl : n = counter chan l.seq0 (len / 10) ∨ n = counter chan l.seq1 (len / 10) := by
      simpa [counters] using hn
    all_goals exact ⟨counter_length .., fun _ => counter_mem_lt⟩
  · rw [subchannels_find?_of_last chan len hsub hlast]
    rfl

/-- Settles O60: the two flags are the checks of the result's constants and of its timestamps. -/
theorem decodeFieldsFlags : Obligations.DecodeFieldsFlags := by
  intro s chan l len hl hc
  have hlen : channelLength chan = len := channelLength_of (by decide) hl fun c m => (hc c m).1
  refine ⟨decodeFields chan l, execDecodeFields_of_channels hl hc l s, ?_, timingSkip_iff_getD⟩
  simp only [decodeFields, hlen]
  exact integrity_iff

end Sys2Proof.Codec
end


section
/-! What every call keeps of the state it began in (10_state.md R43, 60_exceptions.md R272): the relation behind
O9, followed through each building block of a call. -/

namespace Sys2Proof.Machine

/-- What no call undoes: configuration and program stay, the mark stays set, and what was played only
grows. -/
structure CallKeeps (s t : State) : Prop where
  cfg : t.cfg = s.cfg
  program : t.program = s.program
  fault : s.fault = true → t.fault = true
  played : Played s t

theorem CallKeeps.refl (s : State) : CallKeeps s s := ⟨rfl, rfl, id, .of_eq rfl⟩

theorem CallKeeps.trans {s t u : State} (h : CallKeeps s t) (k : CallKeeps t u) : CallKeeps s u :=
  ⟨k.cfg.trans h.cfg, k.program.trans h.program, k.fault ∘ h.fault, h.played.trans k.played⟩

/-- The data path writes neither configuration, program nor mark, so there only the history counts. -/
theorem KeepsControl.callKeeps {s t : State} (k : KeepsControl s t) (hp : Played s t) :
    CallKeeps s t :=
  ⟨k.cfg, k.program, k.fault.trans, hp⟩

/-- A form-W transaction may set the mark but never clears it (40_transactions.md R153 step 3). -/
theorem writeCtrl_callKeeps (mask value : Wire) (s : State) :
    CallKeeps s (writeCtrl mask value s) where
  cfg := writeCtrl_cfg mask value s
  program := writeCtrl_program mask value s
  fault h := by rw [writeCtrl_fault, h, Bool.true_or]
  played := writeCtrl_played mask value s

/-- Every building block of a call goes on from `s` by what no call undoes. -/
theorem CallKeeps.keeps (s : State) : Keeps (CallKeeps s) where
  result _ _ h := h.trans ⟨rfl, rfl, id, .of_eq rfl⟩
  draw u h := h.trans ((takeDraw_keeps u).callKeeps (takeDraw_played u))
  pulse x u h := h.trans ((pulse_keeps x u).callKeeps (pulse_played x u))
  step x u h := h.trans ((hwStep_keeps x u).callKeeps (hwStep_dacOut x u))
  write data u h := h.trans ((pipeWrite_keeps data u).callKeeps (pipeWrite_played data u))
  read n u h := h.trans ((pipeRead_keeps n u).callKeeps (pipeRead_played n u))
  form mask value u h := h.trans (writeCtrl_callKeeps mask value u)

/-- Settles O9: a call is made of building blocks, and none of them undoes any of the four. -/
theorem everyCallKeeps : Obligations.EveryCallKeeps := by
  intro i s t he
  obtain ⟨hcfg, hprogram, hfault, hplayed⟩ := (CallKeeps.keeps s).exec he (.refl s)
  exact ⟨hcfg, hprogram, hfault, hplayed⟩

end Sys2Proof.Machine
end


section
/-! Moving paths (70_reset_and_hazards.md R303): a pulse with its gating enable asserted draws the components
of its row of the table, each within its type, and writes nothing else. The bounds are those of the draws,
so they hold whatever the components were before. -/

namespace Sys2Proof.Machine

/-- A drawn pointer lies inside its region. -/
theorem freePtr_lt {c : Cfg} (hv : c.Valid) (k : Nat) (p : Ptr) :
    Config.freeNat k 0 % regionWords c (ptrRegion p) < regionWords c (ptrRegion p) :=
  Nat.mod_lt _ (regionWords_pos hv _)

/-- A drawn `adc_fill` lies within the ADC region. -/
theorem freeFill_le (c : Cfg) (k : Nat) :
    Config.freeNat k 0 % (c.adcBufWords + 1) ≤ c.adcBufWords :=
  Nat.le_of_lt_succ (Nat.mod_lt _ (Nat.succ_pos _))

/-- RstDacIn while DacWrite is asserted. -/
theorem pulse_rstDacIn_moving {s : State} (hv : s.cfg.Valid) (h : s.ctrl.dacWrite = true) :
    ∃ (ws : List Word) (p : Nat) (m : List Host.Cell) (d : Nat),
      pulse .rstDacIn s = { s with
        fifo := s.fifo.set .dacIn ws, ptr := s.ptr.set .dacWr p, ddrDac := m, draws := d } ∧
      ws.length ≤ s.cfg.fifoDepth.get .dacIn ∧ p < s.cfg.sampleSize ∧ Memory.wf m ∧
      Memory.within s.cfg.sampleSize m :=
  ⟨_, _, _, _, if_pos h, freeFifo_length _ _, freePtr_lt hv _ .dacWr, Memory.wf_region _ _ _,
    Memory.within_region _ _ _⟩

/-- RstDacOut while DacRead is asserted. -/
theorem pulse_rstDacOut_moving {s : State} (hv : s.cfg.Valid) (h : s.ctrl.dacRead = true) :
    ∃ (ws : List Word) (p d : Nat),
      pulse .rstDacOut s = { s with
        fifo := s.fifo.set .dacOut ws, ptr := s.ptr.set .dacRd p, draws := d } ∧
      ws.length ≤ s.cfg.fifoDepth.get .dacOut ∧ p < s.cfg.sampleSize :=
  ⟨_, _, _, if_pos h, freeFifo_length _ _, freePtr_lt hv _ .dacRd⟩

/-- RstAdcIn while AdcWrite is asserted. -/
theorem pulse_rstAdcIn_moving {s : State} (h : s.ctrl.adcWrite = true) :
    ∃ (ws : List Word) (b : Bool) (d : Nat),
      pulse .rstAdcIn s = { s with
        fifo := s.fifo.set .adcIn ws, adcOverrun := b, draws := d } ∧
      ws.length ≤ s.cfg.fifoDepth.get .adcIn :=
  ⟨_, _, _, if_pos h, freeFifo_length _ _⟩

/-- RstAdcOut while AdcTransfer is asserted. -/
theorem pulse_rstAdcOut_moving {s : State} (hv : s.cfg.Valid) (h : s.ctrl.adcTransfer = true) :
    ∃ (ws : List Word) (p n d : Nat),
      pulse .rstAdcOut s = { s with
        fifo := s.fifo.set .adcOut ws, ptr := s.ptr.set .adcRd p, adcFill := n, draws := d } ∧
      ws.length ≤ s.cfg.fifoDepth.get .adcOut ∧ p < s.cfg.adcBufWords ∧ n ≤ s.cfg.adcBufWords :=
  ⟨_, _, _, _, if_pos h, freeFifo_length _ _, freePtr_lt hv _ .adcRd, freeFill_le _ _⟩

theorem havocPtr_eq (p : Ptr) (s : State) : havocPtr p s = { s with
    ptr := s.ptr.set p (Config.freeNat s.draws 0 % regionWords s.cfg (ptrRegion p))
    draws := s.draws + 1 } := rfl

theorem havocFill_eq (s : State) : havocFill s = { s with
    adcFill := Config.freeNat s.draws 0 % (s.cfg.adcBufWords + 1), draws := s.draws + 1 } := rfl

/-- The first five draws of a pointer reset on a moving path: the four pointers and `adc_fill`. -/
theorem havocPointers_eq {s : State} (hv : s.cfg.Valid) :
    ∃ (ps : PerPtr Nat) (n d : Nat),
      havocFill (havocPtr .adcRd (havocPtr .adcWr (havocPtr .dacRd (havocPtr .dacWr s)))) =
        { s with ptr := ps, adcFill := n, draws := d } ∧
      (∀ p, ps.get p < regionWords s.cfg (ptrRegion p)) ∧ n ≤ s.cfg.adcBufWords := by
  simp only [havocPtr_eq, havocFill_eq]
  refine ⟨_, _, _, rfl, fun p => ?_, freeFill_le _ _⟩
  cases p <;> exact freePtr_lt hv _ _

/-- A region is drawn where its enable is asserted; elsewhere it stays, and the empty region stands for
the draw that is not made. -/
theorem ite_havocDac_eq (b : Bool) (s : State) :
    ∃ (m : List Host.Cell) (d : Nat), (if b then havocDac s else s) =
        { s with ddrDac := if b then m else s.ddrDac, draws := d } ∧
      Memory.wf m ∧ Memory.within s.cfg.sampleSize m := by
  cases b
  case false => exact ⟨[], _, rfl, .nil, nofun⟩
  case true => exact ⟨_, _, rfl, Memory.wf_region _ _ _, Memory.within_region _ _ _⟩

theorem ite_havocAdc_eq (b : Bool) (s : State) :
    ∃ (m : List Host.Cell) (d : Nat), (if b then havocAdc s else s) =
        { s with ddrAdc := if b then m else s.ddrAdc, draws := d } ∧
      Memory.wf m ∧ Memory.within s.cfg.adcBufWords m := by
  cases b
  case false => exact ⟨[], _, rfl, .nil, nofun⟩
  case true => exact ⟨_, _, rfl, Memory.wf_region _ _ _, Memory.within_region _ _ _⟩

/-- RstPtr while some enable is asserted: the pointers and `adc_fill` first, then the region of each
write enable that is asserted. -/
theorem pulse_rstPtr_moving {s : State} (hv : s.cfg.Valid) (h : anyEnable s.ctrl = true) :
    ∃ (ps : PerPtr Nat) (n : Nat) (m1 m2 : List Host.Cell) (d : Nat),
      pulse .rstPtr s = { s with
        ptr := ps, adcFill := n
        ddrDac := if s.ctrl.dacWrite then m1 else s.ddrDac
        ddrAdc := if s.ctrl.adcWrite then m2 else s.ddrAdc
        draws := d } ∧
      (∀ p, ps.get p < regionWords s.cfg (ptrRegion p)) ∧ n ≤ s.cfg.adcBufWords ∧
      Memory.wf m1 ∧ Memory.within s.cfg.sampleSize m1 ∧
      Memory.wf m2 ∧ Memory.within s.cfg.adcBufWords m2 := by
  obtain ⟨ps, n, d, hptr, hps, hn⟩ := havocPointers_eq hv
  obtain ⟨m1, d1, hdac, hwf1, hin1⟩ :=
    ite_havocDac_eq s.ctrl.dacWrite { s with ptr := ps, adcFill := n, draws := d }
  obtain ⟨m2, d2, hadc, hwf2, hin2⟩ := ite_havocAdc_eq s.ctrl.adcWrite
    { s with ptr := ps, adcFill := n, ddrDac := if s.ctrl.dacWrite then m1 else s.ddrDac, draws := d1 }
  refine ⟨ps, n, m1, m2, d2, ?_, hps, hn, hwf1, hin1, hwf2, hin2⟩
  have hpulse : pulse .rstPtr s = pointerHavoc s := if_pos h
  simp only [hpulse, pointerHavoc, hptr, hdac, hadc]

end Sys2Proof.Machine

namespace Sys2Proof.DataPath
open Machine

/-- Settles O23: each call is one pulse, which draws the components of its row and then answers. -/
theorem pulsesOnMovingPaths : Obligations.PulsesOnMovingPaths := by
  intro s hv
  refine ⟨fun h i hi => ?_, fun h i hi => ?_, fun h i hi => ?_, fun h i hi => ?_, fun h i hi => ?_⟩
  · obtain ⟨ws, p, m, d, he, hbounds⟩ := pulse_rstDacIn_moving hv h
    exact ⟨ws, p, m, d, by rw [exec_fifoPulse (q := .dacIn) hi, rstOf, he]; rfl, hbounds⟩
  · obtain ⟨ws, p, d, he, hbounds⟩ := pulse_rstDacOut_moving hv h
    exact ⟨ws, p, d, by rw [exec_fifoPulse (q := .dacOut) hi, rstOf, he]; rfl, hbounds⟩
  · obtain ⟨ws, b, d, he, hbound⟩ := pulse_rstAdcIn_moving h
    exact ⟨ws, b, d, by rw [exec_fifoPulse (q := .adcIn) hi, rstOf, he]; rfl, hbound⟩
  · obtain ⟨ws, p, n, d, he, hbounds⟩ := pulse_rstAdcOut_moving hv h
    exact ⟨ws, p, n, d, by rw [exec_fifoPulse (q := .adcOut) hi, rstOf, he]; rfl, hbounds⟩
  · obtain ⟨ps, n, m1, m2, d, he, hbounds⟩ := pulse_rstPtr_moving hv h
    exact ⟨ps, n, m1, m2, d, by rw [exec_pointerPulse hi, he]; rfl, hbounds⟩

end Sys2Proof.DataPath
end
